-- ==== Sys2Proof/Word.lean ====
section
/-! DEFINITION. The word type of the machine and the register index
(00_scope.md R5, R16; 10_state.md R20). A station's identity, and so a tag, is its index in configuration order, a
plain `Nat` (R25). -/

namespace Sys2Proof

/-- A register value, a memory word, an operand value or a result: 16 bits (R5, R16). -/
abbrev Word := BitVec 16

/-- A register index, the value of a 3-bit register field (R5, R20). -/
abbrev RegIdx := Fin 8

end Sys2Proof
end

