-- ==== Sys2Proof/Syntax.lean ====
section
/-! DEFINITION. The instruction set as syntax: the closed enumeration of nine opcodes (00_scope.md R2), the
instruction (30_encoding.md R82) and the unvalidated instruction record the host hands to the codec (R82). -/

namespace Sys2Proof

/-- The closed enumeration of opcodes, in the source's order (R2). -/
inductive OpCode where
  | load | store | beq | call | ret | add | sub | nor | mul
deriving DecidableEq, Repr

/-- Every opcode, in enumeration order (R2). -/
def OpCode.all : List OpCode :=
  [.load, .store, .beq, .call, .ret, .add, .sub, .nor, .mul]

/-- The four instruction formats (R81). -/
inductive Format where
  | rri | rrr | j | n
deriving DecidableEq, Repr

/-- The format of each opcode (R81). -/
def OpCode.format : OpCode → Format
  | .load | .store | .beq => .rri
  | .add | .sub | .nor | .mul => .rrr
  | .call => .j
  | .ret => .n

/-- An instruction: exactly the fields of its format (R82). Offsets and labels are integers, as in the spec's own
Lean terms; their ranges are checked by `Instr.wf` (R86, R87). -/
inductive Instr where
  | load  (rA rB : RegIdx) (offset : Int)
  | store (rA rB : RegIdx) (offset : Int)
  | beq   (rA rB : RegIdx) (offset : Int)
  | call  (label : Int)
  | ret
  | add   (rA rB rC : RegIdx)
  | sub   (rA rB rC : RegIdx)
  | nor   (rA rB rC : RegIdx)
  | mul   (rA rB rC : RegIdx)
deriving DecidableEq, Repr

/-- The opcode of an instruction. -/
def Instr.opcode : Instr → OpCode
  | .load _ _ _ => .load
  | .store _ _ _ => .store
  | .beq _ _ _ => .beq
  | .call _ => .call
  | .ret => .ret
  | .add _ _ _ => .add
  | .sub _ _ _ => .sub
  | .nor _ _ _ => .nor
  | .mul _ _ _ => .mul

/-- The fields and values a validation error can name (60_exceptions.md R220). The first five are the fields of an
instruction record, by their names in R82. DESIGN CHOICE: the last three are the model's own names for a register
index, a register value and a data word given to a configuration operation (70_reset_and_hazards.md R242), for which
no rule gives "the field name" (log entry 19). -/
inductive FieldName where
  | rA | rB | rC | offset | label
  | register | registerValue | dataWord
deriving DecidableEq, Repr

/-- An instruction record as the host writes it, before validation: an opcode and optional fields (R82). -/
structure Record where
  opcode : OpCode
  rA     : Option Int := none
  rB     : Option Int := none
  rC     : Option Int := none
  offset : Option Int := none
  label  : Option Int := none
deriving DecidableEq, Repr

end Sys2Proof
end

