-- ==== Sys2Proof/Config.lean ====
section
/-! DEFINITION. What an implementation of the block fixes: the parameters of 00_scope.md R7 to R14 and the station
descriptors of R6. They are plain data, and `Machine.State` holds them, so that every parameter value is modelled
(log entry 2). The spec leaves no value free, so there is no opaque constant here. -/

namespace Sys2Proof

/-- The functional-unit kind a station serves (R6). -/
inductive UnitKind where
  | load | store | beq | callret | addsub | nor | mul
deriving DecidableEq, Repr

/-- Parameter `opcodeCode`: the 4-bit code of each of the nine opcodes (R7). -/
structure OpcodeMap where
  load  : BitVec 4
  store : BitVec 4
  beq   : BitVec 4
  call  : BitVec 4
  ret   : BitVec 4
  add   : BitVec 4
  sub   : BitVec 4
  nor   : BitVec 4
  mul   : BitVec 4
deriving DecidableEq, Repr

/-- The default map: the position in the enumeration (R7, R84). -/
def OpcodeMap.default : OpcodeMap where
  load := 0
  store := 1
  beq := 2
  call := 3
  ret := 4
  add := 5
  sub := 6
  nor := 7
  mul := 8

/-- The code of an opcode under a map (R7). -/
def OpcodeMap.code (m : OpcodeMap) : OpCode → BitVec 4
  | .load => m.load
  | .store => m.store
  | .beq => m.beq
  | .call => m.call
  | .ret => m.ret
  | .add => m.add
  | .sub => m.sub
  | .nor => m.nor
  | .mul => m.mul

/-- Parameter `callTargetMode` (R9). -/
inductive CallTargetMode where
  | absolute | pcRelative
deriving DecidableEq, Repr

/-- Parameter `retLinkPolicy` (R10). -/
inductive RetLinkPolicy where
  | readFile | faultIfPending
deriving DecidableEq, Repr

/-- Parameter `executeBranchBlock` (R11). -/
inductive ExecuteBranchBlock where
  | speculativeOnly | allButBranch
deriving DecidableEq, Repr

/-- Parameter `nestedBranchPolicy` (R12). -/
inductive NestedBranchPolicy where
  | stall | fault
deriving DecidableEq, Repr

/-- Parameter `squashRegStatPolicy` (R13). -/
inductive SquashRegStatPolicy where
  | restore | keepStale | fault
deriving DecidableEq, Repr

/-- Parameter `notTakenPcPolicy` (R14). -/
inductive NotTakenPcPolicy where
  | rewind | keep
deriving DecidableEq, Repr

/-- The implementation parameters R7 to R14. -/
structure Params where
  opcodes             : OpcodeMap
  checkOffsetRange    : Bool
  callTargetMode      : CallTargetMode
  retLinkPolicy       : RetLinkPolicy
  executeBranchBlock  : ExecuteBranchBlock
  nestedBranchPolicy  : NestedBranchPolicy
  squashRegStatPolicy : SquashRegStatPolicy
  notTakenPcPolicy    : NotTakenPcPolicy
deriving DecidableEq, Repr

/-- The spec's defaults (R7, R9 to R14). DESIGN CHOICE: `checkOffsetRange` is OPEN in the spec (R8); `true` is the
value its examples assume (log entry 3). -/
def Params.default : Params where
  opcodes := OpcodeMap.default
  checkOffsetRange := true
  callTargetMode := .absolute
  retLinkPolicy := .readFile
  executeBranchBlock := .speculativeOnly
  nestedBranchPolicy := .stall
  squashRegStatPolicy := .restore
  notTakenPcPolicy := .rewind

/-- A station descriptor that configuration has accepted (R6): the static part of a station (R25). -/
structure StationDesc where
  name         : String
  kind         : UnitKind
  cyclesNeeded : Nat
  addrCycles   : Option Nat := none
  memCycles    : Option Nat := none
deriving DecidableEq, Repr

/-- A station descriptor as the host writes it, before the checks of R241: the latencies are integers. -/
structure StationSpec where
  name         : String
  kind         : UnitKind
  cyclesNeeded : Int
  addrCycles   : Option Int := none
  memCycles    : Option Int := none
deriving DecidableEq, Repr

end Sys2Proof
end

