-- ==== Sys2Proof/WellFormed.lean ====
section
/-! DEFINITION. Which syntax is well formed: the ranges of an instruction's fields (30_encoding.md R86), the
injectivity of the opcode map (00_scope.md R7) and the constraints on a station descriptor (70 R241). -/

namespace Sys2Proof

/-- The range of an `offset`: 5 bits, two's complement (R86). -/
def offsetInRange (o : Int) : Bool := decide (-16 ≤ o) && decide (o ≤ 15)

/-- The range of a `label`: 7 bits, two's complement (R86). -/
def labelInRange (l : Int) : Bool := decide (-64 ≤ l) && decide (l ≤ 63)

/-- A well-formed instruction (R86): its label is in range, and its offset is in range when `checkOffset` says that
offsets are checked (parameter `checkOffsetRange`, R8). Register fields are in [0,7] by their type. -/
def Instr.wf (checkOffset : Bool) : Instr → Bool
  | .load _ _ o | .store _ _ o | .beq _ _ o => !checkOffset || offsetInRange o
  | .call l => labelInRange l
  | .ret => true
  | .add _ _ _ | .sub _ _ _ | .nor _ _ _ | .mul _ _ _ => true

/-- An opcode map is injective: no two opcodes share a code (R7). -/
def OpcodeMap.wf (m : OpcodeMap) : Bool := decide ((OpCode.all.map m.code).Nodup)

/-- Parameters are well formed when the opcode map is (R7); every value of the others is allowed (R8 to R14). -/
def Params.wf (p : Params) : Bool := p.opcodes.wf

/-- Whether a station of this kind may have sub-latencies (R241). -/
def UnitKind.hasSubLatencies : UnitKind → Bool
  | .load | .store => true
  | .beq | .callret | .addsub | .nor | .mul => false

/-- An accepted station descriptor keeps the constraints of R241 that concern it alone. -/
def StationDesc.wf (d : StationDesc) : Bool :=
  d.name != "" && decide (1 ≤ d.cyclesNeeded)
    && (d.kind.hasSubLatencies || (d.addrCycles.isNone && d.memCycles.isNone))
    && (match d.addrCycles with
        | none => true
        | some n => decide (1 ≤ n) && decide (n ≤ d.cyclesNeeded))

end Sys2Proof
end

