-- ==== Sys2Proof/Decode.lean ====
section
/-! DEFINITION. The instruction codec (30_encoding.md): decode, total over all 65536 words (R88), then encode (R85),
the validation of instruction records (R82, R86, R87) and the assembly form of an instruction (00_scope.md R19). -/

namespace Sys2Proof

/-! ## Fields of a word (R81, R83) -/

/-- Bits 15..12. -/
def opcodeField (w : Word) : BitVec 4 := w.extractLsb' 12 4

/-- A 3-bit field as a register index, unsigned (R83). -/
def regOf (b : BitVec 3) : RegIdx := b.toFin

/-- Bits 11..9. -/
def rAField (w : Word) : RegIdx := regOf (w.extractLsb' 9 3)

/-- Bits 8..6. -/
def rBField (w : Word) : RegIdx := regOf (w.extractLsb' 6 3)

/-- Bits 5..3. -/
def rCField (w : Word) : RegIdx := regOf (w.extractLsb' 3 3)

/-- `sext_5(w[4:0])`, an integer in -16..15 (R83). -/
def offsetField (w : Word) : Int := (w.extractLsb' 0 5).toInt

/-- `sext_7(w[6:0])`, an integer in -64..63 (R83). -/
def labelField (w : Word) : Int := (w.extractLsb' 0 7).toInt

/-! ## decode -/

/-- The verdict of `decode` (R88): an instruction, or `Invalid` for a word whose opcode field names no opcode (R90). -/
inductive Verdict where
  | valid (i : Instr)
  | invalid
deriving DecidableEq, Repr

/-- The opcode that has this code, if any (R84, R88: the inverse of `opcodeCode`). -/
def OpcodeMap.opOf (m : OpcodeMap) (c : BitVec 4) : Option OpCode :=
  OpCode.all.find? (fun o => m.code o == c)

/-- The instruction of an opcode whose fields are those of the word (R83, R88). -/
def instrOf (o : OpCode) (w : Word) : Instr :=
  match o with
  | .load => .load (rAField w) (rBField w) (offsetField w)
  | .store => .store (rAField w) (rBField w) (offsetField w)
  | .beq => .beq (rAField w) (rBField w) (offsetField w)
  | .call => .call (labelField w)
  | .ret => .ret
  | .add => .add (rAField w) (rBField w) (rCField w)
  | .sub => .sub (rAField w) (rBField w) (rCField w)
  | .nor => .nor (rAField w) (rBField w) (rCField w)
  | .mul => .mul (rAField w) (rBField w) (rCField w)

/-- `decode(word)`: pure and total over all words (R88). It reads no ignored bit (R89). -/
def decode (m : OpcodeMap) (w : Word) : Verdict :=
  match m.opOf (opcodeField w) with
  | none => .invalid
  | some o => .valid (instrOf o w)

/-- The host's reading of an instruction numbered as spec/opcode_table.json numbers it. Every instruction is one
16-bit word (R80), so the word is the number itself; the default opcode map of R7 is the table's. -/
def decodeTableWord (nbits w : Nat) : Option Instr :=
  if w % 2 ^ nbits < 65536 then
    match decode OpcodeMap.default (BitVec.ofNat 16 (w % 2 ^ nbits)) with
    | .valid i => some i
    | .invalid => none
  else none

/-! ## encode -/

/-- A register index as a 3-bit field. -/
def regBits (r : RegIdx) : BitVec 3 := BitVec.ofFin r

/-- `off mod 32` as 5 bits (R85, R87). -/
def off5 (o : Int) : BitVec 5 := BitVec.ofInt 5 o

/-- `label mod 128` as 7 bits (R85). -/
def label7 (l : Int) : BitVec 7 := BitVec.ofInt 7 l

/-- Format RRI: opcode, rA, rB, an ignored bit written 0, offset (R81, R85). -/
def encodeRRI (c : BitVec 4) (rA rB : RegIdx) (o : Int) : Word :=
  c ++ regBits rA ++ regBits rB ++ 0#1 ++ off5 o

/-- Format RRR: opcode, rA, rB, rC, three ignored bits written 0 (R81, R85). -/
def encodeRRR (c : BitVec 4) (rA rB rC : RegIdx) : Word :=
  c ++ regBits rA ++ regBits rB ++ regBits rC ++ 0#3

/-- Format J: opcode, five ignored bits written 0, label (R81, R85). -/
def encodeJ (c : BitVec 4) (l : Int) : Word := c ++ 0#5 ++ label7 l

/-- Format N: opcode, twelve ignored bits written 0 (R81, R85). -/
def encodeN (c : BitVec 4) : Word := c ++ 0#12

/-- `encode`: the word of an instruction, with every field at its place and 0 in every ignored bit (R85). An offset
outside -16..15 keeps its low 5 bits (R87). The range checks are `Record.construct`'s. -/
def encode (m : OpcodeMap) : Instr → Word
  | .load rA rB o => encodeRRI m.load rA rB o
  | .store rA rB o => encodeRRI m.store rA rB o
  | .beq rA rB o => encodeRRI m.beq rA rB o
  | .call l => encodeJ m.call l
  | .ret => encodeN m.ret
  | .add rA rB rC => encodeRRR m.add rA rB rC
  | .sub rA rB rC => encodeRRR m.sub rA rB rC
  | .nor rA rB rC => encodeRRR m.nor rA rB rC
  | .mul rA rB rC => encodeRRR m.mul rA rB rC

/-- The bits of a word that its format ignores, all zero (R89, R92). -/
def ignoredBitsZero (f : Format) (w : Word) : Bool :=
  match f with
  | .rri => w.extractLsb' 5 1 == 0
  | .rrr => w.extractLsb' 0 3 == 0
  | .j => w.extractLsb' 7 5 == 0
  | .n => w.extractLsb' 0 12 == 0

/-! ## Validation of instruction records (R82, R86, R220) -/

/-- Why a configuration operation is refused (`ConfigError(reason)`, R220, R241, R242). DESIGN CHOICE: the spec words
only "after start"; the other names are one for each constraint of R241 (log entry 14). -/
inductive ConfigReason where
  | afterStart
  | emptyName
  | duplicateName
  | latencyBelowOne
  | subLatencyOnWrongKind
  | addrCyclesOutOfRange
  | memCyclesNegative
deriving DecidableEq, Repr

/-- A validation error raised outside `step()`, by the codec or by a configuration operation (R220). -/
inductive ValidationError where
  | rangeError (field : FieldName) (value : Int)
  | fieldError (field : FieldName)
  | boundsError (addr : Int)
  | configError (reason : ConfigReason)
deriving DecidableEq, Repr

/-- Whether a format carries this field (R82). -/
def Format.carries (f : Format) (n : FieldName) : Bool :=
  match f, n with
  | .rri, .rA | .rri, .rB | .rri, .offset => true
  | .rrr, .rA | .rrr, .rB | .rrr, .rC => true
  | .j, .label => true
  | _, _ => false

/-- The first field that the record lacks or has against its format (R82); the order is rA, rB, rC, offset, label
(DESIGN CHOICE, log entry 11). -/
def Record.fieldProblem (r : Record) : Option FieldName :=
  let wrong := fun (n : FieldName) (o : Option Int) => r.opcode.format.carries n != o.isSome
  if wrong .rA r.rA then some .rA
  else if wrong .rB r.rB then some .rB
  else if wrong .rC r.rC then some .rC
  else if wrong .offset r.offset then some .offset
  else if wrong .label r.label then some .label
  else none

/-- A field that the format needs. -/
def needField (n : FieldName) (o : Option Int) : Except ValidationError Int :=
  match o with
  | some v => .ok v
  | none => .error (.fieldError n)

/-- A register field must lie in [0,7] (R86). -/
def needReg (n : FieldName) (o : Option Int) : Except ValidationError RegIdx := do
  let v ← needField n o
  if 0 ≤ v ∧ v ≤ 7 then .ok (Fin.ofNat 8 v.toNat) else .error (.rangeError n v)

/-- An offset must lie in -16..15 when offsets are checked (R86, R87). -/
def needOffset (checkOffset : Bool) (o : Option Int) : Except ValidationError Int := do
  let v ← needField .offset o
  if !checkOffset || offsetInRange v then .ok v else .error (.rangeError .offset v)

/-- A label must lie in -64..63; this check is never disabled (R86, R87). -/
def needLabel (o : Option Int) : Except ValidationError Int := do
  let v ← needField .label o
  if labelInRange v then .ok v else .error (.rangeError .label v)

/-- A record of format RRI. -/
def constructRRI (checkOffset : Bool) (r : Record) (mk : RegIdx → RegIdx → Int → Instr) :
    Except ValidationError Instr := do
  let a ← needReg .rA r.rA
  let b ← needReg .rB r.rB
  let o ← needOffset checkOffset r.offset
  .ok (mk a b o)

/-- A record of format RRR. -/
def constructRRR (r : Record) (mk : RegIdx → RegIdx → RegIdx → Instr) : Except ValidationError Instr := do
  let a ← needReg .rA r.rA
  let b ← needReg .rB r.rB
  let c ← needReg .rC r.rC
  .ok (mk a b c)

/-- Construction of an instruction from a record: the field set (R82), then the ranges (R86). -/
def Record.construct (checkOffset : Bool) (r : Record) : Except ValidationError Instr :=
  match r.fieldProblem with
  | some n => .error (.fieldError n)
  | none =>
    match r.opcode with
    | .load => constructRRI checkOffset r .load
    | .store => constructRRI checkOffset r .store
    | .beq => constructRRI checkOffset r .beq
    | .call => do
        let l ← needLabel r.label
        .ok (.call l)
    | .ret => .ok .ret
    | .add => constructRRR r .add
    | .sub => constructRRR r .sub
    | .nor => constructRRR r .nor
    | .mul => constructRRR r .mul

/-- `encode(instruction)` as the host calls it: validation, then the word; a violation yields no word (R85, R86). -/
def encodeRecord (p : Params) (r : Record) : Except ValidationError Word := do
  let i ← r.construct p.checkOffsetRange
  .ok (encode p.opcodes i)

/-- The record that spells an instruction (R82). -/
def Instr.record : Instr → Record
  | .load rA rB o => { opcode := .load, rA := some rA.val, rB := some rB.val, offset := some o }
  | .store rA rB o => { opcode := .store, rA := some rA.val, rB := some rB.val, offset := some o }
  | .beq rA rB o => { opcode := .beq, rA := some rA.val, rB := some rB.val, offset := some o }
  | .call l => { opcode := .call, label := some l }
  | .ret => { opcode := .ret }
  | .add rA rB rC => { opcode := .add, rA := some rA.val, rB := some rB.val, rC := some rC.val }
  | .sub rA rB rC => { opcode := .sub, rA := some rA.val, rB := some rB.val, rC := some rC.val }
  | .nor rA rB rC => { opcode := .nor, rA := some rA.val, rB := some rB.val, rC := some rC.val }
  | .mul rA rB rC => { opcode := .mul, rA := some rA.val, rB := some rB.val, rC := some rC.val }

/-! ## Assembly form (R19, R94) -/

/-- A register as assembly writes it. -/
def regName (r : RegIdx) : String := "R" ++ toString r.val

/-- A branch offset, written with a sign (R19). -/
def signedText (o : Int) : String := if 0 ≤ o then "+" ++ toString o else toString o

/-- `<mnemonic> rA,offset(rB)` (R19). -/
def memText (m : String) (rA rB : RegIdx) (o : Int) : String :=
  m ++ " " ++ regName rA ++ "," ++ toString o ++ "(" ++ regName rB ++ ")"

/-- `<mnemonic> rA,rB,rC` (R19). -/
def aluText (m : String) (rA rB rC : RegIdx) : String :=
  m ++ " " ++ regName rA ++ "," ++ regName rB ++ "," ++ regName rC

/-- The assembly form of an instruction (R19). -/
def Instr.assembly : Instr → String
  | .load rA rB o => memText "LOAD" rA rB o
  | .store rA rB o => memText "STORE" rA rB o
  | .beq rA rB o => "BEQ " ++ regName rA ++ "," ++ regName rB ++ "," ++ signedText o
  | .call l => "CALL " ++ toString l
  | .ret => "RET"
  | .add rA rB rC => aluText "ADD" rA rB rC
  | .sub rA rB rC => aluText "SUB" rA rB rC
  | .nor rA rB rC => aluText "NOR" rA rB rC
  | .mul rA rB rC => aluText "MUL" rA rB rC

end Sys2Proof
end

