-- ==== Sys2Proof/Machine/State.lean ====
section
/-! DEFINITION. The state of the engine as plain data (10_state.md, 20_memory.md R60), the reasons a step can stop
(60_exceptions.md R221), and the state right after reset (70_reset_and_hazards.md R240). -/

namespace Sys2Proof.Machine

/-- The faults of `step()` (R221). Each is raised where the spec says so and is terminal. -/
inductive Fault where
  /-- Raised by fetch (R115) and by LOAD and STORE at completion (R153, R156): the address is outside [0,65535].
  The spec's own fault; safe. -/
  | boundsError (addr : Int)
  /-- Raised by decode in Issue (R117): the fetched word names no opcode. The spec's own fault; safe. -/
  | illegalInstruction (word : Word) (pc : Int)
  /-- Raised by the issue of a BEQ under `nestedBranchPolicy = fault` (R191). The spec's own fault; safe. -/
  | nestedBranch (pc : Int)
  /-- Raised by the issue of a RET under `retLinkPolicy = faultIfPending` (R202). The spec's own fault; safe. -/
  | retLinkPending (pc : Int)
  /-- Raised by a taken BEQ under `squashRegStatPolicy = fault` (R196). The spec's own fault; safe. -/
  | squashStaleTag (reg : RegIdx)
deriving DecidableEq, Repr

/-- Where the model has no meaning to give. -/
inductive Refusal where
  /-- Raised by `exec` for an instruction that has no meaning yet; no arm does. Safe. -/
  | notModelled (mnemonic : String)
  /-- Raised by `step` on a state whose `fault` is set: "no further `step()` is defined on it" (R41). Safe
  (log entry 7). -/
  | engineFaulted (reason : Fault)
  /-- Raised by an Execute visit of a busy station that lacks the instruction, the operand value or the checkpoint
  which R26, R28 and R36 say it has; no run reaches such a state. Safe (log entry 8). -/
  | incoherentStation (station : Nat)
deriving DecidableEq, Repr

/-- What a step, a phase or a meaning answers. -/
abbrev Result := Host.Outcome

/-- Eight entries of one type, one per register (R20, R23). -/
structure Bank (α : Type) where
  x0 : α
  x1 : α
  x2 : α
  x3 : α
  x4 : α
  x5 : α
  x6 : α
  x7 : α
deriving DecidableEq, Repr

/-- A reservation station: its static descriptor (R25) and its mutable fields (R26). -/
structure Station where
  desc         : StationDesc
  busy         : Bool
  op           : Option OpCode
  instr        : Option Instr
  vj           : Option Word
  vk           : Option Word
  qj           : Option Nat
  qk           : Option Nat
  a            : Int
  addrReady    : Bool
  result       : Option Word
  originalPC   : Int
  cyclesPassed : Nat
  seq          : Nat
deriving DecidableEq, Repr

/-- An entry of a history tracker (R39). -/
structure Entry where
  seq     : Nat
  instr   : Instr
  cycle   : Nat
  station : Nat
deriving DecidableEq, Repr

/-- One memory cell: a word address and the 16-bit word there. The memory has no bytes (R63; log entry 5). -/
abbrev WordCell := Nat × Word

/-- The memory (R60): addresses strictly rising, no word 0 listed, since an unlisted address reads as 0. -/
abbrev Memory := List WordCell

/-- Which part of an instruction's rule `exec` performs: its Issue part, or its Execute part on one station. The
MODEL's own field; DESIGN CHOICE (log entry 1). Between steps it is `issue`. -/
inductive Turn where
  | issue
  | execute (station : Nat)
deriving DecidableEq, Repr

/-- The register-status table: for each register, the station that will next write it, or none (R23). -/
abbrev RegStat := Bank (Option Nat)

/-- The engine (10_state.md): every piece of state that the spec names, and `turn`. -/
structure State where
  params            : Params
  mem               : Memory
  reg               : Bank Word
  regStat           : RegStat
  stations          : List Station
  pc                : Int
  branchPending     : Bool
  jumpPending       : Bool
  pendingBranch     : Option Nat
  checkpoint        : Option RegStat
  issuedAfterBranch : Nat
  branchesIssued    : Nat
  mispredictions    : Nat
  nextSeq           : Nat
  issued            : List Entry
  executed          : List Entry
  writtenBack       : List Entry
  cycle             : Nat
  started           : Bool
  fault             : Option Fault
  turn              : Turn
deriving DecidableEq, Repr

/-- The state right after reset (R240), under the spec's default parameters (R7 to R14; log entries 2, 3, 6). The
station list is empty until configuration adds stations. -/
def State.reset : State where
  params := Params.default
  mem := []
  reg := ⟨0, 0, 0, 0, 0, 0, 0, 0⟩
  regStat := ⟨none, none, none, none, none, none, none, none⟩
  stations := []
  pc := 0
  branchPending := false
  jumpPending := false
  pendingBranch := none
  checkpoint := none
  issuedAfterBranch := 0
  branchesIssued := 0
  mispredictions := 0
  nextSeq := 0
  issued := []
  executed := []
  writtenBack := []
  cycle := 0
  started := false
  fault := none
  turn := .issue

end Sys2Proof.Machine
end

