-- ==== Sys2Proof/Machine/Ops.lean ====
section
/-! DEFINITION. The named operations over registers, memory, stations and history logs, the sequencing of outcomes,
and raising a fault: the block has no traps (60_exceptions.md R225), so what stands for "taking an exception" here is
`raise` inside a step and `settle`, which leaves the engine as a fault leaves it (R221). -/

namespace Sys2Proof.Machine

/-! ## Outcomes and faults -/

/-- Statements in sequence (R17): the second reads the state the first left; a stop ends both. -/
def andThen (o : Result State Fault Refusal) (f : State → Result State Fault Refusal) :
    Result State Fault Refusal :=
  match o with
  | .next s => f s
  | .fault r => .fault r
  | .refused r => .refused r

/-- `raise <Fault>(info)`: ends the step at the statement that raises it (R16, R221). -/
def raise (f : Fault) : Result State Fault Refusal := .fault f

/-- What the engine holds after a step that answered `o` from `s`: after a fault it is "as it was before the step
except that `fault = some reason`" (R221). -/
def settle (s : State) (o : Result State Fault Refusal) : State :=
  match o with
  | .next t => t
  | .fault r => { s with fault := some r }
  | .refused _ => s

/-! ## Numbers -/

/-- `bv16(n)`: the integer reduced modulo 2^16 (R16). -/
def bv16 (n : Int) : Word := BitVec.ofInt 16 n

/-- `toNat(v)` as an integer: the unsigned value 0..65535 (R16). -/
def unsigned (v : Word) : Int := v.toNat

/-! ## Memory (20_memory.md) -/

/-- What an address that is not listed reads as: 0, the reset contents (R60). -/
def unlistedWord : Word := 0

/-- The word at a word address (R60). -/
def Memory.get : Memory → Nat → Word
  | [], _ => unlistedWord
  | (b, w) :: rest, a => if a = b then w else Memory.get rest a

/-- Memory with one word replaced, in canonical form: the entry goes when the word is what an unlisted address reads
as. -/
def Memory.set : Memory → Nat → Word → Memory
  | [], a, v => if v = unlistedWord then [] else [(a, v)]
  | (b, w) :: rest, a, v =>
    if a < b then (if v = unlistedWord then (b, w) :: rest else (a, v) :: (b, w) :: rest)
    else if a = b then (if v = unlistedWord then rest else (a, v) :: rest)
    else (b, w) :: Memory.set rest a v

/-- Addresses rise strictly from `lo`, lie below 65536, and no word is the unlisted one. -/
def Memory.wfFrom : Nat → Memory → Bool
  | _, [] => true
  | lo, (b, w) :: rest =>
    decide (lo ≤ b) && decide (b < 65536) && decide (w ≠ unlistedWord) && Memory.wfFrom (b + 1) rest

/-- The canonical form of a memory. -/
def Memory.wf (m : Memory) : Bool := Memory.wfFrom 0 m

/-- The address space: word addresses 0..65535 (R5, R62). -/
def inBounds (a : Int) : Bool := decide (0 ≤ a) && decide (a ≤ 65535)

/-- `MemRead(addr, 1)` (R62): no wrap-around. -/
def memRead (m : Memory) (a : Int) : Except Fault Word :=
  if inBounds a then .ok (m.get a.toNat) else .error (.boundsError a)

/-- `MemWrite(addr, 1, v)` (R62): no wrap-around. -/
def memWrite (m : Memory) (a : Int) (v : Word) : Except Fault Memory :=
  if inBounds a then .ok (m.set a.toNat v) else .error (.boundsError a)

/-- The word at an integer address, 0 outside the address space: what a snapshot of memory shows (R244). -/
def State.wordAt (s : State) (a : Int) : Word := if inBounds a then s.mem.get a.toNat else unlistedWord

/-! ## Banks of eight -/

/-- The entry of one register. -/
def Bank.get {α : Type} (b : Bank α) (r : RegIdx) : α :=
  match r.val with
  | 0 => b.x0
  | 1 => b.x1
  | 2 => b.x2
  | 3 => b.x3
  | 4 => b.x4
  | 5 => b.x5
  | 6 => b.x6
  | _ => b.x7

/-- The bank whose entries a function gives. -/
def Bank.ofFn {α : Type} (f : RegIdx → α) : Bank α := ⟨f 0, f 1, f 2, f 3, f 4, f 5, f 6, f 7⟩

/-- A bank with one entry replaced. -/
def Bank.set {α : Type} (b : Bank α) (r : RegIdx) (v : α) : Bank α :=
  Bank.ofFn (fun q => if q = r then v else b.get q)

/-- The register indices in ascending order. -/
def allRegs : List RegIdx := [0, 1, 2, 3, 4, 5, 6, 7]

/-! ## Registers (R20, R21) -/

/-- `x[r]`: a read of R0 yields 0 (R21). -/
def State.readReg (s : State) (r : RegIdx) : Word := if r = 0 then 0 else s.reg.get r

/-- `x[r] <- v`: a write to R0 is discarded (R21). -/
def State.writeReg (s : State) (r : RegIdx) (v : Word) : State :=
  if r = 0 then s else { s with reg := s.reg.set r v }

/-- `RS[r]`: the register-status entry (R23). -/
def State.status (s : State) (r : RegIdx) : Option Nat := s.regStat.get r

/-! ## Stations (R26, R27) -/

/-- The released value of a station: every mutable field cleared, the descriptor kept (R27). -/
def Station.released (d : StationDesc) : Station where
  desc := d
  busy := false
  op := none
  instr := none
  vj := none
  vk := none
  qj := none
  qk := none
  a := 0
  addrReady := false
  result := none
  originalPC := 0
  cyclesPassed := 0
  seq := 0

/-- A station replaced. -/
def State.setStation (s : State) (k : Nat) (S : Station) : State :=
  { s with stations := s.stations.set k S }

/-- `release(S)` (R136): the station takes the released value of R27. -/
def State.release (s : State) (k : Nat) (S : Station) : State :=
  s.setStation k (Station.released S.desc)

/-- A station's part of a rule, on the station with this index; a visit of no station is a state no run reaches
(log entry 8). -/
def onStation (k : Nat) (s : State) (f : Station → Result State Fault Refusal) :
    Result State Fault Refusal :=
  match s.stations[k]? with
  | some S => f S
  | none => .refused (.incoherentStation k)

/-- The unit kind each opcode needs (R118). -/
def unitKind : OpCode → UnitKind
  | .load => .load
  | .store => .store
  | .beq => .beq
  | .call | .ret => .callret
  | .add | .sub => .addsub
  | .nor => .nor
  | .mul => .mul

/-- Scan from index `k` for the first station of the kind with `busy = false`, in configuration order (R118). -/
def firstFreeFrom (kind : UnitKind) : Nat → List Station → Option (Nat × Station)
  | _, [] => none
  | k, S :: rest =>
    if S.desc.kind = kind ∧ S.busy = false then some (k, S) else firstFreeFrom kind (k + 1) rest

/-- Allocation (R118): the first free station of the kind, or none, in which case Issue stalls. -/
def firstFree (kind : UnitKind) (stations : List Station) : Option (Nat × Station) :=
  firstFreeFrom kind 0 stations

/-! ## History logs (R39, R129) -/

/-- The entry of the instruction that a station holds, at the current cycle (R129). -/
def State.entryOf (s : State) (k : Nat) (S : Station) (i : Instr) : Entry :=
  { seq := S.seq, instr := i, cycle := s.cycle, station := k }

/-- A completion appends to the Executed log (R129). -/
def State.logExecuted (s : State) (k : Nat) (S : Station) (i : Instr) : State :=
  { s with executed := s.executed ++ [s.entryOf k S i] }

/-- A self-releasing instruction appends the same entry to the Executed and the WrittenBack log, "at this same cycle"
(R129). -/
def State.logCompleted (s : State) (k : Nat) (S : Station) (i : Instr) : State :=
  { s with executed := s.executed ++ [s.entryOf k S i], writtenBack := s.writtenBack ++ [s.entryOf k S i] }

end Sys2Proof.Machine
end

