-- ==== Sys2Proof/Machine/Operands.lean ====
section
/-! DEFINITION. Operand slots: which registers an instruction reads and writes (10_state.md R22, R30), operand capture
(40_pipeline.md R120), readiness (R29) and the renaming of the destination (R121). -/

namespace Sys2Proof.Machine

/-- The destination register that the instruction renames at Issue and writes through the CDB (R22, R121). STORE, BEQ,
CALL and RET have none; CALL's R1 is written directly (R200). -/
def destOf : Instr → Option RegIdx
  | .load rA _ _ => some rA
  | .add rA _ _ | .sub rA _ _ | .nor rA _ _ | .mul rA _ _ => some rA
  | .store _ _ _ | .beq _ _ _ | .call _ | .ret => none

/-- Whether the opcode uses the j slot (R30). -/
def usesJ : OpCode → Bool
  | .load | .store | .beq | .add | .sub | .nor | .mul => true
  | .call | .ret => false

/-- Whether the opcode uses the k slot (R30). -/
def usesK : OpCode → Bool
  | .store | .beq | .add | .sub | .nor | .mul => true
  | .load | .call | .ret => false

/-- A producer's result goes through the CDB; every other instruction releases its station itself (R130). -/
def isProducer : OpCode → Bool
  | .load | .add | .sub | .nor | .mul => true
  | .store | .beq | .call | .ret => false

/-- What an operand slot holds: a ready value, or the wait-tag of its producer (R26). -/
abbrev Slot := Option Word × Option Nat

/-- `capture(r)`: the register's value when its status entry is committed, else the producer's tag (R120). -/
def capture (s : State) (r : RegIdx) : Slot :=
  match s.status r with
  | none => (some (s.readReg r), none)
  | some p => (none, some p)

/-- An operand slot that the opcode does not use: neither value nor tag (R28, R120). -/
def unusedSlot : Slot := (none, none)

/-- The operand slots of a station, filled at Issue (R30). -/
def Station.withSlots (S : Station) (j k : Slot) : Station :=
  { S with vj := j.1, qj := j.2, vk := k.1, qk := k.2 }

/-- The common station writes of a successful issue (R121). -/
def Station.occupied (S : Station) (s : State) (i : Instr) : Station :=
  { S with
    busy := true
    op := some i.opcode
    instr := some i
    originalPC := s.pc
    cyclesPassed := 0
    result := none
    addrReady := false
    seq := s.nextSeq }

/-- Both operands are ready: no slot waits on a tag (R29). -/
def Station.ready (S : Station) : Bool := S.qj.isNone && S.qk.isNone

/-- "Set the Register-Status entry to this station's name", except for R0, which never appears as a rename target
(R21, R121). -/
def renamed (dest : Option RegIdx) (k : Nat) (t : RegStat) : RegStat :=
  match dest with
  | some r => if r = 0 then t else t.set r (some k)
  | none => t

end Sys2Proof.Machine
end

