-- ==== Sys2Proof/Machine/Flags.lean ====
section
/-! DEFINITION. The pending flags, the speculation they mark, and the recovery state machine (10_state.md R34 to R37;
43_control_instructions.md R190, R191, R198). The block has no condition codes (R33): these flags are all it has. -/

namespace Sys2Proof.Machine

/-- The issue of a BEQ into station `k`: the branch is pending, its station and a copy of the register-status table
are kept, and it is counted (R191). -/
def State.openBranch (s : State) (k : Nat) : State :=
  { s with
    branchesIssued := s.branchesIssued + 1
    branchPending := true
    pendingBranch := some k
    checkpoint := some s.regStat }

/-- The resolution of the pending branch (R192, R193). -/
def State.closeBranch (s : State) : State :=
  { s with branchPending := false, pendingBranch := none, checkpoint := none }

/-- The issue of a CALL or RET (R199, R202). -/
def State.openJump (s : State) : State := { s with jumpPending := true }

/-- The completion of a CALL or RET at its target (R199, R202). -/
def State.closeJump (s : State) (target : Int) : State := { s with pc := target, jumpPending := false }

/-- A station issued after the pending branch (R190). -/
def speculative (s : State) (S : Station) : Bool :=
  s.branchPending &&
    match s.pendingBranch with
    | none => false
    | some b =>
      match s.stations[b]? with
      | none => false
      | some B => decide (B.seq < S.seq)

/-- Whether an unresolved branch blocks the station with index `k` in Execute (R190). -/
def blocked (s : State) (k : Nat) (S : Station) : Bool :=
  match s.params.executeBranchBlock with
  | .speculativeOnly => speculative s S
  | .allButBranch => s.branchPending && decide (s.pendingBranch ≠ some k)

/-- The states of the recovery state machine (R198). -/
inductive Recovery where
  | idle | spec | jump | specJump
deriving DecidableEq, Repr

/-- The recovery state: the pair of pending flags (R198). -/
def State.recovery (s : State) : Recovery :=
  match s.branchPending, s.jumpPending with
  | false, false => .idle
  | true, false => .spec
  | false, true => .jump
  | true, true => .specJump

end Sys2Proof.Machine
end

