-- ==== Sys2Proof/Machine/Issue.lean ====
section
/-! DEFINITION. The issue of one decoded instruction, shared by all nine (40_pipeline.md R118 to R125): allocation, the
common station writes, renaming, the PC, the counters and the Issued log. -/

namespace Sys2Proof.Machine

/-- The Issued entry of the instruction that issues into station `k` (R124). -/
def State.issueEntry (s : State) (i : Instr) (k : Nat) : Entry :=
  { seq := s.nextSeq, instr := i, cycle := s.cycle, station := k }

/-- The instruction enters station `k` as `S` (R121 to R124): the destination is renamed, PC advances by one,
`issuedAfterBranch` counts it when a branch was pending before its own issue, and the Issued log takes its entry. -/
def State.enter (s : State) (i : Instr) (k : Nat) (S : Station) (wasPending : Bool) : State :=
  { s with
    stations := s.stations.set k S
    regStat := renamed (destOf i) k s.regStat
    pc := s.pc + 1
    issuedAfterBranch := if wasPending then s.issuedAfterBranch + 1 else s.issuedAfterBranch
    issued := s.issued ++ [s.issueEntry i k]
    nextSeq := s.nextSeq + 1 }

/-- Allocation and issue (R118, R121 to R125). `fill` is the instruction's own writes to its station, `flag` its own
writes to the flags and counters. When no station of the kind is free, Issue stalls and nothing changes. -/
def issueWith (i : Instr) (fill : Station → Station) (flag : Nat → State → State) (s : State) :
    Result State Fault Refusal :=
  match firstFree (unitKind i.opcode) s.stations with
  | none => .next s
  | some (k, S) => .next ((flag k s).enter i k (fill (S.occupied s i)) s.branchPending)

/-- An instruction that writes no flag at its issue. -/
def noFlag (_ : Nat) (s : State) : State := s

/-- The issue of ADD, SUB, NOR and MUL: rB to the j slot, rC to the k slot (R171 to R174). -/
def issueAlu (i : Instr) (rB rC : RegIdx) (s : State) : Result State Fault Refusal :=
  issueWith i (fun S => S.withSlots (capture s rB) (capture s rC)) noFlag s

end Sys2Proof.Machine
end

