-- ==== Sys2Proof/Machine/Alu.lean ====
section
/-! DEFINITION. ADD, SUB, NOR and MUL (42_alu_instructions.md). -/

namespace Sys2Proof.Machine

/-! ## The results (R170) -/

/-- `alu(ADD, a, b)`. -/
def aluAdd (a b : Word) : Word := bv16 (unsigned a + unsigned b)

/-- `alu(SUB, a, b)`: integer subtraction, then reduced. -/
def aluSub (a b : Word) : Word := bv16 (unsigned a - unsigned b)

/-- `alu(NOR, a, b)`: bitwise. -/
def aluNor (a b : Word) : Word := ~~~(a ||| b)

/-- `alu(MUL, a, b)`: the low half of the product. -/
def aluMul (a b : Word) : Word := bv16 (unsigned a * unsigned b)

/-- ALU completion (R175): at `cyclesPassed = cyclesNeeded`, once, the result is computed and an Executed entry is
recorded; the station stays busy, awaiting the CDB. -/
def completeAlu (i : Instr) (f : Word → Word → Word) (k : Nat) (s : State) : Result State Fault Refusal :=
  onStation k s fun S =>
    if S.result = none ∧ S.cyclesPassed = S.desc.cyclesNeeded then
      match S.vj, S.vk with
      | some x, some y => .next ((s.setStation k { S with result := some (f x y) }).logExecuted k S i)
      | _, _ => .refused (.incoherentStation k)
    else .next s

/-! ## The instructions -/

/-- ADD rA,rB,rC: rA ← rB + rC (R171). -/
def execAdd (rA rB rC : RegIdx) (s : State) : Result State Fault Refusal :=
  match s.turn with
  | .issue => issueAlu (.add rA rB rC) rB rC s
  | .execute k => completeAlu (.add rA rB rC) aluAdd k s

/-- SUB rA,rB,rC: rA ← rB - rC (R172). -/
def execSub (rA rB rC : RegIdx) (s : State) : Result State Fault Refusal :=
  match s.turn with
  | .issue => issueAlu (.sub rA rB rC) rB rC s
  | .execute k => completeAlu (.sub rA rB rC) aluSub k s

/-- NOR rA,rB,rC: rA ← ~(rB | rC) (R173). -/
def execNor (rA rB rC : RegIdx) (s : State) : Result State Fault Refusal :=
  match s.turn with
  | .issue => issueAlu (.nor rA rB rC) rB rC s
  | .execute k => completeAlu (.nor rA rB rC) aluNor k s

/-- MUL rA,rB,rC: rA ← (rB × rC) mod 2^16 (R174). -/
def execMul (rA rB rC : RegIdx) (s : State) : Result State Fault Refusal :=
  match s.turn with
  | .issue => issueAlu (.mul rA rB rC) rB rC s
  | .execute k => completeAlu (.mul rA rB rC) aluMul k s

end Sys2Proof.Machine
end

