-- ==== Sys2Proof/Machine/Control.lean ====
section
/-! DEFINITION. BEQ with branch squash and recovery, CALL and RET (43_control_instructions.md). -/

namespace Sys2Proof.Machine

/-! ## Squash and recovery (R192 to R197) -/

/-- The speculative stations of a taken BEQ held by `B`: busy and issued after it (R195). -/
def issuedAfter (B : Station) (T : Station) : Bool := T.busy && decide (B.seq < T.seq)

/-- Every station issued after the BEQ is released (R195). -/
def squashed (B : Station) (stations : List Station) : List Station :=
  stations.map fun T => if issuedAfter B T then Station.released T.desc else T

/-- The Issued log without the entries issued after the BEQ (R194). -/
def truncatedIssued (B : Station) (issued : List Entry) : List Entry :=
  issued.filter fun e => decide (e.seq ≤ B.seq)

/-- Whether a register-status entry names a squashed station (R196). -/
def namesSquashed (s : State) (B : Station) (q : Option Nat) : Bool :=
  match q with
  | none => false
  | some k =>
    match s.stations[k]? with
    | none => false
    | some T => issuedAfter B T

/-- The lowest register whose status entry names a squashed station (R196). -/
def lowestStale (s : State) (B : Station) : Option RegIdx :=
  allRegs.find? fun r => namesSquashed s B (s.status r)

/-- `squashRegStat(Q)` (R196): the register-status table after the squash, by policy. -/
def squashRegStat (s : State) (k : Nat) (B : Station) (f : RegStat → Result State Fault Refusal) :
    Result State Fault Refusal :=
  match s.params.squashRegStatPolicy with
  | .restore =>
    match s.checkpoint with
    | some c => f c
    | none => .refused (.incoherentStation k)
  | .keepStale => f s.regStat
  | .fault =>
    match lowestStale s B with
    | some r => raise (.squashStaleTag r)
    | none => f s.regStat

/-- The target of a taken BEQ: `A + originalPC + 1`, an integer with no range check (R192). -/
def branchTarget (B : Station) : Int := B.a + B.originalPC + 1

/-- Taken resolution of the BEQ that station `k` holds as `B` (R192). -/
def branchTaken (s : State) (k : Nat) (B : Station) : Result State Fault Refusal :=
  squashRegStat s k B fun table =>
    .next
      { s.closeBranch with
        pc := branchTarget B
        mispredictions := s.mispredictions + 1
        issued := truncatedIssued B s.issued
        issuedAfterBranch := 0
        regStat := table
        stations := squashed B s.stations
        jumpPending := false }

/-- Not-taken resolution (R193): the PC goes back to the BEQ's successor under `rewind`; no station is squashed. -/
def branchNotTaken (s : State) (B : Station) : State :=
  match s.params.notTakenPcPolicy with
  | .rewind => { s.closeBranch with pc := B.originalPC + 1 }
  | .keep => s.closeBranch

/-- The Execute part of BEQ (R191): both log entries, the resolution, and the release "either way". -/
def completeBeq (i : Instr) (k : Nat) (s : State) : Result State Fault Refusal :=
  onStation k s fun B =>
    if B.cyclesPassed = B.desc.cyclesNeeded then
      match B.vj, B.vk with
      | some x, some y =>
        let s1 := s.logCompleted k B i
        if x = y then andThen (branchTaken s1 k B) fun t => .next (t.release k B)
        else .next ((branchNotTaken s1 B).release k B)
      | _, _ => .refused (.incoherentStation k)
    else .next s

/-- The Execute part of CALL (R199, R200): R1 takes the link directly, past the CDB and the register-status table. -/
def completeCall (i : Instr) (k : Nat) (s : State) : Result State Fault Refusal :=
  onStation k s fun S =>
    if S.cyclesPassed = S.desc.cyclesNeeded then
      .next ((((s.writeReg 1 (bv16 (S.originalPC + 1))).closeJump S.a).logCompleted k S i).release k S)
    else .next s

/-- The Execute part of RET (R202). -/
def completeRet (i : Instr) (k : Nat) (s : State) : Result State Fault Refusal :=
  onStation k s fun S =>
    if S.cyclesPassed = S.desc.cyclesNeeded then
      .next (((s.closeJump S.a).logCompleted k S i).release k S)
    else .next s

/-- The target of a CALL at its issue, by `callTargetMode` (R199). -/
def callTarget (s : State) (label : Int) : Int :=
  match s.params.callTargetMode with
  | .absolute => label
  | .pcRelative => s.pc + 1 + label

/-! ## The instructions -/

/-- BEQ rA,rB,offset: if rA = rB then PC ← originalPC + 1 + offset (R191). While a branch is pending, another BEQ stalls
Issue or faults, by `nestedBranchPolicy`. -/
def execBeq (rA rB : RegIdx) (offset : Int) (s : State) : Result State Fault Refusal :=
  match s.turn with
  | .issue =>
    if s.branchPending then
      match s.params.nestedBranchPolicy with
      | .stall => .next s
      | .fault => raise (.nestedBranch s.pc)
    else
      issueWith (.beq rA rB offset)
        (fun S => { S.withSlots (capture s rA) (capture s rB) with a := offset }) (fun k t => t.openBranch k) s
  | .execute k => completeBeq (.beq rA rB offset) k s

/-- CALL label: R1 ← originalPC + 1; PC ← target(label) (R199). -/
def execCall (label : Int) (s : State) : Result State Fault Refusal :=
  match s.turn with
  | .issue =>
    issueWith (.call label)
      (fun S => { S.withSlots unusedSlot unusedSlot with a := callTarget s label }) (fun _ t => t.openJump) s
  | .execute k => completeCall (.call label) k s

/-- RET: PC ← R1 (R202), R1 read from the register file at Issue whatever its status entry (R203), unless
`retLinkPolicy` makes a pending writer of R1 a fault. -/
def execRet (s : State) : Result State Fault Refusal :=
  match s.turn with
  | .issue =>
    if s.params.retLinkPolicy = .faultIfPending ∧ s.status 1 ≠ none then raise (.retLinkPending s.pc)
    else
      issueWith .ret
        (fun S => { S.withSlots unusedSlot unusedSlot with a := unsigned (s.readReg 1) }) (fun _ t => t.openJump) s
  | .execute k => completeRet .ret k s

end Sys2Proof.Machine
end

