-- ==== Sys2Proof/Machine/LoadStore.lean ====
section
/-! DEFINITION. LOAD and STORE: the address phase, the memory-disambiguation hazard and the completions
(41_memory_instructions.md). -/

namespace Sys2Proof.Machine

/-! ## Shared machinery (R150, R151) -/

/-- The address-compute threshold: `addrCycles` when configured, else `cyclesNeeded` (R150). -/
def addrThreshold (S : Station) : Nat := S.desc.addrCycles.getD S.desc.cyclesNeeded

/-- Whether the address phase runs at this visit: it has not run yet and its threshold is reached (R150). -/
def addressDue (S : Station) : Bool := !S.addrReady && decide (addrThreshold S ≤ S.cyclesPassed)

/-- The effective address: unsigned base plus signed offset, an integer sum with no wrap (R150). -/
def effectiveAddress (base : Word) (offset : Int) : Int := unsigned base + offset

/-- The address phase of a LOAD or STORE (R150); none when the base is missing, which no run reaches (log entry 8). -/
def addressPhase (S : Station) : Option Station :=
  if addressDue S then
    match S.vj with
    | some base => some { S with a := effectiveAddress base S.a, addrReady := true }
    | none => none
  else some S

/-- Whether `T` is an older in-flight access of one of the kinds that may touch the address of `S`: an address not yet
computed counts as a conflict (R151). -/
def conflictsWith (S : Station) (kinds : List OpCode) (T : Station) : Bool :=
  T.busy && (kinds.any fun o => T.op == some o) && decide (T.seq < S.seq) && (!T.addrReady || T.a == S.a)

/-- `olderConflict(S, kinds)` (R151). A station is never older than itself. -/
def olderConflict (s : State) (S : Station) (kinds : List OpCode) : Bool :=
  s.stations.any (conflictsWith S kinds)

/-! ## Completions -/

/-- The Execute part of LOAD (R152, R153): the address phase; then, at `cyclesPassed = cyclesNeeded` and once, a stall
while an older STORE may write the address, else the read. -/
def completeLoad (i : Instr) (k : Nat) (s : State) : Result State Fault Refusal :=
  onStation k s fun S0 =>
    match addressPhase S0 with
    | none => .refused (.incoherentStation k)
    | some S =>
      let s1 := s.setStation k S
      if S.result = none ∧ S.cyclesPassed = S.desc.cyclesNeeded then
        if olderConflict s1 S [.store] then .next s1
        else
          match memRead s1.mem S.a with
          | .error f => raise f
          | .ok w => .next ((s1.setStation k { S with result := some w }).logExecuted k S i)
      else .next s1

/-- The Execute part of STORE (R155, R156): the address phase; then, at `cyclesPassed = cyclesNeeded`, a stall while an
older LOAD or STORE may access the address, else the write, both log entries and the release. -/
def completeStore (i : Instr) (k : Nat) (s : State) : Result State Fault Refusal :=
  onStation k s fun S0 =>
    match addressPhase S0 with
    | none => .refused (.incoherentStation k)
    | some S =>
      let s1 := s.setStation k S
      if S.cyclesPassed = S.desc.cyclesNeeded then
        if olderConflict s1 S [.load, .store] then .next s1
        else
          match S.vk with
          | none => .refused (.incoherentStation k)
          | some v =>
            match memWrite s1.mem S.a v with
            | .error f => raise f
            | .ok m => .next ((({ s1 with mem := m }).logCompleted k S i).release k S)
      else .next s1

/-! ## The instructions -/

/-- LOAD rA,offset(rB): rA ← Memory[rB + offset] (R153). -/
def execLoad (rA rB : RegIdx) (offset : Int) (s : State) : Result State Fault Refusal :=
  match s.turn with
  | .issue =>
    issueWith (.load rA rB offset)
      (fun S => { S.withSlots (capture s rB) unusedSlot with a := offset }) noFlag s
  | .execute k => completeLoad (.load rA rB offset) k s

/-- STORE rA,offset(rB): Memory[rB + offset] ← rA (R156). -/
def execStore (rA rB : RegIdx) (offset : Int) (s : State) : Result State Fault Refusal :=
  match s.turn with
  | .issue =>
    issueWith (.store rA rB offset)
      (fun S => { S.withSlots (capture s rB) (capture s rA) with a := offset }) noFlag s
  | .execute k => completeStore (.store rA rB offset) k s

end Sys2Proof.Machine
end

