-- ==== Sys2Proof/Machine/Dispatch.lean ====
section
/-! DEFINITION. One arm per instruction. An arm's meaning holds both parts of the instruction's rule: its Issue part
(`perOpIssue` with the common issue of R125) and its Execute part on one station (`perOpExecute`, R126); `turn` says
which one the pipeline runs (log entry 1). -/

namespace Sys2Proof.Machine

-- The meaning of each instruction of spec/opcode_table.json.
def exec (i : Instr) (s : State) : Host.Outcome State Fault Refusal :=
  match i with
  | .load rA rB offset => Sys2Proof.Machine.execLoad rA rB offset s
  | .store rA rB offset => Sys2Proof.Machine.execStore rA rB offset s
  | .beq rA rB offset => Sys2Proof.Machine.execBeq rA rB offset s
  | .call label => Sys2Proof.Machine.execCall label s
  | .ret => Sys2Proof.Machine.execRet s
  | .add rA rB rC => Sys2Proof.Machine.execAdd rA rB rC s
  | .sub rA rB rC => Sys2Proof.Machine.execSub rA rB rC s
  | .nor rA rB rC => Sys2Proof.Machine.execNor rA rB rC s
  | .mul rA rB rC => Sys2Proof.Machine.execMul rA rB rC s

end Sys2Proof.Machine
end

