-- ==== Sys2Proof/Machine/Pipeline.lean ====
section
/-! DEFINITION. The four phases of a cycle (40_pipeline.md): Cycle-advance, Issue, Execute, Writeback with the common
data bus, and their sequence (R110). Every instruction's own behaviour is reached through `exec`. -/

namespace Sys2Proof.Machine

/-! ## Cycle-advance (R112) -/

/-- Whether a station counts this cycle: busy, both operands ready, and below `cyclesNeeded` or holding a result. -/
def Station.counts (S : Station) : Bool :=
  S.busy && S.ready && (decide (S.cyclesPassed < S.desc.cyclesNeeded) || S.result.isSome)

/-- One station at Cycle-advance: it reads its own fields only (R111). -/
def Station.advanced (S : Station) : Station :=
  if S.counts then { S with cyclesPassed := S.cyclesPassed + 1 } else S

/-- Cycle-advance (R112). -/
def cycleAdvance (s : State) : State := { s with stations := s.stations.map Station.advanced }

/-- The start of a step: `started` is set, the cycle counter advances, then Cycle-advance (R110). -/
def beginCycle (s : State) : State :=
  cycleAdvance { s with started := true, cycle := s.cycle + 1, turn := .issue }

/-! ## Issue (R114 to R117) -/

/-- What Issue finds at the PC. -/
inductive Fetched where
  | empty
  | instr (i : Instr)
  | fault (f : Fault)
deriving DecidableEq, Repr

/-- Fetch and decode: bounds (R115), the empty word (R116), then decode (R117). -/
def fetch (s : State) : Fetched :=
  match memRead s.mem s.pc with
  | .error f => .fault f
  | .ok w =>
    if w = 0 then .empty
    else
      match decode s.params.opcodes w with
      | .invalid => .fault (.illegalInstruction w s.pc)
      | .valid i => .instr i

/-- The Issue phase (R125): skipped while a jump is pending (R114), a stall on the empty word. -/
def issuePhase (s : State) : Result State Fault Refusal :=
  if s.jumpPending then .next s
  else
    match fetch s with
    | .empty => .next s
    | .fault f => raise f
    | .instr i => exec i s

/-! ## Execute (R126) -/

/-- The busy stations with their sequence numbers, in configuration order from index `k`. -/
def busyFrom : Nat → List Station → List (Nat × Nat)
  | _, [] => []
  | k, S :: rest => if S.busy then (S.seq, k) :: busyFrom (k + 1) rest else busyFrom (k + 1) rest

/-- Insertion by sequence number, ascending. -/
def insertBySeq (x : Nat × Nat) : List (Nat × Nat) → List (Nat × Nat)
  | [] => [x]
  | y :: ys => if x.1 ≤ y.1 then x :: y :: ys else y :: insertBySeq x ys

/-- Sorted by sequence number, ascending. Equal numbers, which no run reaches, keep configuration order (log
entry 15). -/
def sortBySeq : List (Nat × Nat) → List (Nat × Nat)
  | [] => []
  | x :: xs => insertBySeq x (sortBySeq xs)

/-- The list `L` of R126: the stations busy at the start of the phase, oldest first. -/
def visitOrder (s : State) : List (Nat × Nat) := sortBySeq (busyFrom 0 s.stations)

/-- The state with `exec`'s turn set. -/
def State.withTurn (s : State) (t : Turn) : State := { s with turn := t }

/-- The visit of one station (R126): skipped when it was released or squashed earlier in the phase, when a branch
blocks it, or when an operand is not ready; else the Execute part of the instruction it holds. -/
def visit (q : Nat) (k : Nat) (s : State) : Result State Fault Refusal :=
  match s.stations[k]? with
  | none => .next s
  | some S =>
    if !S.busy || S.seq != q then .next s
    else if blocked s k S then .next s
    else if !S.ready then .next s
    else
      match S.instr with
      | none => .refused (.incoherentStation k)
      | some i => andThen (exec i (s.withTurn (.execute k))) fun t => .next (t.withTurn .issue)

/-- The visits in order, each reading the state that the ones before it left (R126). -/
def visitAll : List (Nat × Nat) → State → Result State Fault Refusal
  | [], s => .next s
  | (q, k) :: rest, s => andThen (visit q k s) (visitAll rest)

/-- The Execute phase (R126). -/
def executePhase (s : State) : Result State Fault Refusal := visitAll (visitOrder s) s

/-! ## Writeback and the CDB (R130 to R136) -/

/-- What the common data bus carries in one cycle (R130). -/
structure Broadcast where
  entry : Entry
  value : Word
deriving DecidableEq, Repr

/-- The value an Issued entry puts up for broadcast, if it matches (R132): its station is busy, still holds the entry's
instruction, has a result and has exceeded `cyclesNeeded`. -/
def ready? (s : State) (e : Entry) : Option Word :=
  match s.stations[e.station]? with
  | none => none
  | some S =>
    if S.busy ∧ S.seq = e.seq ∧ S.desc.cyclesNeeded < S.cyclesPassed then S.result else none

/-- The first matching entry of a log wins (R132). -/
def firstReady (s : State) : List Entry → Option Broadcast
  | [] => none
  | e :: rest =>
    match ready? s e with
    | some v => some { entry := e, value := v }
    | none => firstReady s rest

/-- The common data bus of a Writeback phase that starts in this state: at most one producer and value (R130, R134),
none while a branch is pending (R131). -/
def cdb (s : State) : Option Broadcast := if s.branchPending then none else firstReady s s.issued

/-- The register file after the broadcast of `v` from station `k` (R133). -/
def broadcastRegs (s : State) (k : Nat) (v : Word) : Bank Word :=
  Bank.ofFn fun r => if s.status r = some k ∧ r ≠ 0 then v else s.reg.get r

/-- The register-status table after the broadcast from station `k` (R133). -/
def broadcastStatus (s : State) (k : Nat) : RegStat :=
  Bank.ofFn fun r => if s.status r = some k then none else s.status r

/-- One operand slot at the broadcast of `v` from station `k` (R134). -/
def wokenSlot (k : Nat) (v : Word) (slot : Slot) : Slot :=
  if slot.2 = some k then (some v, none) else slot

/-- A busy station at the broadcast of `v` from station `k` (R134). -/
def Station.woken (k : Nat) (v : Word) (T : Station) : Station :=
  if T.busy then T.withSlots (wokenSlot k v (T.vj, T.qj)) (wokenSlot k v (T.vk, T.qk)) else T

/-- The producer released (R136); no station with this index leaves the list as it is. -/
def releasedAt (k : Nat) (stations : List Station) : List Station :=
  match stations[k]? with
  | some S => stations.set k (Station.released S.desc)
  | none => stations

/-- The state after one broadcast (R135): registers, wake-up, the WrittenBack entry, the release of the producer. -/
def State.broadcast (s : State) (b : Broadcast) : State :=
  { s with
    reg := broadcastRegs s b.entry.station b.value
    regStat := broadcastStatus s b.entry.station
    stations := releasedAt b.entry.station (s.stations.map (Station.woken b.entry.station b.value))
    writtenBack := s.writtenBack ++ [{ b.entry with cycle := s.cycle }] }

/-- The Writeback phase (R135): the broadcast that the bus carries, or nothing. -/
def writeback (s : State) : State :=
  match cdb s with
  | none => s
  | some b => s.broadcast b

/-! ## The cycle (R110) -/

/-- Execute, then Writeback. -/
def finishCycle (s : State) : Result State Fault Refusal := andThen (executePhase s) fun t => .next (writeback t)

/-- One cycle: Cycle-advance, Issue, Execute, Writeback (R110). -/
def runCycle (s : State) : Result State Fault Refusal := andThen (issuePhase (beginCycle s)) finishCycle

end Sys2Proof.Machine
end

