-- ==== Sys2Proof/Machine/Configure.lean ====
section
/-! DEFINITION. The host side of the block (70_reset_and_hazards.md): the configuration operations before the first step
(R241, R242, R245), the snapshots (R244), and the end of a run (R247). -/

namespace Sys2Proof.Machine

/-! ## Station descriptors (R241) -/

/-- The first constraint of R241 that a descriptor breaks; the order is the rule's (log entry 11). -/
def specProblem (stations : List Station) (d : StationSpec) : Option ConfigReason :=
  if d.name = "" then some .emptyName
  else if stations.any (fun S => S.desc.name == d.name) then some .duplicateName
  else if d.cyclesNeeded < 1 then some .latencyBelowOne
  else if d.kind.hasSubLatencies = false ∧ (d.addrCycles.isSome ∨ d.memCycles.isSome) then
    some .subLatencyOnWrongKind
  else if d.addrCycles.any (fun n => decide (n < 1) || decide (d.cyclesNeeded < n)) then some .addrCyclesOutOfRange
  else if d.memCycles.any (fun n => decide (n < 0)) then some .memCyclesNegative
  else none

/-- The descriptor that a station keeps, once accepted. -/
def acceptedDesc (d : StationSpec) : StationDesc where
  name := d.name
  kind := d.kind
  cyclesNeeded := d.cyclesNeeded.toNat
  addrCycles := d.addrCycles.map Int.toNat
  memCycles := d.memCycles.map Int.toNat

/-! ## Checks and block writes (R242) -/

/-- The first address of a block of `n` words at `a` that lies outside [0,65535], if the rule's check `a >= 0` and
`a + n - 1 <= 65535` fails (R220, R242; log entry 18). -/
def blockProblem (a : Int) (n : Nat) : Option Int :=
  if 0 ≤ a ∧ a + n - 1 ≤ 65535 then none else if a < 0 then some a else some (max a 65536)

/-- The accepted range of data words and register values (R242). -/
def valueInRange (v : Int) : Bool := decide (-32768 ≤ v) && decide (v ≤ 65535)

/-- Every record of a bulk load encoded, or the error of the first that fails (R242, R245). -/
def encodeAll (p : Params) : List Record → Except ValidationError (List Word)
  | [] => .ok []
  | r :: rest => do
    let w ← encodeRecord p r
    let ws ← encodeAll p rest
    .ok (w :: ws)

/-- Every data word reduced modulo 2^16, or the error of the first out of range (R242, R245). -/
def dataWords : List Int → Except ValidationError (List Word)
  | [] => .ok []
  | v :: rest => do
    let w ← if valueInRange v then .ok (bv16 v) else .error (.rangeError .dataWord v)
    let ws ← dataWords rest
    .ok (w :: ws)

/-- Words stored at rising addresses. -/
def Memory.setBlock (m : Memory) (a : Nat) : List Word → Memory
  | [] => m
  | w :: ws => Memory.setBlock (m.set a w) (a + 1) ws

/-! ## The configuration operations (R242) -/

/-- The configuration operations of R242. -/
inductive ConfigOp where
  | addStation (d : StationSpec)
  | loadInstruction (a : Int) (r : Record)
  | bulkLoad (a : Int) (rs : List Record)
  | loadData (a : Int) (vs : List Int)
  | setPC (a : Int)
  | setRegister (r v : Int)
deriving DecidableEq, Repr

/-- `addStation(d)`: the new station is released. -/
def addStation (d : StationSpec) (s : State) : Except ValidationError State :=
  match specProblem s.stations d with
  | some reason => .error (.configError reason)
  | none => .ok { s with stations := s.stations ++ [Station.released (acceptedDesc d)] }

/-- `loadInstruction(a, i)`: auto-encodes it. -/
def loadInstruction (a : Int) (r : Record) (s : State) : Except ValidationError State :=
  if inBounds a then do
    let w ← encodeRecord s.params r
    .ok { s with mem := s.mem.set a.toNat w }
  else .error (.boundsError a)

/-- `bulkLoad(a, [i0..in-1])`: every word is checked before any is written (R245). -/
def bulkLoad (a : Int) (rs : List Record) (s : State) : Except ValidationError State :=
  match blockProblem a rs.length with
  | some b => .error (.boundsError b)
  | none => do
    let ws ← encodeAll s.params rs
    .ok { s with mem := s.mem.setBlock a.toNat ws }

/-- `loadData(a, [v0..vn-1])`: every word is checked before any is written (R245). -/
def loadData (a : Int) (vs : List Int) (s : State) : Except ValidationError State :=
  match blockProblem a vs.length with
  | some b => .error (.boundsError b)
  | none => do
    let ws ← dataWords vs
    .ok { s with mem := s.mem.setBlock a.toNat ws }

/-- `setPC(a)`. -/
def setPC (a : Int) (s : State) : Except ValidationError State :=
  if inBounds a then .ok { s with pc := a } else .error (.boundsError a)

/-- `setRegister(r, v)`: a write to R0 is discarded. -/
def setRegister (r v : Int) (s : State) : Except ValidationError State :=
  if 0 ≤ r ∧ r ≤ 7 then
    if valueInRange v then .ok (s.writeReg (Fin.ofNat 8 r.toNat) (bv16 v)) else .error (.rangeError .registerValue v)
  else .error (.rangeError .register r)

/-- A configuration operation: refused after the first step; one that raises an error has no effect (R242, R245). -/
def configure (op : ConfigOp) (s : State) : Except ValidationError State :=
  if s.started then .error (.configError .afterStart)
  else
    match op with
    | .addStation d => addStation d s
    | .loadInstruction a r => loadInstruction a r s
    | .bulkLoad a rs => bulkLoad a rs s
    | .loadData a vs => loadData a vs s
    | .setPC a => setPC a s
    | .setRegister r v => setRegister r v s

/-- What the engine holds after a configuration operation: unchanged when it raised an error (R245). -/
def configured (s : State) (op : ConfigOp) : State :=
  match configure op s with
  | .ok t => t
  | .error _ => s

/-! ## Snapshots (R244) -/

/-- What a snapshot shows (R244). DEDUCED: `pendingBranch`, `checkpoint`, `nextSeq` and `started` are not in R244's own
list, and are shown because 10_state.md R33 makes every field of R34 to R42 readable through snapshots (log entry 20).
-/
structure Snapshot where
  mem               : Memory
  registers         : Bank Word
  regStat           : RegStat
  stations          : List Station
  pc                : Int
  branchPending     : Bool
  jumpPending       : Bool
  pendingBranch     : Option Nat
  checkpoint        : Option RegStat
  nextSeq           : Nat
  issued            : List Entry
  executed          : List Entry
  writtenBack       : List Entry
  cycle             : Nat
  issuedAfterBranch : Nat
  branchesIssued    : Nat
  mispredictions    : Nat
  fault             : Option Fault
  started           : Bool
deriving DecidableEq, Repr

/-- A snapshot; taking one changes nothing (R244). Registers are shown as they read (R21). -/
def State.snapshot (s : State) : Snapshot where
  mem := s.mem
  registers := Bank.ofFn s.readReg
  regStat := s.regStat
  stations := s.stations
  pc := s.pc
  branchPending := s.branchPending
  jumpPending := s.jumpPending
  pendingBranch := s.pendingBranch
  checkpoint := s.checkpoint
  nextSeq := s.nextSeq
  issued := s.issued
  executed := s.executed
  writtenBack := s.writtenBack
  cycle := s.cycle
  issuedAfterBranch := s.issuedAfterBranch
  branchesIssued := s.branchesIssued
  mispredictions := s.mispredictions
  fault := s.fault
  started := s.started

/-! ## End of run (R247) -/

/-- `quiescent(E)`: no station busy and no flag pending (R247). -/
def quiescent (s : State) : Bool := s.stations.all (fun S => !S.busy) && !s.branchPending && !s.jumpPending

/-- `halted(E)`: quiescent, with the zero word at a PC inside memory (R247). -/
def halted (s : State) : Bool := quiescent s && inBounds s.pc && s.mem.get s.pc.toNat == 0

/-! ## Placing an instruction where the next step fetches it -/

/-- A state with a free station of the kind: one of latency 1 is added when there is none, as `addStation` would
(log entry 9). -/
def State.withFreeStation (s : State) (kind : UnitKind) : State :=
  match firstFree kind s.stations with
  | some _ => s
  | none =>
    { s with
      stations := s.stations ++
        [Station.released { name := "Fetch" ++ toString s.stations.length, kind := kind, cyclesNeeded := 1 }] }

/-- The word placed at the PC, with what the very next step needs in order to issue it: the PC inside memory, no
pending jump, no fault, a free station of its kind, and for a BEQ no pending branch (log entry 9). From reset this
places the word and adds one station. -/
def State.placeWord (s : State) (word : Word) : State :=
  let pc := if inBounds s.pc then s.pc else 0
  let t := { s with pc := pc, mem := s.mem.set pc.toNat word, jumpPending := false, fault := none, turn := .issue }
  match decode s.params.opcodes word with
  | .invalid => t
  | .valid (.beq _ _ _) => t.closeBranch.withFreeStation .beq
  | .valid i => t.withFreeStation (unitKind i.opcode)

end Sys2Proof.Machine
end

