-- ==== Sys2Proof/Machine/Step.lean ====
section
/-! DEFINITION. `step`: one cycle of the engine (40_pipeline.md R110). -/

namespace Sys2Proof.Machine

/-- One call of `step()`, defined only while no fault is recorded (R41, R110). -/
def step (s : State) : Host.Outcome State Fault Refusal :=
  match s.fault with
  | some r => .refused (.engineFaulted r)
  | none => runCycle s

/-- The instruction of an opcode-table word placed where the next step fetches (R80: one 16-bit word). -/
def State.withFetchWord (s : State) (nbits w : Nat) : State := s.placeWord (BitVec.ofNat 16 (w % 2 ^ nbits))

end Sys2Proof.Machine
end

