-- ==== Sys2Proof/Safety.lean ====
section
/-! DEFINITION. What counts as a safe run, in the terms the claims use: runs of several steps, the invariants of
10_state.md R43 and of the rules they restate, and the words the statements share. -/

namespace Sys2Proof.Machine

/-! ## Runs -/

/-- `n` steps in a row, stopping at the first fault or refusal. -/
def stepN : Nat → State → Result State Fault Refusal
  | 0, s => .next s
  | n + 1, s => andThen (step s) (stepN n)

/-! ## Words the statements share -/

/-- The fields of an ADD, SUB, NOR or MUL (R82). -/
def aluFields : Instr → Option (RegIdx × RegIdx × RegIdx)
  | .add rA rB rC | .sub rA rB rC | .nor rA rB rC | .mul rA rB rC => some (rA, rB, rC)
  | .load _ _ _ | .store _ _ _ | .beq _ _ _ | .call _ | .ret => none

/-- The result of an ADD, SUB, NOR or MUL in 16-bit arithmetic (R170). -/
def aluResult (i : Instr) (x y : Word) : Word :=
  match i with
  | .add _ _ _ => x + y
  | .sub _ _ _ => x - y
  | .nor _ _ _ => ~~~(x ||| y)
  | .mul _ _ _ => x * y
  | .load _ _ _ | .store _ _ _ | .beq _ _ _ | .call _ | .ret => 0

/-- The instruction is a CALL or a RET. -/
def isJump : OpCode → Bool
  | .call | .ret => true
  | .load | .store | .beq | .add | .sub | .nor | .mul => false

/-- The address a LOAD or STORE accesses when it completes at this visit: the one its address phase computed earlier,
or the one that this visit's address phase computes (R150). -/
def accessAddress (S : Station) (base : Word) : Int :=
  if addressDue S then effectiveAddress base S.a else S.a

/-- A station of a LOAD or STORE once its address phase has run at this visit (R150). -/
def addressed (S : Station) (base : Word) : Station :=
  if addressDue S then { S with a := effectiveAddress base S.a, addrReady := true } else S

/-- The bits that a format ignores (R81, R89). -/
def ignoredMask : Format → Word
  | .rri => 0x0020
  | .rrr => 0x0007
  | .j => 0x0F80
  | .n => 0x0FFF

/-- The condition of R118 for allocating a station to an opcode's kind. -/
abbrev freeOf (kind : UnitKind) (S : Station) : Prop := S.desc.kind = kind ∧ S.busy = false

/-- Station `k` holds `S`. -/
abbrev State.holds (s : State) (k : Nat) (S : Station) : Prop := s.stations[k]? = some S

/-- An Issued entry is ready for broadcast with value `v` (R132). -/
def EntryReady (s : State) (e : Entry) (v : Word) : Prop :=
  ∃ S, s.holds e.station S ∧ S.busy = true ∧ S.seq = e.seq ∧ S.result = some v ∧ S.desc.cyclesNeeded < S.cyclesPassed

/-- A busy, older LOAD or STORE of one of the kinds whose address is that of `S` or not yet computed (R151). -/
def OlderConflict (s : State) (S : Station) (kinds : List OpCode) : Prop :=
  ∃ T ∈ s.stations, T.busy = true ∧ (∃ o ∈ kinds, T.op = some o) ∧ T.seq < S.seq ∧ (T.addrReady = false ∨ T.a = S.a)

/-- A lone instruction is about to run: the engine is quiescent and unfaulted, the word at the PC decodes to `i`, the
station `k` that Issue will allocate is configured as R241 asks, every register is committed, and the Issued log is
older than the next sequence number. -/
structure AboutToRun (s : State) (i : Instr) (k : Nat) (S : Station) : Prop where
  unfaulted : s.fault = none
  quiet     : quiescent s = true
  fetched   : fetch s = .instr i
  free      : firstFree (unitKind i.opcode) s.stations = some (k, S)
  desc      : S.desc.wf = true
  committed : ∀ r, s.status r = none
  logged    : ∀ e ∈ s.issued, e.seq < s.nextSeq

/-- The word after the PC is the empty word, so that Issue stalls behind the instruction at the PC (R116). -/
abbrev EmptyNext (s : State) : Prop := inBounds (s.pc + 1) = true ∧ s.mem.get (s.pc + 1).toNat = 0

/-- The entry of the instruction about to run, at a given cycle (R39). -/
def State.loneEntry (s : State) (i : Instr) (k : Nat) (cycle : Nat) : Entry :=
  { seq := s.nextSeq, instr := i, cycle := cycle, station := k }

/-! ## Invariants -/

/-- The memory is in canonical form: no two lists stand for one memory (R60). -/
abbrev MemoryCanonical (s : State) : Prop := s.mem.wf = true

/-- R0 is zero and is never a rename target, now or in the checkpoint (R21). -/
abbrev ZeroRegister (s : State) : Prop :=
  s.reg.get 0 = 0 ∧ s.status 0 = none ∧ ∀ c ∈ s.checkpoint, c.get 0 = none

/-- `pendingBranch` and `checkpoint` are present exactly when `branchPending` is true (R36). -/
abbrev BranchFlagsCoherent (s : State) : Prop :=
  s.pendingBranch.isSome = s.branchPending ∧ s.checkpoint.isSome = s.branchPending

/-- A free station has the released value (R27). -/
abbrev FreeStationsReleased (s : State) : Prop :=
  ∀ S ∈ s.stations, S.busy = false → S = Station.released S.desc

/-- A used slot holds a value or a tag and not both; an unused slot holds neither (R28). -/
def slotOk (used : Bool) (v : Option Word) (q : Option Nat) : Bool :=
  if used then v.isSome != q.isSome else v.isNone && q.isNone

/-- A busy station holds an instruction of its own kind under its own opcode, its slots are as R28 and R30 say, and
only a producer holds a result. -/
def Station.coherent (S : Station) : Bool :=
  !S.busy ||
    match S.instr with
    | none => false
    | some i =>
      S.op == some i.opcode && decide (S.desc.kind = unitKind i.opcode)
        && slotOk (usesJ i.opcode) S.vj S.qj && slotOk (usesK i.opcode) S.vk S.qk
        && (S.result.isNone || isProducer i.opcode)

/-- Every station is coherent (R26, R28, R30). -/
abbrev StationsCoherent (s : State) : Prop := ∀ S ∈ s.stations, S.coherent = true

/-- A busy station that holds no result has not counted past `cyclesNeeded` (R112, R128, invariant 4 of R43). -/
abbrev CountersBounded (s : State) : Prop :=
  ∀ S ∈ s.stations, S.busy = true → S.result = none → S.cyclesPassed ≤ S.desc.cyclesNeeded

/-- Sequence numbers are unique (R38): busy stations have distinct numbers below `nextSeq`, and the Issued log rises
strictly and stays below `nextSeq`. -/
structure SequenceUnique (s : State) : Prop where
  below    : ∀ S ∈ s.stations, S.busy = true → S.seq < s.nextSeq
  distinct : ∀ k k' S S', s.holds k S → s.holds k' S' → S.busy = true → S'.busy = true → S.seq = S'.seq → k = k'
  rising   : s.issued.Pairwise fun e e' => e.seq < e'.seq
  logBelow : ∀ e ∈ s.issued, e.seq < s.nextSeq

/-- Every instruction in flight has its Issued entry, on which Writeback arbitrates (R124, R132). -/
abbrev InFlightLogged (s : State) : Prop :=
  ∀ k S, s.holds k S → S.busy = true →
    ∃ e ∈ s.issued, e.seq = S.seq ∧ e.station = k ∧ S.instr = some e.instr

/-- The pending branch is the one BEQ in flight (R34, R36). -/
structure BranchInFlight (s : State) : Prop where
  held : ∀ b, s.pendingBranch = some b → ∃ B, s.holds b B ∧ B.busy = true ∧ B.op = some .beq
  only : ∀ k S, s.holds k S → S.busy = true → S.op = some .beq → s.pendingBranch = some k

/-- `jumpPending` is true exactly while one CALL or RET is in flight, and that one was issued after the pending branch
(R35, R197). -/
structure JumpInFlight (s : State) : Prop where
  held  : s.jumpPending = true → ∃ k S o, s.holds k S ∧ S.busy = true ∧ S.op = some o ∧ isJump o = true
  only  : ∀ k S o, s.holds k S → S.busy = true → S.op = some o → isJump o = true → s.jumpPending = true
  one   : ∀ k k' S S' o o', s.holds k S → s.holds k' S' → S.busy = true → S'.busy = true →
            S.op = some o → S'.op = some o' → isJump o = true → isJump o' = true → k = k'
  after : ∀ b B k S o, s.pendingBranch = some b → s.holds b B → s.holds k S → S.busy = true →
            S.op = some o → isJump o = true → B.seq < S.seq

/-- The engine's invariant: everything the recovery machine and the Execute visits rely on. -/
structure EngineCoherent (s : State) : Prop where
  stations : StationsCoherent s
  sequence : SequenceUnique s
  flags    : BranchFlagsCoherent s
  branch   : BranchInFlight s
  jump     : JumpInFlight s

/-- Every tag in flight names a busy producer that issued earlier; every register-status entry, now and in the
checkpoint, names the busy station whose instruction has that register as its destination (R23, R24, R195, R196). -/
structure TagsLive (s : State) : Prop where
  slots : ∀ k S p, s.holds k S → S.busy = true → S.qj = some p ∨ S.qk = some p →
            ∃ P i, s.holds p P ∧ P.busy = true ∧ P.instr = some i ∧ isProducer i.opcode = true ∧ P.seq < S.seq
  table : ∀ r p, s.status r = some p →
            ∃ P i, s.holds p P ∧ P.busy = true ∧ P.instr = some i ∧ destOf i = some r
  saved : ∀ c, s.checkpoint = some c → ∀ r p, c.get r = some p →
            ∃ P i, s.holds p P ∧ P.busy = true ∧ P.instr = some i ∧ destOf i = some r ∧
              ∀ b B, s.pendingBranch = some b → s.holds b B → P.seq < B.seq

/-- Every configured latency is at least one cycle (R241). -/
abbrev LatenciesPositive (s : State) : Prop := ∀ S ∈ s.stations, 1 ≤ S.desc.cyclesNeeded

/-- A step's change of the recovery state (R198): the transitions that one cycle can make, in the phase order Issue
then Execute. -/
def recoveryStep : Recovery → Recovery → Bool
  | .idle, .idle | .idle, .spec | .idle, .jump => true
  | .idle, .specJump => false
  | .spec, _ => true
  | .specJump, .specJump | .specJump, .idle | .specJump, .jump => true
  | .specJump, .spec => false
  | .jump, .jump | .jump, .idle => true
  | .jump, .spec | .jump, .specJump => false

/-- The pending branch waits on an operand whose producer is in flight (R249). -/
def BranchWaits (s : State) (b : Nat) (B : Station) : Prop :=
  s.pendingBranch = some b ∧ s.holds b B ∧ B.busy = true ∧ (B.qj.isSome = true ∨ B.qk.isSome = true)

end Sys2Proof.Machine
end

