-- ==== Sys2Proof/Certificates/Slice0/Obligations.lean ====
section
/-! DEFINITION. The statements for the provers, from the numbered rules of spec/. OBLIGATIONS.json lists them. -/

open Sys2Proof Sys2Proof.Machine

/-! ## The codec (30_encoding.md) -/

/-- R92: decode inverts encode on every valid instruction, encode inverts decode on canonical words, and decode
identifies distinct words; for every injective opcode map. -/
def Obligations.DecodeInvertsEncode : Prop :=
  ∀ m : OpcodeMap, m.wf = true →
    (∀ i : Instr, i.wf true = true → decode m (encode m i) = .valid i) ∧
    (∀ (w : Word) (i : Instr), decode m w = .valid i → ignoredBitsZero i.opcode.format w = true → encode m i = w) ∧
    (∃ w w' : Word, w ≠ w' ∧ decode m w ≠ .invalid ∧ decode m w = decode m w')

/-- R89: words that differ only in bits their format ignores decode to the same instruction, and are not illegal. -/
def Obligations.IgnoredBitsDoNotDecode : Prop :=
  (∀ (m : OpcodeMap) (o : OpCode) (w w' : Word), m.opOf (opcodeField w) = some o →
    w ||| ignoredMask o.format = w' ||| ignoredMask o.format →
    decode m w = decode m w' ∧ decode m w' ≠ .invalid) ∧
  decode OpcodeMap.default 0x4000 = .valid .ret ∧ decode OpcodeMap.default 0x4FFF = .valid .ret ∧
  decode OpcodeMap.default 0x03C0 = .valid (.load 1 7 0) ∧ decode OpcodeMap.default 0x03E0 = .valid (.load 1 7 0)

/-- R90: a word is invalid exactly when its opcode field is the code of no opcode (9..15 under the default map), and
Issue faults when it fetches one. Rests on the spec's own decisions D1 and D2 (R7, R90). -/
def Obligations.InvalidExactlyWithoutOpcode : Prop :=
  (∀ (m : OpcodeMap) (w : Word), decode m w = .invalid ↔ ∀ o, m.code o ≠ opcodeField w) ∧
  (∀ w : Word, decode OpcodeMap.default w = .invalid ↔ 0x9000 ≤ w.toNat) ∧
  (∀ (s : State) (w : Word), s.jumpPending = false → memRead s.mem s.pc = .ok w → w ≠ 0 →
    decode s.params.opcodes w = .invalid → issuePhase s = .fault (.illegalInstruction w s.pc))

/-- R91: the zero word decodes, encodes back without error, and never issues; 0x0020 decodes alike and does issue.
Rests on the spec's own decision D1, the opcode numbers (R7, R84). -/
def Obligations.ZeroWordNeverIssues : Prop :=
  decode OpcodeMap.default 0 = .valid (.load 0 0 0) ∧
  encodeRecord Params.default (Instr.load 0 0 0).record = .ok 0 ∧
  (∀ s : State, memRead s.mem s.pc = .ok 0 → issuePhase s = .next s) ∧
  (∀ s : State, s.params.opcodes = OpcodeMap.default → s.jumpPending = false → memRead s.mem s.pc = .ok 0x0020 →
    issuePhase s = exec (.load 0 0 0) s)

/-- R82, R85, R86: encode yields a word exactly on the records that spell a valid instruction, and the word is that
instruction's. Rests on the spec's own decisions D3, D4 and D5 (R82, R85, R87). -/
def Obligations.EncodeSucceedsExactlyOnValidRecords : Prop :=
  ∀ (p : Params) (r : Record) (w : Word),
    encodeRecord p r = .ok w ↔ ∃ i : Instr, i.record = r ∧ i.wf p.checkOffsetRange = true ∧ w = encode p.opcodes i

/-- R82, R86: which error a bad field raises, when the other fields are good. A record with a field missing or against
its format raises `FieldError` of such a field; a register outside 0..7, an offset outside -16..15 when offsets are
checked, and a label outside -64..63 raise `RangeError` with the field and its value. Rests on the spec's own decision
D4 (R82). -/
def Obligations.EncodeNamesTheRejectedField : Prop :=
  ∀ p : Params,
    (∀ r : Record,
      (∃ x ∈ [(FieldName.rA, r.rA), (.rB, r.rB), (.rC, r.rC), (.offset, r.offset), (.label, r.label)],
        r.opcode.format.carries x.1 ≠ x.2.isSome) →
      (∀ v : Int, r.rA = some v ∨ r.rB = some v ∨ r.rC = some v → 0 ≤ v ∧ v ≤ 7) →
      (∀ o, r.offset = some o → offsetInRange o = true) → (∀ l, r.label = some l → labelInRange l = true) →
      ∃ x ∈ [(FieldName.rA, r.rA), (.rB, r.rB), (.rC, r.rC), (.offset, r.offset), (.label, r.label)],
        r.opcode.format.carries x.1 ≠ x.2.isSome ∧ encodeRecord p r = .error (.fieldError x.1)) ∧
    (∀ (op : OpCode) (b c : RegIdx) (v : Int), op.format = .rrr → ¬ (0 ≤ v ∧ v ≤ 7) →
      encodeRecord p { opcode := op, rA := some v, rB := some b.val, rC := some c.val } = .error (.rangeError .rA v)) ∧
    (∀ (op : OpCode) (a c : RegIdx) (v : Int), op.format = .rrr → ¬ (0 ≤ v ∧ v ≤ 7) →
      encodeRecord p { opcode := op, rA := some a.val, rB := some v, rC := some c.val } = .error (.rangeError .rB v)) ∧
    (∀ (op : OpCode) (a b : RegIdx) (v : Int), op.format = .rrr → ¬ (0 ≤ v ∧ v ≤ 7) →
      encodeRecord p { opcode := op, rA := some a.val, rB := some b.val, rC := some v } = .error (.rangeError .rC v)) ∧
    (∀ (op : OpCode) (b : RegIdx) (v o : Int), op.format = .rri → offsetInRange o = true → ¬ (0 ≤ v ∧ v ≤ 7) →
      encodeRecord p { opcode := op, rA := some v, rB := some b.val, offset := some o } = .error (.rangeError .rA v)) ∧
    (∀ (op : OpCode) (a : RegIdx) (v o : Int), op.format = .rri → offsetInRange o = true → ¬ (0 ≤ v ∧ v ≤ 7) →
      encodeRecord p { opcode := op, rA := some a.val, rB := some v, offset := some o } = .error (.rangeError .rB v)) ∧
    (∀ (op : OpCode) (a b : RegIdx) (o : Int), op.format = .rri → p.checkOffsetRange = true → offsetInRange o = false →
      encodeRecord p { opcode := op, rA := some a.val, rB := some b.val, offset := some o }
        = .error (.rangeError .offset o)) ∧
    (∀ l : Int, labelInRange l = false →
      encodeRecord p { opcode := .call, label := some l } = .error (.rangeError .label l))

/-- R87: with `checkOffsetRange = false` any offset is stored modulo 32 and decodes to its 5-bit sign extension, while a
register outside 0..7 beside it, and a label outside -64..63, are rejected as before. Rests on the spec's own decision
D5 (R87). -/
def Obligations.UncheckedOffsetIsStoredModulo32 : Prop :=
  ∀ p : Params, p.checkOffsetRange = false → p.opcodes.wf = true →
    (∀ (mk : RegIdx → RegIdx → Int → Instr) (a b : RegIdx) (o : Int),
      mk = Instr.load ∨ mk = Instr.store ∨ mk = Instr.beq →
      ∃ w : Word, encodeRecord p (mk a b o).record = .ok w ∧ (w.extractLsb' 0 5).toNat = (o % 32).toNat ∧
        decode p.opcodes w = .valid (mk a b (o.bmod 32))) ∧
    (∀ (op : OpCode) (b : RegIdx) (v o : Int), op.format = .rri → ¬ (0 ≤ v ∧ v ≤ 7) →
      encodeRecord p { opcode := op, rA := some v, rB := some b.val, offset := some o } = .error (.rangeError .rA v) ∧
      encodeRecord p { opcode := op, rA := some b.val, rB := some v, offset := some o } = .error (.rangeError .rB v)) ∧
    (∀ l : Int, labelInRange l = false →
      encodeRecord p { opcode := .call, label := some l } = .error (.rangeError .label l)) ∧
    (∃ w : Word, encodeRecord p (Instr.beq 1 2 16).record = .ok w ∧ decode p.opcodes w = .valid (.beq 1 2 (-16)))

/-- R93: the words of the source's examples, written out from the encoding, decode to their instructions and are what
encode gives. The words are the spec's own derivation from R84 and R85, with its decision D1 for the opcode numbers.
-/
def Obligations.SourceExampleWordsDecode : Prop :=
  ∀ x ∈ [((0b0000001111000000 : Word), Instr.load 1 7 0), (0b0101010001011000, .add 2 1 3),
      (0b0101100101110000, .add 4 5 6), (0b1000101010100000, .mul 5 2 4), (0b0001101111000001, .store 5 7 1),
      (0b0010001010000010, .beq 1 2 2)],
    decode OpcodeMap.default x.1 = .valid x.2 ∧ encode OpcodeMap.default x.2 = x.1

/-! ## Issue (40_pipeline.md) -/

/-- R118: allocation picks the first free station of the kind in configuration order, and none exactly when there is
none. A station's identity as its index is the spec's own decision D21 (R25). -/
def Obligations.AllocationTakesTheFirstFreeStation : Prop :=
  ∀ (kind : UnitKind) (s : State),
    (∀ (k : Nat) (S : Station), firstFree kind s.stations = some (k, S) ↔
      s.holds k S ∧ freeOf kind S ∧ ∀ j T, j < k → s.holds j T → ¬ freeOf kind T) ∧
    (firstFree kind s.stations = none ↔ ∀ S ∈ s.stations, ¬ freeOf kind S)

/-- R120: a source operand is the register's value when its status entry is committed, else its producer's tag; R0
reads 0 (R21). A tag as a station's index is the spec's own decision D21 (R25). -/
def Obligations.CaptureTakesValueOrTag : Prop :=
  ∀ (s : State) (r : RegIdx),
    (s.status r = none → capture s r = (some (s.readReg r), none)) ∧
    (∀ p, s.status r = some p → capture s r = (none, some p)) ∧
    (s.status 0 = none → capture s 0 = (some 0, none))

/-- R121 to R124: what every issue writes, for all nine instructions: the station's common fields, the destination's
register-status entry (never that of R0), PC, `issuedAfterBranch`, the Issued log and `nextSeq`. -/
def Obligations.IssueOccupiesRenamesAndLogs : Prop :=
  ∀ (i : Instr) (s t : State), s.turn = .issue → exec i s = .next t → t ≠ s →
    ∃ k S T, firstFree (unitKind i.opcode) s.stations = some (k, S) ∧ t.holds k T ∧
      T.desc = S.desc ∧ T.busy = true ∧ T.op = some i.opcode ∧ T.instr = some i ∧ T.originalPC = s.pc ∧
      T.cyclesPassed = 0 ∧ T.result = none ∧ T.addrReady = false ∧ T.seq = s.nextSeq ∧
      (∀ r, t.status r = if destOf i = some r ∧ r ≠ 0 then some k else s.status r) ∧
      t.pc = s.pc + 1 ∧
      t.issuedAfterBranch = (if s.branchPending then s.issuedAfterBranch + 1 else s.issuedAfterBranch) ∧
      t.issued = s.issued ++ [{ seq := s.nextSeq, instr := i, cycle := s.cycle, station := k }] ∧
      t.nextSeq = s.nextSeq + 1

/-- R171 to R174: ADD, SUB, NOR and MUL issue into the first free station of their kind, with rB in the j slot and rC
in the k slot, and rename rA unless it is R0. Everything not named stays. `addrReady` and `seq` are the spec's own
decisions D17 and D21. -/
def Obligations.AluIssueCapturesAndRenames : Prop :=
  ∀ (i : Instr) (rA rB rC : RegIdx) (s : State) (k : Nat) (S : Station),
    aluFields i = some (rA, rB, rC) → s.turn = .issue → firstFree (unitKind i.opcode) s.stations = some (k, S) →
    exec i s = .next
      { s with
        stations := s.stations.set k
          { S with
            busy := true, op := some i.opcode, instr := some i
            vj := (capture s rB).1, qj := (capture s rB).2, vk := (capture s rC).1, qk := (capture s rC).2
            addrReady := false, result := none, originalPC := s.pc, cyclesPassed := 0, seq := s.nextSeq }
        regStat := if rA = 0 then s.regStat else s.regStat.set rA (some k)
        pc := s.pc + 1
        issuedAfterBranch := if s.branchPending then s.issuedAfterBranch + 1 else s.issuedAfterBranch
        issued := s.issued ++ [{ seq := s.nextSeq, instr := i, cycle := s.cycle, station := k }]
        nextSeq := s.nextSeq + 1 }

/-- R153, R156: LOAD issues with its base rB in the j slot, the k slot empty, `A` the offset, and renames rA unless it
is R0; STORE issues with its base rB in the j slot, its value rA in the k slot, `A` the offset, and renames no
register. Everything not named stays. `addrReady` and `seq` are the spec's own decisions D17 and D21. -/
def Obligations.LoadAndStoreIssueCaptureOperands : Prop :=
  (∀ (rA rB : RegIdx) (o : Int) (s : State) (k : Nat) (S : Station),
      s.turn = .issue → firstFree .load s.stations = some (k, S) →
      exec (.load rA rB o) s = .next
        { s with
          stations := s.stations.set k
            { S with
              busy := true, op := some .load, instr := some (.load rA rB o)
              vj := (capture s rB).1, qj := (capture s rB).2, vk := none, qk := none, a := o
              addrReady := false, result := none, originalPC := s.pc, cyclesPassed := 0, seq := s.nextSeq }
          regStat := if rA = 0 then s.regStat else s.regStat.set rA (some k)
          pc := s.pc + 1
          issuedAfterBranch := if s.branchPending then s.issuedAfterBranch + 1 else s.issuedAfterBranch
          issued := s.issued ++ [{ seq := s.nextSeq, instr := .load rA rB o, cycle := s.cycle, station := k }]
          nextSeq := s.nextSeq + 1 }) ∧
  (∀ (rA rB : RegIdx) (o : Int) (s : State) (k : Nat) (S : Station),
      s.turn = .issue → firstFree .store s.stations = some (k, S) →
      exec (.store rA rB o) s = .next
        { s with
          stations := s.stations.set k
            { S with
              busy := true, op := some .store, instr := some (.store rA rB o)
              vj := (capture s rB).1, qj := (capture s rB).2, vk := (capture s rA).1, qk := (capture s rA).2, a := o
              addrReady := false, result := none, originalPC := s.pc, cyclesPassed := 0, seq := s.nextSeq }
          pc := s.pc + 1
          issuedAfterBranch := if s.branchPending then s.issuedAfterBranch + 1 else s.issuedAfterBranch
          issued := s.issued ++ [{ seq := s.nextSeq, instr := .store rA rB o, cycle := s.cycle, station := k }]
          nextSeq := s.nextSeq + 1 })

/-- R191: BEQ issues while no branch is pending, with rA in the j slot and rB in the k slot and `A` the offset; it
sets `branchPending`, `pendingBranch` and the checkpoint, counts itself in `branchesIssued` and not in
`issuedAfterBranch` (R123), and renames no register. `pendingBranch`, `checkpoint` and `seq` are the spec's own
decisions D12, D14 and D21 (R36, R38). -/
def Obligations.BeqIssueOpensTheBranch : Prop :=
  ∀ (rA rB : RegIdx) (o : Int) (s : State) (k : Nat) (S : Station),
    s.turn = .issue → s.branchPending = false → firstFree .beq s.stations = some (k, S) →
    exec (.beq rA rB o) s = .next
      { s with
        stations := s.stations.set k
          { S with
            busy := true, op := some .beq, instr := some (.beq rA rB o)
            vj := (capture s rA).1, qj := (capture s rA).2, vk := (capture s rB).1, qk := (capture s rB).2, a := o
            addrReady := false, result := none, originalPC := s.pc, cyclesPassed := 0, seq := s.nextSeq }
        branchPending := true, pendingBranch := some k, checkpoint := some s.regStat
        branchesIssued := s.branchesIssued + 1
        pc := s.pc + 1
        issued := s.issued ++ [{ seq := s.nextSeq, instr := .beq rA rB o, cycle := s.cycle, station := k }]
        nextSeq := s.nextSeq + 1 }

/-- R199, R202, R203: CALL issues with no source and no destination and `A` its target by `callTargetMode`; RET issues
with `A` the register file's R1, read without its status entry, unless `retLinkPolicy` makes a pending writer of R1 a
fault; both set `jumpPending`. Everything not named stays. Rests on the spec's own decisions D9 and D10 (R9, R10,
R203); `addrReady` and `seq` are its decisions D17 and D21. -/
def Obligations.CallAndRetIssueSetTheTarget : Prop :=
  (∀ (l : Int) (s : State) (k : Nat) (S : Station),
      s.turn = .issue → firstFree .callret s.stations = some (k, S) →
      exec (.call l) s = .next
        { s with
          stations := s.stations.set k
            { S with
              busy := true, op := some .call, instr := some (.call l)
              vj := none, qj := none, vk := none, qk := none
              a := if s.params.callTargetMode = .absolute then l else s.pc + 1 + l
              addrReady := false, result := none, originalPC := s.pc, cyclesPassed := 0, seq := s.nextSeq }
          jumpPending := true
          pc := s.pc + 1
          issuedAfterBranch := if s.branchPending then s.issuedAfterBranch + 1 else s.issuedAfterBranch
          issued := s.issued ++ [{ seq := s.nextSeq, instr := .call l, cycle := s.cycle, station := k }]
          nextSeq := s.nextSeq + 1 }) ∧
  (∀ (s : State) (k : Nat) (S : Station),
      s.turn = .issue → (s.params.retLinkPolicy = .readFile ∨ s.status 1 = none) →
      firstFree .callret s.stations = some (k, S) →
      exec .ret s = .next
        { s with
          stations := s.stations.set k
            { S with
              busy := true, op := some .ret, instr := some .ret
              vj := none, qj := none, vk := none, qk := none, a := ((s.reg.get 1).toNat : Int)
              addrReady := false, result := none, originalPC := s.pc, cyclesPassed := 0, seq := s.nextSeq }
          jumpPending := true
          pc := s.pc + 1
          issuedAfterBranch := if s.branchPending then s.issuedAfterBranch + 1 else s.issuedAfterBranch
          issued := s.issued ++ [{ seq := s.nextSeq, instr := .ret, cycle := s.cycle, station := k }]
          nextSeq := s.nextSeq + 1 })

/-- R118, R119, R191, R202, R222: an instruction that passed the checks before allocation and finds no free station of
its kind stalls Issue and changes nothing; the checks: a BEQ while a branch is pending stalls or faults by
`nestedBranchPolicy`, and a RET with a pending writer of R1 faults under `faultIfPending`. The two policies are the
spec's own decisions D13 and D10 (R12, R10). -/
def Obligations.IssueChecksThenStallsWithoutStation : Prop :=
  (∀ (i : Instr) (s : State), s.turn = .issue → firstFree (unitKind i.opcode) s.stations = none →
      (i.opcode = .beq → s.branchPending = false) →
      (i = .ret → s.params.retLinkPolicy = .readFile ∨ s.status 1 = none) →
      exec i s = .next s) ∧
  ((∀ (rA rB : RegIdx) (o : Int) (s : State), s.turn = .issue → s.branchPending = true →
      (s.params.nestedBranchPolicy = .stall → exec (.beq rA rB o) s = .next s) ∧
      (s.params.nestedBranchPolicy = .fault → exec (.beq rA rB o) s = .fault (.nestedBranch s.pc))) ∧
    (∀ (s : State) (p : Nat), s.turn = .issue → s.status 1 = some p → s.params.retLinkPolicy = .faultIfPending →
      exec .ret s = .fault (.retLinkPending s.pc)))

/-! ## Execute: the completions -/

/-- R170, R175: at `cyclesPassed = cyclesNeeded`, an ADD, SUB, NOR or MUL without a result computes it from its ready
operands in 16-bit arithmetic and records an Executed entry; the station stays busy and nothing else changes. The
16-bit wrap and the entry's `seq` are the spec's own decisions D6 and D21 (R170, R39). -/
def Obligations.AluCompletesWithItsResult : Prop :=
  ∀ (i : Instr) (s : State) (k : Nat) (S : Station) (x y : Word),
    (aluFields i).isSome = true → s.turn = .execute k → s.holds k S → S.result = none →
    S.cyclesPassed = S.desc.cyclesNeeded → S.vj = some x → S.vk = some y →
    exec i s = .next
      { s with
        stations := s.stations.set k { S with result := some (aluResult i x y) }
        executed := s.executed ++ [{ seq := S.seq, instr := i, cycle := s.cycle, station := k }] }

/-- R127, R128, R150: before its threshold a station changes nothing in Execute, but for the address phase of a LOAD
or STORE once that is due; a producer that holds its result does not complete again. The address phase rests on the
spec's own decision D17 (R150). -/
def Obligations.ExecuteWaitsUntilDue : Prop :=
  ∀ (i : Instr) (s : State) (k : Nat) (S : Station), s.turn = .execute k → s.holds k S →
    (i.opcode ≠ .load → i.opcode ≠ .store → S.cyclesPassed ≠ S.desc.cyclesNeeded → exec i s = .next s) ∧
    ((aluFields i).isSome = true → S.result ≠ none → exec i s = .next s) ∧
    (∀ base : Word, S.vj = some base → i.opcode = .load ∨ i.opcode = .store →
      S.cyclesPassed ≠ S.desc.cyclesNeeded → exec i s = .next (s.setStation k (addressed S base))) ∧
    (∀ base : Word, S.vj = some base → i.opcode = .load → S.result ≠ none →
      exec i s = .next (s.setStation k (addressed S base)))

/-- R152, R153: a LOAD due and free of hazards reads the word at its effective address into `result` and records an
Executed entry; nothing else changes. Rests on the spec's own decisions D7, D17, D19 and D28 (R129, R150, R151). -/
def Obligations.LoadReadsItsEffectiveAddress : Prop :=
  ∀ (rA rB : RegIdx) (o : Int) (s : State) (k : Nat) (S : Station) (base : Word),
    s.turn = .execute k → s.holds k S → S.vj = some base → S.result = none →
    S.cyclesPassed = S.desc.cyclesNeeded →
    ¬ OlderConflict (s.setStation k (addressed S base)) (addressed S base) [.store] →
    inBounds (accessAddress S base) = true →
    exec (.load rA rB o) s = .next
      { s with
        stations := s.stations.set k
          { addressed S base with result := some (s.mem.get (accessAddress S base).toNat) }
        executed := s.executed ++ [{ seq := S.seq, instr := .load rA rB o, cycle := s.cycle, station := k }] }

/-- R155, R156: a STORE due and free of hazards writes its value at its effective address: that word reads as the
value after, every other word as before; both log entries are recorded, its station is released, and nothing else
changes. The memory is canonical (an invariant, `StepKeepsMemoryCanonical`). Rests on the spec's own decisions D7,
D17, D19 and D28 (R129, R150, R151). -/
def Obligations.StoreWritesItsEffectiveAddress : Prop :=
  ∀ (rA rB : RegIdx) (o : Int) (s : State) (k : Nat) (S : Station) (base v : Word),
    MemoryCanonical s → s.turn = .execute k → s.holds k S → S.vj = some base → S.vk = some v →
    S.cyclesPassed = S.desc.cyclesNeeded →
    ¬ OlderConflict (s.setStation k (addressed S base)) (addressed S base) [.load, .store] →
    inBounds (accessAddress S base) = true →
    ∃ m : Memory,
      exec (.store rA rB o) s = .next
        { s with
          mem := m
          stations := s.stations.set k (Station.released S.desc)
          executed := s.executed ++ [{ seq := S.seq, instr := .store rA rB o, cycle := s.cycle, station := k }]
          writtenBack := s.writtenBack ++ [{ seq := S.seq, instr := .store rA rB o, cycle := s.cycle, station := k }] } ∧
      m.wf = true ∧ ∀ a : Nat, m.get a = if (a : Int) = accessAddress S base then v else s.mem.get a

/-- R151, R154: a LOAD behind an older STORE, or a STORE behind an older LOAD or STORE, to the same address or to one
not yet computed, stalls: only its own address phase may have run. Rests on the spec's own decisions D17 and D19
(R150, R151). -/
def Obligations.AccessStallsBehindOlderConflict : Prop :=
  ∀ (rA rB : RegIdx) (o : Int) (s : State) (k : Nat) (S : Station) (base : Word),
    s.turn = .execute k → s.holds k S → S.vj = some base →
    (OlderConflict (s.setStation k (addressed S base)) (addressed S base) [.store] →
      exec (.load rA rB o) s = .next (s.setStation k (addressed S base))) ∧
    (OlderConflict (s.setStation k (addressed S base)) (addressed S base) [.load, .store] →
      exec (.store rA rB o) s = .next (s.setStation k (addressed S base)))

/-- R62, R153, R156, R223: a LOAD or STORE due and free of hazards whose effective address is outside [0,65535] faults
with that address. Rests on the spec's own decisions D7 and D26 (R150, R221). -/
def Obligations.AccessOutsideMemoryFaults : Prop :=
  ∀ (rA rB : RegIdx) (o : Int) (s : State) (k : Nat) (S : Station) (base : Word),
    s.turn = .execute k → s.holds k S → S.vj = some base → S.cyclesPassed = S.desc.cyclesNeeded →
    inBounds (accessAddress S base) = false →
    (S.result = none → ¬ OlderConflict (s.setStation k (addressed S base)) (addressed S base) [.store] →
      exec (.load rA rB o) s = .fault (.boundsError (accessAddress S base))) ∧
    (∀ v, S.vk = some v →
      ¬ OlderConflict (s.setStation k (addressed S base)) (addressed S base) [.load, .store] →
      exec (.store rA rB o) s = .fault (.boundsError (accessAddress S base)))

/-- R192, R194 to R197: a taken BEQ: the PC, the flags and counters, the truncated Issued log, the register-status
table by policy, every younger busy station released, and its own station released. Rests on the spec's own decisions
D14, D15 and D28 and its choices on conflicts C2 and C3 (R129, R194 to R197). -/
def Obligations.TakenBeqRedirectsAndSquashes : Prop :=
  ∀ (rA rB : RegIdx) (o : Int) (s : State) (k : Nat) (B : Station) (x : Word) (c : RegStat),
    s.turn = .execute k → s.holds k B → B.cyclesPassed = B.desc.cyclesNeeded → B.vj = some x → B.vk = some x →
    s.checkpoint = some c →
    (s.params.squashRegStatPolicy = .fault →
      ∀ r p T, s.status r = some p → s.holds p T → ¬ (T.busy = true ∧ B.seq < T.seq)) →
    ∃ t, exec (.beq rA rB o) s = .next t ∧
      t.pc = B.a + B.originalPC + 1 ∧ t.branchPending = false ∧ t.pendingBranch = none ∧ t.checkpoint = none ∧
      t.jumpPending = false ∧ t.mispredictions = s.mispredictions + 1 ∧ t.issuedAfterBranch = 0 ∧
      t.branchesIssued = s.branchesIssued ∧ t.nextSeq = s.nextSeq ∧
      t.issued = s.issued.filter (fun e => decide (e.seq ≤ B.seq)) ∧
      t.regStat = (if s.params.squashRegStatPolicy = .restore then c else s.regStat) ∧
      t.holds k (Station.released B.desc) ∧
      (∀ j T, j ≠ k → s.holds j T →
        t.holds j (if T.busy = true ∧ B.seq < T.seq then Station.released T.desc else T)) ∧
      t.stations.length = s.stations.length ∧
      (∀ r, t.readReg r = s.readReg r) ∧ (∀ a, t.wordAt a = s.wordAt a) ∧
      t.executed = s.executed ++ [{ seq := B.seq, instr := .beq rA rB o, cycle := s.cycle, station := k }] ∧
      t.writtenBack = s.writtenBack ++ [{ seq := B.seq, instr := .beq rA rB o, cycle := s.cycle, station := k }]

/-- R196: under `squashRegStatPolicy = fault`, a taken BEQ faults with the lowest register whose status entry names a
squashed station. Rests on the spec's own decision D14 (R196). -/
def Obligations.TakenBeqFaultsOnStaleTag : Prop :=
  ∀ (rA rB : RegIdx) (o : Int) (s : State) (k : Nat) (B : Station) (x : Word) (r : RegIdx) (p : Nat) (T : Station),
    s.turn = .execute k → s.holds k B → B.cyclesPassed = B.desc.cyclesNeeded → B.vj = some x → B.vk = some x →
    s.params.squashRegStatPolicy = .fault →
    s.status r = some p → s.holds p T → T.busy = true → B.seq < T.seq →
    (∀ r' p' T', r' < r → s.status r' = some p' → s.holds p' T' → ¬ (T'.busy = true ∧ B.seq < T'.seq)) →
    exec (.beq rA rB o) s = .fault (.squashStaleTag r)

/-- R191, R193: a BEQ whose operands differ is not taken: the PC by `notTakenPcPolicy`, the branch closed, both log
entries, its own station released, and nothing else. `pendingBranch`, `checkpoint` and the Executed entry are the
spec's own decisions D12, D14 and D28 (R36, R129). -/
def Obligations.NotTakenBeqClosesTheBranch : Prop :=
  ∀ (rA rB : RegIdx) (o : Int) (s : State) (k : Nat) (B : Station) (x y : Word),
    s.turn = .execute k → s.holds k B → B.cyclesPassed = B.desc.cyclesNeeded → B.vj = some x → B.vk = some y → x ≠ y →
    exec (.beq rA rB o) s = .next
      { s with
        pc := if s.params.notTakenPcPolicy = .rewind then B.originalPC + 1 else s.pc
        branchPending := false, pendingBranch := none, checkpoint := none
        stations := s.stations.set k (Station.released B.desc)
        executed := s.executed ++ [{ seq := B.seq, instr := .beq rA rB o, cycle := s.cycle, station := k }]
        writtenBack := s.writtenBack ++ [{ seq := B.seq, instr := .beq rA rB o, cycle := s.cycle, station := k }] }

/-- R199, R200: a CALL completes: R1 takes `originalPC + 1` modulo 2^16, the PC its target, `jumpPending` is cleared,
both log entries are recorded and its station is released; no register-status entry changes, nor anything else. Rests
on the spec's own decisions D11 and D28 (R200, R129). -/
def Obligations.CallLinksAndJumps : Prop :=
  ∀ (l : Int) (s : State) (k : Nat) (S : Station),
    s.turn = .execute k → s.holds k S → S.cyclesPassed = S.desc.cyclesNeeded →
    ∃ regs : Bank Word,
      exec (.call l) s = .next
        { s with
          reg := regs, pc := S.a, jumpPending := false
          stations := s.stations.set k (Station.released S.desc)
          executed := s.executed ++ [{ seq := S.seq, instr := .call l, cycle := s.cycle, station := k }]
          writtenBack := s.writtenBack ++ [{ seq := S.seq, instr := .call l, cycle := s.cycle, station := k }] } ∧
      ((regs.get 1).toNat : Int) = (S.originalPC + 1) % 65536 ∧ ∀ r, r ≠ 1 → regs.get r = s.reg.get r

/-- R202: a RET completes: the PC takes `A`, `jumpPending` is cleared, both log entries are recorded and its station
is released; nothing else changes. The Executed entry is the spec's own decision D28 (R129). -/
def Obligations.RetJumpsToItsTarget : Prop :=
  ∀ (s : State) (k : Nat) (S : Station),
    s.turn = .execute k → s.holds k S → S.cyclesPassed = S.desc.cyclesNeeded →
    exec .ret s = .next
      { s with
        pc := S.a, jumpPending := false
        stations := s.stations.set k (Station.released S.desc)
        executed := s.executed ++ [{ seq := S.seq, instr := .ret, cycle := s.cycle, station := k }]
        writtenBack := s.writtenBack ++ [{ seq := S.seq, instr := .ret, cycle := s.cycle, station := k }] }

/-- The frame of an Execute part, for every instruction (R22, R127): only CALL changes a register, and only R1; only a
STORE changes memory, and only the word at its effective address; only a taken BEQ changes the register-status table,
the Issued log or another station; the flags and PC change for BEQ, CALL and RET only. That the phase is cut into such
parts is the model's choice (log entry 1). -/
def Obligations.ExecuteFrame : Prop :=
  ∀ (i : Instr) (s t : State) (k : Nat) (S : Station), MemoryCanonical s → s.turn = .execute k → s.holds k S →
    exec i s = .next t →
    (∀ r, (i.opcode = .call → r ≠ 1) → t.readReg r = s.readReg r) ∧
    (i.opcode ≠ .store → ∀ a, t.wordAt a = s.wordAt a) ∧
    (i.opcode = .store → ∀ base, S.vj = some base → ∀ a, a ≠ accessAddress S base → t.wordAt a = s.wordAt a) ∧
    (i.opcode ≠ .beq → (∀ r, t.status r = s.status r) ∧ t.issued = s.issued ∧
      (∀ j, j ≠ k → t.stations[j]? = s.stations[j]?) ∧ t.mispredictions = s.mispredictions ∧
      t.issuedAfterBranch = s.issuedAfterBranch ∧ t.branchPending = s.branchPending ∧
      t.pendingBranch = s.pendingBranch ∧ t.checkpoint = s.checkpoint) ∧
    (i.opcode ≠ .beq → isJump i.opcode = false → t.pc = s.pc ∧ t.jumpPending = s.jumpPending) ∧
    (isProducer i.opcode = true → t.writtenBack = s.writtenBack) ∧
    t.stations.length = s.stations.length ∧ t.params = s.params ∧ t.branchesIssued = s.branchesIssued ∧
    t.nextSeq = s.nextSeq ∧ t.cycle = s.cycle ∧ t.started = s.started ∧ t.fault = s.fault ∧ t.turn = s.turn

/-! ## The cycle -/

/-- R110, R125, R126: a step whose fetch decodes an instruction is: the cycle begins, `exec` issues that instruction,
then Execute and Writeback; and an Execute visit of a busy, unblocked, ready station is `exec` of the instruction that
the station holds, on that station (its `op` is that instruction's opcode, log entry 12). Rests on the spec's own
decisions D20 and D27 (R126, R110); that `exec` has two parts is the model's choice (log entry 1). -/
def Obligations.StepRunsTheDecodedInstruction : Prop :=
  (∀ (s : State) (w : Word) (i : Instr), s.fault = none → s.jumpPending = false → memRead s.mem s.pc = .ok w → w ≠ 0 →
    decode s.params.opcodes w = .valid i → step s = andThen (exec i (beginCycle s)) finishCycle) ∧
  (∀ (s : State) (k : Nat) (S : Station) (i : Instr), s.holds k S → S.busy = true → S.instr = some i →
    S.op = some i.opcode → S.qj = none → S.qk = none → blocked s k S = false →
    visit S.seq k s = andThen (exec i { s with turn := .execute k }) fun t => .next { t with turn := .issue })

/-- R114 to R117, R223, R224: while a jump is pending, whatever the PC, and when the word at the PC is empty, Issue
does nothing and the step goes on to Execute and Writeback; with no jump pending, a PC outside memory or an invalid
word faults the step at once, whatever the stations hold and whether or not a branch is pending. Rests on the spec's
own decisions D2, D8 and D36 (R115, R117, R224). -/
def Obligations.FetchStallsOrFaultsAtOnce : Prop :=
  (∀ s : State, s.fault = none →
      (s.jumpPending = true → step s = finishCycle (beginCycle s)) ∧
      (inBounds s.pc = true → s.mem.get s.pc.toNat = 0 → step s = finishCycle (beginCycle s))) ∧
  (∀ s : State, s.fault = none → s.jumpPending = false →
      (inBounds s.pc = false → step s = .fault (.boundsError s.pc)) ∧
      (∀ w, memRead s.mem s.pc = .ok w → w ≠ 0 → decode s.params.opcodes w = .invalid →
        step s = .fault (.illegalInstruction w s.pc)))

/-- R112: at Cycle-advance a station counts exactly when it is busy with both operands ready and is below `cyclesNeeded`
or holds a result; nothing else of it, and no other station, matters. -/
def Obligations.CycleAdvanceCountsReadyStations : Prop :=
  ∀ (s : State) (k : Nat) (S : Station), s.holds k S →
    (cycleAdvance s).holds k
      { S with
        cyclesPassed :=
          if S.busy = true ∧ S.qj = none ∧ S.qk = none ∧
              (S.cyclesPassed < S.desc.cyclesNeeded ∨ S.result ≠ none)
          then S.cyclesPassed + 1 else S.cyclesPassed }

/-- R126: the Execute phase visits exactly the stations busy at its start, in ascending issue order. Rests on the
spec's own decision D20 (R126). -/
def Obligations.ExecuteVisitsInIssueOrder : Prop :=
  ∀ s : State,
    (visitOrder s).Pairwise (fun x y => x.1 ≤ y.1) ∧
    (∀ q k, (q, k) ∈ visitOrder s ↔ ∃ S, s.holds k S ∧ S.busy = true ∧ S.seq = q) ∧
    ((visitOrder s).map Prod.snd).Nodup

/-- R190: which stations an unresolved branch blocks, by `executeBranchBlock`; a visit of a blocked or unready
station, or of one released or reused since the phase began, changes nothing (R126). Rests on the spec's own decisions
D12 and D20 (R11, R126, R190). -/
def Obligations.PendingBranchBlocksByPolicy : Prop :=
  ∀ (s : State) (k : Nat) (S : Station), s.holds k S →
    (s.params.executeBranchBlock = .speculativeOnly →
      (blocked s k S = true ↔ s.branchPending = true ∧ ∃ b B, s.pendingBranch = some b ∧ s.holds b B ∧ B.seq < S.seq)) ∧
    (s.params.executeBranchBlock = .allButBranch →
      (blocked s k S = true ↔ s.branchPending = true ∧ s.pendingBranch ≠ some k)) ∧
    (blocked s k S = true ∨ S.qj ≠ none ∨ S.qk ≠ none → visit S.seq k s = .next s) ∧
    (∀ q, S.busy = false ∨ S.seq ≠ q → visit q k s = .next s)

/-- R131, R132: the bus carries nothing while a branch is pending; otherwise it carries the first entry of the Issued
log, oldest first, whose station holds that instruction with a result past `cyclesNeeded`. Rests on the spec's own
decision D29 (R132). -/
def Obligations.OldestReadyResultWinsTheBus : Prop :=
  ∀ s : State,
    (s.branchPending = true → writeback s = s) ∧
    (∀ b : Broadcast, cdb s = some b ↔ s.branchPending = false ∧ ∃ l₁ l₂, s.issued = l₁ ++ b.entry :: l₂ ∧
      EntryReady s b.entry b.value ∧ ∀ e ∈ l₁, ∀ v, ¬ EntryReady s e v) ∧
    (cdb s = none → writeback s = s)

/-- R133, R134, R136: the broadcast of `v` from station `p`: every register whose status entry names `p` takes `v`, but
for R0, and becomes committed; every other busy station waiting on `p` takes `v`; `p` is released; one WrittenBack entry
is recorded; nothing else changes. A station's identity as its index and the released value are the spec's own decisions
D21 and D22 (R25, R27; log entry 6). -/
def Obligations.BroadcastWritesAndWakes : Prop :=
  ∀ (s : State) (b : Broadcast), cdb s = some b →
    (∀ r, (writeback s).readReg r =
      if s.status r = some b.entry.station ∧ r ≠ 0 then b.value else s.readReg r) ∧
    (∀ r, (writeback s).status r = if s.status r = some b.entry.station then none else s.status r) ∧
    (∀ k T, k ≠ b.entry.station → s.holds k T →
      (writeback s).holds k
        { T with
          vj := if T.busy = true ∧ T.qj = some b.entry.station then some b.value else T.vj
          qj := if T.busy = true ∧ T.qj = some b.entry.station then none else T.qj
          vk := if T.busy = true ∧ T.qk = some b.entry.station then some b.value else T.vk
          qk := if T.busy = true ∧ T.qk = some b.entry.station then none else T.qk }) ∧
    (∀ S, s.holds b.entry.station S → (writeback s).holds b.entry.station (Station.released S.desc)) ∧
    (writeback s).writtenBack = s.writtenBack ++ [{ b.entry with cycle := s.cycle }] ∧
    (∀ a, (writeback s).wordAt a = s.wordAt a) ∧ (writeback s).issued = s.issued ∧
    (writeback s).executed = s.executed ∧ (writeback s).pc = s.pc ∧ (writeback s).jumpPending = s.jumpPending ∧
    (writeback s).branchPending = s.branchPending ∧ (writeback s).pendingBranch = s.pendingBranch ∧
    (writeback s).checkpoint = s.checkpoint ∧ (writeback s).issuedAfterBranch = s.issuedAfterBranch ∧
    (writeback s).branchesIssued = s.branchesIssued ∧ (writeback s).mispredictions = s.mispredictions ∧
    (writeback s).nextSeq = s.nextSeq ∧ (writeback s).cycle = s.cycle ∧ (writeback s).started = s.started ∧
    (writeback s).fault = s.fault ∧ (writeback s).params = s.params ∧ (writeback s).turn = s.turn ∧
    (writeback s).stations.length = s.stations.length

/-! ## Reset and invariants -/

/-- R240: the state right after reset (the spec marks these values as its own decision, D22); the parameters are the
spec's defaults, with `checkOffsetRange = true` the model's choice (log entry 3). -/
def Obligations.ResetLeavesZeroState : Prop :=
  (∀ a, State.reset.wordAt a = 0) ∧ (∀ r, State.reset.readReg r = 0) ∧ (∀ r, State.reset.status r = none) ∧
  State.reset.stations = [] ∧ State.reset.pc = 0 ∧ State.reset.branchPending = false ∧
  State.reset.jumpPending = false ∧ State.reset.pendingBranch = none ∧ State.reset.checkpoint = none ∧
  State.reset.issuedAfterBranch = 0 ∧ State.reset.branchesIssued = 0 ∧ State.reset.mispredictions = 0 ∧
  State.reset.nextSeq = 0 ∧ State.reset.issued = [] ∧ State.reset.executed = [] ∧ State.reset.writtenBack = [] ∧
  State.reset.cycle = 0 ∧ State.reset.fault = none ∧ State.reset.started = false ∧
  State.reset.params = Params.default

/-- Every invariant stated below holds at reset. -/
def Obligations.ResetMeetsTheInvariants : Prop :=
  MemoryCanonical State.reset ∧ ZeroRegister State.reset ∧ FreeStationsReleased State.reset ∧
  CountersBounded State.reset ∧ InFlightLogged State.reset ∧ EngineCoherent State.reset ∧ TagsLive State.reset ∧
  LatenciesPositive State.reset

/-- The memory keeps its canonical form in every step: what equal memories being equal data rests on (R60; the model's
representation, log entry 5). -/
def Obligations.StepKeepsMemoryCanonical : Prop :=
  ∀ s t : State, MemoryCanonical s → step s = .next t → MemoryCanonical t

/-- R21: register 0 stays zero and is never a rename target, in the table and in the checkpoint. The checkpoint is the
spec's own decision D14 (R36). -/
def Obligations.StepKeepsZeroRegister : Prop :=
  ∀ s t : State, ZeroRegister s → step s = .next t → ZeroRegister t

/-- R27, R136, R195: every station that is not busy keeps the released value; R112, R128, R43: no station without a
result counts past `cyclesNeeded`. The released values are the spec's own decision D22 (R27). -/
def Obligations.StepKeepsStationsReleasedAndCountersBounded : Prop :=
  (∀ s t : State, FreeStationsReleased s → step s = .next t → FreeStationsReleased t) ∧
  (∀ s t : State, CountersBounded s → step s = .next t → CountersBounded t)

/-- R28, R30: in every busy station a used slot holds a value or a tag and not both, an unused slot neither. R28 is
the spec's own derivation from R120. -/
def Obligations.StepKeepsSlotsExclusive : Prop :=
  ∀ s t : State, StationsCoherent s → step s = .next t → StationsCoherent t

/-- R38, R39: sequence numbers stay unique in flight and the Issued log rises; every instruction in flight keeps its
Issued entry, also across a squash (R194, R195). Rests on the spec's own decision D21 (R38, R39). -/
def Obligations.StepKeepsSequenceAndLog : Prop :=
  ∀ s t : State, SequenceUnique s → InFlightLogged s → step s = .next t → SequenceUnique t ∧ InFlightLogged t

/-- R34 to R36, R197: the pending flags tell the truth: the pending branch is the one BEQ in flight, its checkpoint is
kept, and `jumpPending` is true exactly while one CALL or RET is in flight, issued after the pending branch. Rests on
the spec's own decisions D12, D14 and D15 (R36, R197). -/
def Obligations.StepKeepsEngineCoherent : Prop :=
  ∀ s t : State, EngineCoherent s → step s = .next t → EngineCoherent t

/-- R23, R24, R195, R196: under `squashRegStatPolicy = restore`, every tag in flight and every register-status entry
names a busy station that will produce that value, also after a squash; so no two registers name one station. Rests on
the spec's own decisions D14 and D21 (R25, R196) and its derivation in R195. -/
def Obligations.StepKeepsTagsLive : Prop :=
  ∀ s t : State, s.params.squashRegStatPolicy = .restore → EngineCoherent s → TagsLive s → step s = .next t →
    TagsLive t ∧ ∀ r r' p, t.status r = some p → t.status r' = some p → r = r'

/-- R6, R25, R39, R40, R42: a step changes no parameter and no station descriptor, advances the cycle counter by one,
sets `started`, and only appends to the Executed and WrittenBack logs. Rests on the spec's own decisions D25 and D27
(R40, R42); `turn` is the model's own field (log entry 1). -/
def Obligations.StepKeepsConfigurationAndLogs : Prop :=
  ∀ s t : State, step s = .next t →
    t.params = s.params ∧ t.stations.map Station.desc = s.stations.map Station.desc ∧ t.cycle = s.cycle + 1 ∧
    t.started = true ∧ t.fault = none ∧ t.turn = .issue ∧ s.nextSeq ≤ t.nextSeq ∧ t.nextSeq ≤ s.nextSeq + 1 ∧
    s.executed <+: t.executed ∧ s.writtenBack <+: t.writtenBack

/-! ## Whole-machine rules -/

/-- The model's refusals cover no state that a run reaches: from a coherent, unfaulted engine no step is refused (R26,
R28, R36; log entry 8). -/
def Obligations.CoherentEngineIsNeverRefused : Prop :=
  ∀ (s : State) (r : Refusal), EngineCoherent s → s.fault = none → step s ≠ .refused r

/-- R198: the recovery state machine makes no transition outside its table: within a step IDLE does not go to SPEC_JUMP,
SPEC_JUMP does not fall back to SPEC, and JUMP goes to neither SPEC nor SPEC_JUMP. R198 is the spec's own derivation.
-/
def Obligations.RecoveryMachineTransitions : Prop :=
  ∀ s t : State, EngineCoherent s → step s = .next t →
    recoveryStep s.recovery t.recovery = true

/-- R247: from a halted state a step changes the cycle counter only (and `started`, if it is the first step). Rests on
the spec's own decisions D27 and D32 (R110, R247); `turn` is the model's own field (log entry 1). -/
def Obligations.HaltedStepOnlyAdvancesTheCycle : Prop :=
  ∀ s : State, s.fault = none → halted s = true →
    step s = .next { s with cycle := s.cycle + 1, started := true, turn := .issue } ∧
    halted { s with cycle := s.cycle + 1, started := true, turn := .issue } = true

/-- R249: a pending BEQ whose operand has a producer in flight never resolves: after any number of steps the branch is
still pending, its station is unchanged, and no register has been written. R249 is the spec's own derivation. -/
def Obligations.WaitingBranchNeverResolves : Prop :=
  ∀ (n : Nat) (s t : State) (b : Nat) (B : Station), EngineCoherent s → BranchWaits s b B → stepN n s = .next t →
    t.branchPending = true ∧ BranchWaits t b B ∧ t.reg = s.reg

/-- R221: under the default policies a step faults only with the bounds error of an address outside memory or with an
illegal instruction. Rests on the spec's own decisions D2, D8 and D26 (R115, R117, R221). -/
def Obligations.DefaultPoliciesFaultOnlyOnBoundsOrOpcode : Prop :=
  ∀ (s : State) (f : Fault), s.params.nestedBranchPolicy = .stall → s.params.retLinkPolicy = .readFile →
    s.params.squashRegStatPolicy = .restore → step s = .fault f →
    (∃ a, f = .boundsError a ∧ inBounds a = false) ∨
    (∃ w, f = .illegalInstruction w s.pc ∧ decode s.params.opcodes w = .invalid)

/-- R41, R221: a step that faults leaves the engine as it was but for `fault`, and no further step runs (the model
refuses it, log entry 7). Rests on the spec's own decision D26 (R41, R221). -/
def Obligations.FaultLeavesTheEngineAsItWas : Prop :=
  ∀ (s : State) (f : Fault), step s = .fault f →
    settle s (step s) = { s with fault := some f } ∧
    step (settle s (step s)) = .refused (.engineFaulted f)

/-! ## An instruction alone in the engine, from issue to its last effect -/

/-- R137, R171 to R175, R133: an ADD, SUB, NOR or MUL alone in the engine, on a station of latency L, has after L + 2
steps written its result to rA (to no register when rA is R0), with its completion logged in cycle L + 1 and its
writeback in cycle L + 2; nothing else of registers or memory changed, and the engine is halted at the next word. R137
is the spec's own derivation; D6, D27 and D28 are its decisions. -/
def Obligations.AluInstructionRunsToItsRegister : Prop :=
  ∀ (s : State) (i : Instr) (k : Nat) (S : Station) (rA rB rC : RegIdx),
    AboutToRun s i k S → EmptyNext s → aluFields i = some (rA, rB, rC) →
    ∃ t, stepN (S.desc.cyclesNeeded + 2) s = .next t ∧
      (∀ r, t.readReg r =
        if r = rA ∧ r ≠ 0 then aluResult i (s.readReg rB) (s.readReg rC) else s.readReg r) ∧
      (∀ r, t.status r = none) ∧ t.mem = s.mem ∧ t.pc = s.pc + 1 ∧ halted t = true ∧
      t.executed = s.executed ++ [s.loneEntry i k (s.cycle + S.desc.cyclesNeeded + 1)] ∧
      t.writtenBack = s.writtenBack ++ [s.loneEntry i k (s.cycle + S.desc.cyclesNeeded + 2)]

/-- R137, R150 to R153, R133: a LOAD alone in the engine whose effective address is in memory has after L + 2 steps
written the word there to rA (to no register when rA is R0). R137 is the spec's own derivation; D7, D17, D27 and D28
are its decisions. -/
def Obligations.LoadRunsToItsRegister : Prop :=
  ∀ (s : State) (rA rB : RegIdx) (o : Int) (k : Nat) (S : Station),
    AboutToRun s (.load rA rB o) k S → EmptyNext s →
    inBounds (((s.readReg rB).toNat : Int) + o) = true →
    ∃ t, stepN (S.desc.cyclesNeeded + 2) s = .next t ∧
      (∀ r, t.readReg r =
        if r = rA ∧ r ≠ 0 then s.wordAt (((s.readReg rB).toNat : Int) + o) else s.readReg r) ∧
      (∀ r, t.status r = none) ∧ t.mem = s.mem ∧ t.pc = s.pc + 1 ∧ halted t = true ∧
      t.executed = s.executed ++ [s.loneEntry (.load rA rB o) k (s.cycle + S.desc.cyclesNeeded + 1)] ∧
      t.writtenBack = s.writtenBack ++ [s.loneEntry (.load rA rB o) k (s.cycle + S.desc.cyclesNeeded + 2)]

/-- R137, R150, R155, R156: a STORE alone in the engine whose effective address is in memory has after L + 1 steps
written rA there and nowhere else, and changed no register. R137 is the spec's own derivation; D7, D17, D27 and D28
are its decisions. -/
def Obligations.StoreRunsToMemory : Prop :=
  ∀ (s : State) (rA rB : RegIdx) (o : Int) (k : Nat) (S : Station),
    AboutToRun s (.store rA rB o) k S → EmptyNext s → MemoryCanonical s →
    inBounds (((s.readReg rB).toNat : Int) + o) = true →
    ∃ t, stepN (S.desc.cyclesNeeded + 1) s = .next t ∧
      (∀ a, t.wordAt a = if a = ((s.readReg rB).toNat : Int) + o then s.readReg rA else s.wordAt a) ∧
      (∀ r, t.readReg r = s.readReg r) ∧ (∀ r, t.status r = none) ∧ t.pc = s.pc + 1 ∧ quiescent t = true ∧
      t.executed = s.executed ++ [s.loneEntry (.store rA rB o) k (s.cycle + S.desc.cyclesNeeded + 1)] ∧
      t.writtenBack = s.writtenBack ++ [s.loneEntry (.store rA rB o) k (s.cycle + S.desc.cyclesNeeded + 1)]

/-- R137, R191 to R193: a BEQ alone in the engine has after L + 1 steps gone to `pc + 1 + offset` when its registers
are equal, and to `pc + 1` when not, under every policy; a taken one is counted as a misprediction. R137 is the spec's
own derivation; D14, D27 and D28 are its decisions. -/
def Obligations.BeqRunsToItsTarget : Prop :=
  ∀ (s : State) (rA rB : RegIdx) (o : Int) (k : Nat) (S : Station),
    AboutToRun s (.beq rA rB o) k S → EmptyNext s →
    ∃ t, stepN (S.desc.cyclesNeeded + 1) s = .next t ∧
      t.pc = (if s.readReg rA = s.readReg rB then s.pc + 1 + o else s.pc + 1) ∧
      t.mispredictions = (if s.readReg rA = s.readReg rB then s.mispredictions + 1 else s.mispredictions) ∧
      t.branchesIssued = s.branchesIssued + 1 ∧
      (∀ r, t.readReg r = s.readReg r) ∧ (∀ r, t.status r = none) ∧ t.mem = s.mem ∧ quiescent t = true ∧
      t.executed = s.executed ++ [s.loneEntry (.beq rA rB o) k (s.cycle + S.desc.cyclesNeeded + 1)] ∧
      t.writtenBack = s.writtenBack ++ [s.loneEntry (.beq rA rB o) k (s.cycle + S.desc.cyclesNeeded + 1)]

/-- R137, R199, R200, R202, R203: a CALL or RET alone in the engine has after L + 1 steps gone to its target; a CALL
has put the address after it, modulo 2^16, into R1; no other register and no word of memory changed. R137 is the
spec's own derivation; D9, D10, D11, D27 and D28 are its decisions. -/
def Obligations.JumpRunsToItsTarget : Prop :=
  ∀ (s : State) (i : Instr) (k : Nat) (S : Station), AboutToRun s i k S → isJump i.opcode = true →
    ∃ t, stepN (S.desc.cyclesNeeded + 1) s = .next t ∧
      (∀ l, i = .call l → t.pc = (if s.params.callTargetMode = .absolute then l else s.pc + 1 + l) ∧
        ((t.readReg 1).toNat : Int) = (s.pc + 1) % 65536) ∧
      (i = .ret → t.pc = ((s.readReg 1).toNat : Int) ∧ t.readReg 1 = s.readReg 1) ∧
      (∀ r, r ≠ 1 → t.readReg r = s.readReg r) ∧ (∀ r, t.status r = none) ∧ t.mem = s.mem ∧ quiescent t = true ∧
      t.executed = s.executed ++ [s.loneEntry i k (s.cycle + S.desc.cyclesNeeded + 1)] ∧
      t.writtenBack = s.writtenBack ++ [s.loneEntry i k (s.cycle + S.desc.cyclesNeeded + 1)]

/-! ## Configuration (70_reset_and_hazards.md) -/

/-- R242, R245: after the first step every configuration operation is refused, and a refused one changes nothing;
`setRegister` takes a register in 0..7 and a value in -32768..65535, stores it modulo 2^16, discards a write to R0,
and changes nothing else; it rejects the one of the two that is out of range, under the model's names for them (log
entry 19); `setPC` takes an address in memory. Rests on the spec's own decisions D23, D24 and D25
(R242, R245). -/
def Obligations.ConfigurationChecksAndStores : Prop :=
  (∀ (s : State) (op : ConfigOp),
      (s.started = true → configure op s = .error (.configError .afterStart)) ∧
      (∀ e, configure op s = .error e → configured s op = s)) ∧
  (∀ s : State, s.started = false →
      (∀ r v : Int, 0 ≤ r → r ≤ 7 → -32768 ≤ v → v ≤ 65535 →
        ∃ t, configure (.setRegister r v) s = .ok t ∧ t = { s with reg := t.reg } ∧
          ∀ q : RegIdx, t.readReg q = if (q.val : Int) = r ∧ r ≠ 0 then BitVec.ofInt 16 v else s.readReg q) ∧
      (∀ r v : Int, ¬ (0 ≤ r ∧ r ≤ 7) → -32768 ≤ v → v ≤ 65535 →
        configure (.setRegister r v) s = .error (.rangeError .register r)) ∧
      (∀ r v : Int, 0 ≤ r → r ≤ 7 → ¬ (-32768 ≤ v ∧ v ≤ 65535) →
        configure (.setRegister r v) s = .error (.rangeError .registerValue v)) ∧
      (∀ a : Int, 0 ≤ a → a ≤ 65535 → configure (.setPC a) s = .ok { s with pc := a }) ∧
      (∀ a : Int, ¬ (0 ≤ a ∧ a ≤ 65535) → configure (.setPC a) s = .error (.boundsError a)))

/-- R241, R242: `addStation` accepts exactly the descriptors that keep every constraint of R241, and adds the station
at the end of the list, released. Rests on the spec's own decision D18 (R241). -/
def Obligations.AddStationAcceptsExactlyValidDescriptors : Prop :=
  ∀ (s t : State) (d : StationSpec), s.started = false →
    (configure (.addStation d) s = .ok t ↔
      (d.name ≠ "" ∧ (∀ S ∈ s.stations, S.desc.name ≠ d.name) ∧ 1 ≤ d.cyclesNeeded ∧
        (d.kind ≠ .load → d.kind ≠ .store → d.addrCycles = none ∧ d.memCycles = none) ∧
        (∀ n, d.addrCycles = some n → 1 ≤ n ∧ n ≤ d.cyclesNeeded) ∧ (∀ n, d.memCycles = some n → 0 ≤ n)) ∧
      t = { s with
            stations := s.stations ++
              [Station.released
                { name := d.name, kind := d.kind, cyclesNeeded := d.cyclesNeeded.toNat
                  addrCycles := d.addrCycles.map Int.toNat, memCycles := d.memCycles.map Int.toNat }] })

/-- R220, R242: `bulkLoad` and `loadData` store every word of an accepted block at its address, and no other word; a
single `loadInstruction` likewise. Before the first step a block is accepted exactly when it lies in memory and every
word of it is valid; with valid words outside memory it raises `BoundsError` with its first address out of range, and
inside memory one invalid word raises that word's error. Rests on the spec's own decisions D24 and D25 (R242, R245);
the acceptance of an empty block and the address named are log entry 18, the field name of a data word log entry 19. -/
def Obligations.BlockLoadsStoreEveryWord : Prop :=
  (∀ (s t : State) (a : Int), MemoryCanonical s →
    (∀ rs, configure (.bulkLoad a rs) s = .ok t → ∃ ws : List Word,
      rs.length = ws.length ∧ (∀ (n : Nat) r, rs[n]? = some r → ∃ w, ws[n]? = some w ∧ encodeRecord s.params r = .ok w) ∧
      MemoryCanonical t ∧
      ∀ b : Int, t.wordAt b =
        if a ≤ b ∧ b < a + ws.length then (ws[(b - a).toNat]?).getD 0 else s.wordAt b) ∧
    (∀ vs, configure (.loadData a vs) s = .ok t → MemoryCanonical t ∧
      (∀ v ∈ vs, -32768 ≤ v ∧ v ≤ 65535) ∧
      ∀ b : Int, t.wordAt b =
        if a ≤ b ∧ b < a + vs.length then BitVec.ofInt 16 ((vs[(b - a).toNat]?).getD 0) else s.wordAt b) ∧
    (∀ r, configure (.loadInstruction a r) s = .ok t → ∃ w, encodeRecord s.params r = .ok w ∧ MemoryCanonical t ∧
      ∀ b : Int, t.wordAt b = if b = a then w else s.wordAt b)) ∧
  (∀ (s : State) (a : Int), s.started = false →
    (∀ rs, (∃ t, configure (.bulkLoad a rs) s = .ok t) ↔
      0 ≤ a ∧ a + rs.length - 1 ≤ 65535 ∧ ∀ r ∈ rs, ∃ w, encodeRecord s.params r = .ok w) ∧
    (∀ vs, (∃ t, configure (.loadData a vs) s = .ok t) ↔
      0 ≤ a ∧ a + vs.length - 1 ≤ 65535 ∧ ∀ v ∈ vs, -32768 ≤ v ∧ v ≤ 65535) ∧
    (∀ r, (∃ t, configure (.loadInstruction a r) s = .ok t) ↔
      0 ≤ a ∧ a ≤ 65535 ∧ ∃ w, encodeRecord s.params r = .ok w)) ∧
  (∀ (s : State) (a : Int), s.started = false →
    (∀ rs, rs ≠ [] → (∀ r ∈ rs, ∃ w, encodeRecord s.params r = .ok w) →
      (a < 0 → configure (.bulkLoad a rs) s = .error (.boundsError a)) ∧
      (0 ≤ a → 65535 < a + rs.length - 1 → configure (.bulkLoad a rs) s = .error (.boundsError (max a 65536)))) ∧
    (∀ vs, vs ≠ [] → (∀ v ∈ vs, -32768 ≤ v ∧ v ≤ 65535) →
      (a < 0 → configure (.loadData a vs) s = .error (.boundsError a)) ∧
      (0 ≤ a → 65535 < a + vs.length - 1 → configure (.loadData a vs) s = .error (.boundsError (max a 65536)))) ∧
    (∀ r w, encodeRecord s.params r = .ok w → ¬ (0 ≤ a ∧ a ≤ 65535) →
      configure (.loadInstruction a r) s = .error (.boundsError a))) ∧
  (∀ (s : State) (a : Int), s.started = false → 0 ≤ a →
    (∀ rs r rs' e, a + (rs ++ r :: rs').length - 1 ≤ 65535 → (∀ q ∈ rs ++ rs', ∃ w, encodeRecord s.params q = .ok w) →
      encodeRecord s.params r = .error e → configure (.bulkLoad a (rs ++ r :: rs')) s = .error e) ∧
    (∀ vs v vs', a + (vs ++ v :: vs').length - 1 ≤ 65535 → (∀ u ∈ vs ++ vs', -32768 ≤ u ∧ u ≤ 65535) →
      ¬ (-32768 ≤ v ∧ v ≤ 65535) →
      configure (.loadData a (vs ++ v :: vs')) s = .error (.rangeError .dataWord v)) ∧
    (∀ r e, a ≤ 65535 → encodeRecord s.params r = .error e → configure (.loadInstruction a r) s = .error e))

/-- Configuration keeps every invariant that a statement about a step has as premise, so that they hold of every state
reached from reset by configuration and steps (R242, R246). That these invariants are the model's to keep is its own
choice (log entry 8). -/
def Obligations.ConfigurationKeepsTheInvariants : Prop :=
  ∀ (s : State) (op : ConfigOp), MemoryCanonical s → ZeroRegister s → FreeStationsReleased s → EngineCoherent s →
    LatenciesPositive s → CountersBounded s → InFlightLogged s → TagsLive s →
    MemoryCanonical (configured s op) ∧ ZeroRegister (configured s op) ∧ FreeStationsReleased (configured s op) ∧
    EngineCoherent (configured s op) ∧ LatenciesPositive (configured s op) ∧ CountersBounded (configured s op) ∧
    InFlightLogged (configured s op) ∧ TagsLive (configured s op)
end

