-- ==== Sys2Proof/Laws/State.lean ====
section
/-! SUPPORT. One lemma per field per update of the state, so that no later proof unfolds a record update. -/

namespace Sys2Proof.Machine

variable (s : State)

/-! ## setStation -/

@[simp] theorem setStation_params (k : Nat) (S : Station) : (s.setStation k S).params = s.params := rfl
@[simp] theorem setStation_mem (k : Nat) (S : Station) : (s.setStation k S).mem = s.mem := rfl
@[simp] theorem setStation_reg (k : Nat) (S : Station) : (s.setStation k S).reg = s.reg := rfl
@[simp] theorem setStation_regStat (k : Nat) (S : Station) : (s.setStation k S).regStat = s.regStat := rfl
@[simp] theorem setStation_stations (k : Nat) (S : Station) : (s.setStation k S).stations =
    s.stations.set k S := rfl
@[simp] theorem setStation_pc (k : Nat) (S : Station) : (s.setStation k S).pc = s.pc := rfl
@[simp] theorem setStation_branchPending (k : Nat) (S : Station) : (s.setStation k S).branchPending =
    s.branchPending := rfl
@[simp] theorem setStation_jumpPending (k : Nat) (S : Station) : (s.setStation k S).jumpPending =
    s.jumpPending := rfl
@[simp] theorem setStation_pendingBranch (k : Nat) (S : Station) : (s.setStation k S).pendingBranch =
    s.pendingBranch := rfl
@[simp] theorem setStation_checkpoint (k : Nat) (S : Station) : (s.setStation k S).checkpoint =
    s.checkpoint := rfl
@[simp] theorem setStation_issuedAfterBranch (k : Nat) (S : Station) : (s.setStation k S).issuedAfterBranch =
    s.issuedAfterBranch := rfl
@[simp] theorem setStation_branchesIssued (k : Nat) (S : Station) : (s.setStation k S).branchesIssued =
    s.branchesIssued := rfl
@[simp] theorem setStation_mispredictions (k : Nat) (S : Station) : (s.setStation k S).mispredictions =
    s.mispredictions := rfl
@[simp] theorem setStation_nextSeq (k : Nat) (S : Station) : (s.setStation k S).nextSeq = s.nextSeq := rfl
@[simp] theorem setStation_issued (k : Nat) (S : Station) : (s.setStation k S).issued = s.issued := rfl
@[simp] theorem setStation_executed (k : Nat) (S : Station) : (s.setStation k S).executed = s.executed := rfl
@[simp] theorem setStation_writtenBack (k : Nat) (S : Station) : (s.setStation k S).writtenBack =
    s.writtenBack := rfl
@[simp] theorem setStation_cycle (k : Nat) (S : Station) : (s.setStation k S).cycle = s.cycle := rfl
@[simp] theorem setStation_started (k : Nat) (S : Station) : (s.setStation k S).started = s.started := rfl
@[simp] theorem setStation_fault (k : Nat) (S : Station) : (s.setStation k S).fault = s.fault := rfl
@[simp] theorem setStation_turn (k : Nat) (S : Station) : (s.setStation k S).turn = s.turn := rfl

/-! ## release -/

@[simp] theorem release_params (k : Nat) (S : Station) : (s.release k S).params = s.params := rfl
@[simp] theorem release_mem (k : Nat) (S : Station) : (s.release k S).mem = s.mem := rfl
@[simp] theorem release_reg (k : Nat) (S : Station) : (s.release k S).reg = s.reg := rfl
@[simp] theorem release_regStat (k : Nat) (S : Station) : (s.release k S).regStat = s.regStat := rfl
@[simp] theorem release_stations (k : Nat) (S : Station) : (s.release k S).stations =
    s.stations.set k (Station.released S.desc) := rfl
@[simp] theorem release_pc (k : Nat) (S : Station) : (s.release k S).pc = s.pc := rfl
@[simp] theorem release_branchPending (k : Nat) (S : Station) : (s.release k S).branchPending =
    s.branchPending := rfl
@[simp] theorem release_jumpPending (k : Nat) (S : Station) : (s.release k S).jumpPending = s.jumpPending := rfl
@[simp] theorem release_pendingBranch (k : Nat) (S : Station) : (s.release k S).pendingBranch =
    s.pendingBranch := rfl
@[simp] theorem release_checkpoint (k : Nat) (S : Station) : (s.release k S).checkpoint = s.checkpoint := rfl
@[simp] theorem release_issuedAfterBranch (k : Nat) (S : Station) : (s.release k S).issuedAfterBranch =
    s.issuedAfterBranch := rfl
@[simp] theorem release_branchesIssued (k : Nat) (S : Station) : (s.release k S).branchesIssued =
    s.branchesIssued := rfl
@[simp] theorem release_mispredictions (k : Nat) (S : Station) : (s.release k S).mispredictions =
    s.mispredictions := rfl
@[simp] theorem release_nextSeq (k : Nat) (S : Station) : (s.release k S).nextSeq = s.nextSeq := rfl
@[simp] theorem release_issued (k : Nat) (S : Station) : (s.release k S).issued = s.issued := rfl
@[simp] theorem release_executed (k : Nat) (S : Station) : (s.release k S).executed = s.executed := rfl
@[simp] theorem release_writtenBack (k : Nat) (S : Station) : (s.release k S).writtenBack = s.writtenBack := rfl
@[simp] theorem release_cycle (k : Nat) (S : Station) : (s.release k S).cycle = s.cycle := rfl
@[simp] theorem release_started (k : Nat) (S : Station) : (s.release k S).started = s.started := rfl
@[simp] theorem release_fault (k : Nat) (S : Station) : (s.release k S).fault = s.fault := rfl
@[simp] theorem release_turn (k : Nat) (S : Station) : (s.release k S).turn = s.turn := rfl

/-! ## logExecuted -/

@[simp] theorem logExecuted_params (k : Nat) (S : Station) (i : Instr) : (s.logExecuted k S i).params =
    s.params := rfl
@[simp] theorem logExecuted_mem (k : Nat) (S : Station) (i : Instr) : (s.logExecuted k S i).mem = s.mem := rfl
@[simp] theorem logExecuted_reg (k : Nat) (S : Station) (i : Instr) : (s.logExecuted k S i).reg = s.reg := rfl
@[simp] theorem logExecuted_regStat (k : Nat) (S : Station) (i : Instr) : (s.logExecuted k S i).regStat =
    s.regStat := rfl
@[simp] theorem logExecuted_stations (k : Nat) (S : Station) (i : Instr) : (s.logExecuted k S i).stations =
    s.stations := rfl
@[simp] theorem logExecuted_pc (k : Nat) (S : Station) (i : Instr) : (s.logExecuted k S i).pc = s.pc := rfl
@[simp] theorem logExecuted_branchPending (k : Nat) (S : Station) (i : Instr) : (s.logExecuted k S i).branchPending =
    s.branchPending := rfl
@[simp] theorem logExecuted_jumpPending (k : Nat) (S : Station) (i : Instr) : (s.logExecuted k S i).jumpPending =
    s.jumpPending := rfl
@[simp] theorem logExecuted_pendingBranch (k : Nat) (S : Station) (i : Instr) : (s.logExecuted k S i).pendingBranch =
    s.pendingBranch := rfl
@[simp] theorem logExecuted_checkpoint (k : Nat) (S : Station) (i : Instr) : (s.logExecuted k S i).checkpoint =
    s.checkpoint := rfl
@[simp] theorem logExecuted_issuedAfterBranch (k : Nat) (S : Station) (i : Instr) : (s.logExecuted k S i).issuedAfterBranch =
    s.issuedAfterBranch := rfl
@[simp] theorem logExecuted_branchesIssued (k : Nat) (S : Station) (i : Instr) : (s.logExecuted k S i).branchesIssued =
    s.branchesIssued := rfl
@[simp] theorem logExecuted_mispredictions (k : Nat) (S : Station) (i : Instr) : (s.logExecuted k S i).mispredictions =
    s.mispredictions := rfl
@[simp] theorem logExecuted_nextSeq (k : Nat) (S : Station) (i : Instr) : (s.logExecuted k S i).nextSeq =
    s.nextSeq := rfl
@[simp] theorem logExecuted_issued (k : Nat) (S : Station) (i : Instr) : (s.logExecuted k S i).issued =
    s.issued := rfl
@[simp] theorem logExecuted_executed (k : Nat) (S : Station) (i : Instr) : (s.logExecuted k S i).executed =
    s.executed ++ [s.entryOf k S i] := rfl
@[simp] theorem logExecuted_writtenBack (k : Nat) (S : Station) (i : Instr) : (s.logExecuted k S i).writtenBack =
    s.writtenBack := rfl
@[simp] theorem logExecuted_cycle (k : Nat) (S : Station) (i : Instr) : (s.logExecuted k S i).cycle =
    s.cycle := rfl
@[simp] theorem logExecuted_started (k : Nat) (S : Station) (i : Instr) : (s.logExecuted k S i).started =
    s.started := rfl
@[simp] theorem logExecuted_fault (k : Nat) (S : Station) (i : Instr) : (s.logExecuted k S i).fault =
    s.fault := rfl
@[simp] theorem logExecuted_turn (k : Nat) (S : Station) (i : Instr) : (s.logExecuted k S i).turn =
    s.turn := rfl

/-! ## logCompleted -/

@[simp] theorem logCompleted_params (k : Nat) (S : Station) (i : Instr) : (s.logCompleted k S i).params =
    s.params := rfl
@[simp] theorem logCompleted_mem (k : Nat) (S : Station) (i : Instr) : (s.logCompleted k S i).mem = s.mem := rfl
@[simp] theorem logCompleted_reg (k : Nat) (S : Station) (i : Instr) : (s.logCompleted k S i).reg = s.reg := rfl
@[simp] theorem logCompleted_regStat (k : Nat) (S : Station) (i : Instr) : (s.logCompleted k S i).regStat =
    s.regStat := rfl
@[simp] theorem logCompleted_stations (k : Nat) (S : Station) (i : Instr) : (s.logCompleted k S i).stations =
    s.stations := rfl
@[simp] theorem logCompleted_pc (k : Nat) (S : Station) (i : Instr) : (s.logCompleted k S i).pc = s.pc := rfl
@[simp] theorem logCompleted_branchPending (k : Nat) (S : Station) (i : Instr) : (s.logCompleted k S i).branchPending =
    s.branchPending := rfl
@[simp] theorem logCompleted_jumpPending (k : Nat) (S : Station) (i : Instr) : (s.logCompleted k S i).jumpPending =
    s.jumpPending := rfl
@[simp] theorem logCompleted_pendingBranch (k : Nat) (S : Station) (i : Instr) : (s.logCompleted k S i).pendingBranch =
    s.pendingBranch := rfl
@[simp] theorem logCompleted_checkpoint (k : Nat) (S : Station) (i : Instr) : (s.logCompleted k S i).checkpoint =
    s.checkpoint := rfl
@[simp] theorem logCompleted_issuedAfterBranch (k : Nat) (S : Station) (i : Instr) : (s.logCompleted k S i).issuedAfterBranch =
    s.issuedAfterBranch := rfl
@[simp] theorem logCompleted_branchesIssued (k : Nat) (S : Station) (i : Instr) : (s.logCompleted k S i).branchesIssued =
    s.branchesIssued := rfl
@[simp] theorem logCompleted_mispredictions (k : Nat) (S : Station) (i : Instr) : (s.logCompleted k S i).mispredictions =
    s.mispredictions := rfl
@[simp] theorem logCompleted_nextSeq (k : Nat) (S : Station) (i : Instr) : (s.logCompleted k S i).nextSeq =
    s.nextSeq := rfl
@[simp] theorem logCompleted_issued (k : Nat) (S : Station) (i : Instr) : (s.logCompleted k S i).issued =
    s.issued := rfl
@[simp] theorem logCompleted_executed (k : Nat) (S : Station) (i : Instr) : (s.logCompleted k S i).executed =
    s.executed ++ [s.entryOf k S i] := rfl
@[simp] theorem logCompleted_writtenBack (k : Nat) (S : Station) (i : Instr) : (s.logCompleted k S i).writtenBack =
    s.writtenBack ++ [s.entryOf k S i] := rfl
@[simp] theorem logCompleted_cycle (k : Nat) (S : Station) (i : Instr) : (s.logCompleted k S i).cycle =
    s.cycle := rfl
@[simp] theorem logCompleted_started (k : Nat) (S : Station) (i : Instr) : (s.logCompleted k S i).started =
    s.started := rfl
@[simp] theorem logCompleted_fault (k : Nat) (S : Station) (i : Instr) : (s.logCompleted k S i).fault =
    s.fault := rfl
@[simp] theorem logCompleted_turn (k : Nat) (S : Station) (i : Instr) : (s.logCompleted k S i).turn =
    s.turn := rfl

/-! ## openBranch -/

@[simp] theorem openBranch_params (k : Nat) : (s.openBranch k).params = s.params := rfl
@[simp] theorem openBranch_mem (k : Nat) : (s.openBranch k).mem = s.mem := rfl
@[simp] theorem openBranch_reg (k : Nat) : (s.openBranch k).reg = s.reg := rfl
@[simp] theorem openBranch_regStat (k : Nat) : (s.openBranch k).regStat = s.regStat := rfl
@[simp] theorem openBranch_stations (k : Nat) : (s.openBranch k).stations = s.stations := rfl
@[simp] theorem openBranch_pc (k : Nat) : (s.openBranch k).pc = s.pc := rfl
@[simp] theorem openBranch_branchPending (k : Nat) : (s.openBranch k).branchPending = true := rfl
@[simp] theorem openBranch_jumpPending (k : Nat) : (s.openBranch k).jumpPending = s.jumpPending := rfl
@[simp] theorem openBranch_pendingBranch (k : Nat) : (s.openBranch k).pendingBranch = some k := rfl
@[simp] theorem openBranch_checkpoint (k : Nat) : (s.openBranch k).checkpoint = some s.regStat := rfl
@[simp] theorem openBranch_issuedAfterBranch (k : Nat) : (s.openBranch k).issuedAfterBranch =
    s.issuedAfterBranch := rfl
@[simp] theorem openBranch_branchesIssued (k : Nat) : (s.openBranch k).branchesIssued =
    s.branchesIssued + 1 := rfl
@[simp] theorem openBranch_mispredictions (k : Nat) : (s.openBranch k).mispredictions = s.mispredictions := rfl
@[simp] theorem openBranch_nextSeq (k : Nat) : (s.openBranch k).nextSeq = s.nextSeq := rfl
@[simp] theorem openBranch_issued (k : Nat) : (s.openBranch k).issued = s.issued := rfl
@[simp] theorem openBranch_executed (k : Nat) : (s.openBranch k).executed = s.executed := rfl
@[simp] theorem openBranch_writtenBack (k : Nat) : (s.openBranch k).writtenBack = s.writtenBack := rfl
@[simp] theorem openBranch_cycle (k : Nat) : (s.openBranch k).cycle = s.cycle := rfl
@[simp] theorem openBranch_started (k : Nat) : (s.openBranch k).started = s.started := rfl
@[simp] theorem openBranch_fault (k : Nat) : (s.openBranch k).fault = s.fault := rfl
@[simp] theorem openBranch_turn (k : Nat) : (s.openBranch k).turn = s.turn := rfl

/-! ## closeBranch -/

@[simp] theorem closeBranch_params : (s.closeBranch).params = s.params := rfl
@[simp] theorem closeBranch_mem : (s.closeBranch).mem = s.mem := rfl
@[simp] theorem closeBranch_reg : (s.closeBranch).reg = s.reg := rfl
@[simp] theorem closeBranch_regStat : (s.closeBranch).regStat = s.regStat := rfl
@[simp] theorem closeBranch_stations : (s.closeBranch).stations = s.stations := rfl
@[simp] theorem closeBranch_pc : (s.closeBranch).pc = s.pc := rfl
@[simp] theorem closeBranch_branchPending : (s.closeBranch).branchPending = false := rfl
@[simp] theorem closeBranch_jumpPending : (s.closeBranch).jumpPending = s.jumpPending := rfl
@[simp] theorem closeBranch_pendingBranch : (s.closeBranch).pendingBranch = none := rfl
@[simp] theorem closeBranch_checkpoint : (s.closeBranch).checkpoint = none := rfl
@[simp] theorem closeBranch_issuedAfterBranch : (s.closeBranch).issuedAfterBranch = s.issuedAfterBranch := rfl
@[simp] theorem closeBranch_branchesIssued : (s.closeBranch).branchesIssued = s.branchesIssued := rfl
@[simp] theorem closeBranch_mispredictions : (s.closeBranch).mispredictions = s.mispredictions := rfl
@[simp] theorem closeBranch_nextSeq : (s.closeBranch).nextSeq = s.nextSeq := rfl
@[simp] theorem closeBranch_issued : (s.closeBranch).issued = s.issued := rfl
@[simp] theorem closeBranch_executed : (s.closeBranch).executed = s.executed := rfl
@[simp] theorem closeBranch_writtenBack : (s.closeBranch).writtenBack = s.writtenBack := rfl
@[simp] theorem closeBranch_cycle : (s.closeBranch).cycle = s.cycle := rfl
@[simp] theorem closeBranch_started : (s.closeBranch).started = s.started := rfl
@[simp] theorem closeBranch_fault : (s.closeBranch).fault = s.fault := rfl
@[simp] theorem closeBranch_turn : (s.closeBranch).turn = s.turn := rfl

/-! ## openJump -/

@[simp] theorem openJump_params : (s.openJump).params = s.params := rfl
@[simp] theorem openJump_mem : (s.openJump).mem = s.mem := rfl
@[simp] theorem openJump_reg : (s.openJump).reg = s.reg := rfl
@[simp] theorem openJump_regStat : (s.openJump).regStat = s.regStat := rfl
@[simp] theorem openJump_stations : (s.openJump).stations = s.stations := rfl
@[simp] theorem openJump_pc : (s.openJump).pc = s.pc := rfl
@[simp] theorem openJump_branchPending : (s.openJump).branchPending = s.branchPending := rfl
@[simp] theorem openJump_jumpPending : (s.openJump).jumpPending = true := rfl
@[simp] theorem openJump_pendingBranch : (s.openJump).pendingBranch = s.pendingBranch := rfl
@[simp] theorem openJump_checkpoint : (s.openJump).checkpoint = s.checkpoint := rfl
@[simp] theorem openJump_issuedAfterBranch : (s.openJump).issuedAfterBranch = s.issuedAfterBranch := rfl
@[simp] theorem openJump_branchesIssued : (s.openJump).branchesIssued = s.branchesIssued := rfl
@[simp] theorem openJump_mispredictions : (s.openJump).mispredictions = s.mispredictions := rfl
@[simp] theorem openJump_nextSeq : (s.openJump).nextSeq = s.nextSeq := rfl
@[simp] theorem openJump_issued : (s.openJump).issued = s.issued := rfl
@[simp] theorem openJump_executed : (s.openJump).executed = s.executed := rfl
@[simp] theorem openJump_writtenBack : (s.openJump).writtenBack = s.writtenBack := rfl
@[simp] theorem openJump_cycle : (s.openJump).cycle = s.cycle := rfl
@[simp] theorem openJump_started : (s.openJump).started = s.started := rfl
@[simp] theorem openJump_fault : (s.openJump).fault = s.fault := rfl
@[simp] theorem openJump_turn : (s.openJump).turn = s.turn := rfl

/-! ## closeJump -/

@[simp] theorem closeJump_params (target : Int) : (s.closeJump target).params = s.params := rfl
@[simp] theorem closeJump_mem (target : Int) : (s.closeJump target).mem = s.mem := rfl
@[simp] theorem closeJump_reg (target : Int) : (s.closeJump target).reg = s.reg := rfl
@[simp] theorem closeJump_regStat (target : Int) : (s.closeJump target).regStat = s.regStat := rfl
@[simp] theorem closeJump_stations (target : Int) : (s.closeJump target).stations = s.stations := rfl
@[simp] theorem closeJump_pc (target : Int) : (s.closeJump target).pc = target := rfl
@[simp] theorem closeJump_branchPending (target : Int) : (s.closeJump target).branchPending = s.branchPending := rfl
@[simp] theorem closeJump_jumpPending (target : Int) : (s.closeJump target).jumpPending = false := rfl
@[simp] theorem closeJump_pendingBranch (target : Int) : (s.closeJump target).pendingBranch = s.pendingBranch := rfl
@[simp] theorem closeJump_checkpoint (target : Int) : (s.closeJump target).checkpoint = s.checkpoint := rfl
@[simp] theorem closeJump_issuedAfterBranch (target : Int) : (s.closeJump target).issuedAfterBranch =
    s.issuedAfterBranch := rfl
@[simp] theorem closeJump_branchesIssued (target : Int) : (s.closeJump target).branchesIssued =
    s.branchesIssued := rfl
@[simp] theorem closeJump_mispredictions (target : Int) : (s.closeJump target).mispredictions =
    s.mispredictions := rfl
@[simp] theorem closeJump_nextSeq (target : Int) : (s.closeJump target).nextSeq = s.nextSeq := rfl
@[simp] theorem closeJump_issued (target : Int) : (s.closeJump target).issued = s.issued := rfl
@[simp] theorem closeJump_executed (target : Int) : (s.closeJump target).executed = s.executed := rfl
@[simp] theorem closeJump_writtenBack (target : Int) : (s.closeJump target).writtenBack = s.writtenBack := rfl
@[simp] theorem closeJump_cycle (target : Int) : (s.closeJump target).cycle = s.cycle := rfl
@[simp] theorem closeJump_started (target : Int) : (s.closeJump target).started = s.started := rfl
@[simp] theorem closeJump_fault (target : Int) : (s.closeJump target).fault = s.fault := rfl
@[simp] theorem closeJump_turn (target : Int) : (s.closeJump target).turn = s.turn := rfl

/-! ## withTurn -/

@[simp] theorem withTurn_params (u : Turn) : (s.withTurn u).params = s.params := rfl
@[simp] theorem withTurn_mem (u : Turn) : (s.withTurn u).mem = s.mem := rfl
@[simp] theorem withTurn_reg (u : Turn) : (s.withTurn u).reg = s.reg := rfl
@[simp] theorem withTurn_regStat (u : Turn) : (s.withTurn u).regStat = s.regStat := rfl
@[simp] theorem withTurn_stations (u : Turn) : (s.withTurn u).stations = s.stations := rfl
@[simp] theorem withTurn_pc (u : Turn) : (s.withTurn u).pc = s.pc := rfl
@[simp] theorem withTurn_branchPending (u : Turn) : (s.withTurn u).branchPending = s.branchPending := rfl
@[simp] theorem withTurn_jumpPending (u : Turn) : (s.withTurn u).jumpPending = s.jumpPending := rfl
@[simp] theorem withTurn_pendingBranch (u : Turn) : (s.withTurn u).pendingBranch = s.pendingBranch := rfl
@[simp] theorem withTurn_checkpoint (u : Turn) : (s.withTurn u).checkpoint = s.checkpoint := rfl
@[simp] theorem withTurn_issuedAfterBranch (u : Turn) : (s.withTurn u).issuedAfterBranch = s.issuedAfterBranch := rfl
@[simp] theorem withTurn_branchesIssued (u : Turn) : (s.withTurn u).branchesIssued = s.branchesIssued := rfl
@[simp] theorem withTurn_mispredictions (u : Turn) : (s.withTurn u).mispredictions = s.mispredictions := rfl
@[simp] theorem withTurn_nextSeq (u : Turn) : (s.withTurn u).nextSeq = s.nextSeq := rfl
@[simp] theorem withTurn_issued (u : Turn) : (s.withTurn u).issued = s.issued := rfl
@[simp] theorem withTurn_executed (u : Turn) : (s.withTurn u).executed = s.executed := rfl
@[simp] theorem withTurn_writtenBack (u : Turn) : (s.withTurn u).writtenBack = s.writtenBack := rfl
@[simp] theorem withTurn_cycle (u : Turn) : (s.withTurn u).cycle = s.cycle := rfl
@[simp] theorem withTurn_started (u : Turn) : (s.withTurn u).started = s.started := rfl
@[simp] theorem withTurn_fault (u : Turn) : (s.withTurn u).fault = s.fault := rfl
@[simp] theorem withTurn_turn (u : Turn) : (s.withTurn u).turn = u := rfl

/-! ## enter -/

@[simp] theorem enter_params (i : Instr) (k : Nat) (S : Station) (p : Bool) : (s.enter i k S p).params =
    s.params := rfl
@[simp] theorem enter_mem (i : Instr) (k : Nat) (S : Station) (p : Bool) : (s.enter i k S p).mem = s.mem := rfl
@[simp] theorem enter_reg (i : Instr) (k : Nat) (S : Station) (p : Bool) : (s.enter i k S p).reg = s.reg := rfl
@[simp] theorem enter_regStat (i : Instr) (k : Nat) (S : Station) (p : Bool) : (s.enter i k S p).regStat =
    renamed (destOf i) k s.regStat := rfl
@[simp] theorem enter_stations (i : Instr) (k : Nat) (S : Station) (p : Bool) : (s.enter i k S p).stations =
    s.stations.set k S := rfl
@[simp] theorem enter_pc (i : Instr) (k : Nat) (S : Station) (p : Bool) : (s.enter i k S p).pc = s.pc + 1 := rfl
@[simp] theorem enter_branchPending (i : Instr) (k : Nat) (S : Station) (p : Bool) : (s.enter i k S p).branchPending =
    s.branchPending := rfl
@[simp] theorem enter_jumpPending (i : Instr) (k : Nat) (S : Station) (p : Bool) : (s.enter i k S p).jumpPending =
    s.jumpPending := rfl
@[simp] theorem enter_pendingBranch (i : Instr) (k : Nat) (S : Station) (p : Bool) : (s.enter i k S p).pendingBranch =
    s.pendingBranch := rfl
@[simp] theorem enter_checkpoint (i : Instr) (k : Nat) (S : Station) (p : Bool) : (s.enter i k S p).checkpoint =
    s.checkpoint := rfl
@[simp] theorem enter_issuedAfterBranch (i : Instr) (k : Nat) (S : Station) (p : Bool) : (s.enter i k S p).issuedAfterBranch =
    if p then s.issuedAfterBranch + 1 else s.issuedAfterBranch := rfl
@[simp] theorem enter_branchesIssued (i : Instr) (k : Nat) (S : Station) (p : Bool) : (s.enter i k S p).branchesIssued =
    s.branchesIssued := rfl
@[simp] theorem enter_mispredictions (i : Instr) (k : Nat) (S : Station) (p : Bool) : (s.enter i k S p).mispredictions =
    s.mispredictions := rfl
@[simp] theorem enter_nextSeq (i : Instr) (k : Nat) (S : Station) (p : Bool) : (s.enter i k S p).nextSeq =
    s.nextSeq + 1 := rfl
@[simp] theorem enter_issued (i : Instr) (k : Nat) (S : Station) (p : Bool) : (s.enter i k S p).issued =
    s.issued ++ [s.issueEntry i k] := rfl
@[simp] theorem enter_executed (i : Instr) (k : Nat) (S : Station) (p : Bool) : (s.enter i k S p).executed =
    s.executed := rfl
@[simp] theorem enter_writtenBack (i : Instr) (k : Nat) (S : Station) (p : Bool) : (s.enter i k S p).writtenBack =
    s.writtenBack := rfl
@[simp] theorem enter_cycle (i : Instr) (k : Nat) (S : Station) (p : Bool) : (s.enter i k S p).cycle =
    s.cycle := rfl
@[simp] theorem enter_started (i : Instr) (k : Nat) (S : Station) (p : Bool) : (s.enter i k S p).started =
    s.started := rfl
@[simp] theorem enter_fault (i : Instr) (k : Nat) (S : Station) (p : Bool) : (s.enter i k S p).fault =
    s.fault := rfl
@[simp] theorem enter_turn (i : Instr) (k : Nat) (S : Station) (p : Bool) : (s.enter i k S p).turn =
    s.turn := rfl

/-! ## beginCycle -/

@[simp] theorem beginCycle_params : (beginCycle s).params = s.params := rfl
@[simp] theorem beginCycle_mem : (beginCycle s).mem = s.mem := rfl
@[simp] theorem beginCycle_reg : (beginCycle s).reg = s.reg := rfl
@[simp] theorem beginCycle_regStat : (beginCycle s).regStat = s.regStat := rfl
@[simp] theorem beginCycle_stations : (beginCycle s).stations = s.stations.map Station.advanced := rfl
@[simp] theorem beginCycle_pc : (beginCycle s).pc = s.pc := rfl
@[simp] theorem beginCycle_branchPending : (beginCycle s).branchPending = s.branchPending := rfl
@[simp] theorem beginCycle_jumpPending : (beginCycle s).jumpPending = s.jumpPending := rfl
@[simp] theorem beginCycle_pendingBranch : (beginCycle s).pendingBranch = s.pendingBranch := rfl
@[simp] theorem beginCycle_checkpoint : (beginCycle s).checkpoint = s.checkpoint := rfl
@[simp] theorem beginCycle_issuedAfterBranch : (beginCycle s).issuedAfterBranch = s.issuedAfterBranch := rfl
@[simp] theorem beginCycle_branchesIssued : (beginCycle s).branchesIssued = s.branchesIssued := rfl
@[simp] theorem beginCycle_mispredictions : (beginCycle s).mispredictions = s.mispredictions := rfl
@[simp] theorem beginCycle_nextSeq : (beginCycle s).nextSeq = s.nextSeq := rfl
@[simp] theorem beginCycle_issued : (beginCycle s).issued = s.issued := rfl
@[simp] theorem beginCycle_executed : (beginCycle s).executed = s.executed := rfl
@[simp] theorem beginCycle_writtenBack : (beginCycle s).writtenBack = s.writtenBack := rfl
@[simp] theorem beginCycle_cycle : (beginCycle s).cycle = s.cycle + 1 := rfl
@[simp] theorem beginCycle_started : (beginCycle s).started = true := rfl
@[simp] theorem beginCycle_fault : (beginCycle s).fault = s.fault := rfl
@[simp] theorem beginCycle_turn : (beginCycle s).turn = .issue := rfl

/-! ## broadcast -/

@[simp] theorem broadcast_params (b : Broadcast) : (s.broadcast b).params = s.params := rfl
@[simp] theorem broadcast_mem (b : Broadcast) : (s.broadcast b).mem = s.mem := rfl
@[simp] theorem broadcast_reg (b : Broadcast) : (s.broadcast b).reg = broadcastRegs s b.entry.station b.value := rfl
@[simp] theorem broadcast_regStat (b : Broadcast) : (s.broadcast b).regStat = broadcastStatus s b.entry.station := rfl
@[simp] theorem broadcast_stations (b : Broadcast) : (s.broadcast b).stations =
    releasedAt b.entry.station (s.stations.map (Station.woken b.entry.station b.value)) := rfl
@[simp] theorem broadcast_pc (b : Broadcast) : (s.broadcast b).pc = s.pc := rfl
@[simp] theorem broadcast_branchPending (b : Broadcast) : (s.broadcast b).branchPending = s.branchPending := rfl
@[simp] theorem broadcast_jumpPending (b : Broadcast) : (s.broadcast b).jumpPending = s.jumpPending := rfl
@[simp] theorem broadcast_pendingBranch (b : Broadcast) : (s.broadcast b).pendingBranch = s.pendingBranch := rfl
@[simp] theorem broadcast_checkpoint (b : Broadcast) : (s.broadcast b).checkpoint = s.checkpoint := rfl
@[simp] theorem broadcast_issuedAfterBranch (b : Broadcast) : (s.broadcast b).issuedAfterBranch =
    s.issuedAfterBranch := rfl
@[simp] theorem broadcast_branchesIssued (b : Broadcast) : (s.broadcast b).branchesIssued = s.branchesIssued := rfl
@[simp] theorem broadcast_mispredictions (b : Broadcast) : (s.broadcast b).mispredictions = s.mispredictions := rfl
@[simp] theorem broadcast_nextSeq (b : Broadcast) : (s.broadcast b).nextSeq = s.nextSeq := rfl
@[simp] theorem broadcast_issued (b : Broadcast) : (s.broadcast b).issued = s.issued := rfl
@[simp] theorem broadcast_executed (b : Broadcast) : (s.broadcast b).executed = s.executed := rfl
@[simp] theorem broadcast_writtenBack (b : Broadcast) : (s.broadcast b).writtenBack =
    s.writtenBack ++ [{ b.entry with cycle := s.cycle }] := rfl
@[simp] theorem broadcast_cycle (b : Broadcast) : (s.broadcast b).cycle = s.cycle := rfl
@[simp] theorem broadcast_started (b : Broadcast) : (s.broadcast b).started = s.started := rfl
@[simp] theorem broadcast_fault (b : Broadcast) : (s.broadcast b).fault = s.fault := rfl
@[simp] theorem broadcast_turn (b : Broadcast) : (s.broadcast b).turn = s.turn := rfl

/-! ## writeReg -/

@[simp] theorem writeReg_params (r : RegIdx) (v : Word) : (s.writeReg r v).params = s.params := by
  unfold State.writeReg; split <;> rfl
@[simp] theorem writeReg_mem (r : RegIdx) (v : Word) : (s.writeReg r v).mem = s.mem := by
  unfold State.writeReg; split <;> rfl
@[simp] theorem writeReg_reg (r : RegIdx) (v : Word) :
    (s.writeReg r v).reg = if r = 0 then s.reg else s.reg.set r v := by
  unfold State.writeReg; split <;> rfl
@[simp] theorem writeReg_regStat (r : RegIdx) (v : Word) : (s.writeReg r v).regStat = s.regStat := by
  unfold State.writeReg; split <;> rfl
@[simp] theorem writeReg_stations (r : RegIdx) (v : Word) : (s.writeReg r v).stations = s.stations := by
  unfold State.writeReg; split <;> rfl
@[simp] theorem writeReg_pc (r : RegIdx) (v : Word) : (s.writeReg r v).pc = s.pc := by
  unfold State.writeReg; split <;> rfl
@[simp] theorem writeReg_branchPending (r : RegIdx) (v : Word) : (s.writeReg r v).branchPending = s.branchPending := by
  unfold State.writeReg; split <;> rfl
@[simp] theorem writeReg_jumpPending (r : RegIdx) (v : Word) : (s.writeReg r v).jumpPending = s.jumpPending := by
  unfold State.writeReg; split <;> rfl
@[simp] theorem writeReg_pendingBranch (r : RegIdx) (v : Word) : (s.writeReg r v).pendingBranch = s.pendingBranch := by
  unfold State.writeReg; split <;> rfl
@[simp] theorem writeReg_checkpoint (r : RegIdx) (v : Word) : (s.writeReg r v).checkpoint = s.checkpoint := by
  unfold State.writeReg; split <;> rfl
@[simp] theorem writeReg_issuedAfterBranch (r : RegIdx) (v : Word) : (s.writeReg r v).issuedAfterBranch = s.issuedAfterBranch := by
  unfold State.writeReg; split <;> rfl
@[simp] theorem writeReg_branchesIssued (r : RegIdx) (v : Word) : (s.writeReg r v).branchesIssued = s.branchesIssued := by
  unfold State.writeReg; split <;> rfl
@[simp] theorem writeReg_mispredictions (r : RegIdx) (v : Word) : (s.writeReg r v).mispredictions = s.mispredictions := by
  unfold State.writeReg; split <;> rfl
@[simp] theorem writeReg_nextSeq (r : RegIdx) (v : Word) : (s.writeReg r v).nextSeq = s.nextSeq := by
  unfold State.writeReg; split <;> rfl
@[simp] theorem writeReg_issued (r : RegIdx) (v : Word) : (s.writeReg r v).issued = s.issued := by
  unfold State.writeReg; split <;> rfl
@[simp] theorem writeReg_executed (r : RegIdx) (v : Word) : (s.writeReg r v).executed = s.executed := by
  unfold State.writeReg; split <;> rfl
@[simp] theorem writeReg_writtenBack (r : RegIdx) (v : Word) : (s.writeReg r v).writtenBack = s.writtenBack := by
  unfold State.writeReg; split <;> rfl
@[simp] theorem writeReg_cycle (r : RegIdx) (v : Word) : (s.writeReg r v).cycle = s.cycle := by
  unfold State.writeReg; split <;> rfl
@[simp] theorem writeReg_started (r : RegIdx) (v : Word) : (s.writeReg r v).started = s.started := by
  unfold State.writeReg; split <;> rfl
@[simp] theorem writeReg_fault (r : RegIdx) (v : Word) : (s.writeReg r v).fault = s.fault := by
  unfold State.writeReg; split <;> rfl
@[simp] theorem writeReg_turn (r : RegIdx) (v : Word) : (s.writeReg r v).turn = s.turn := by
  unfold State.writeReg; split <;> rfl

end Sys2Proof.Machine
end

