-- ==== Sys2Proof/Laws/Bank.lean ====
section
/-! SUPPORT. The banks of eight and the register file: an entry read after a write. -/

namespace Sys2Proof.Machine

variable {α : Type}

@[simp] theorem Bank.get_ofFn (f : RegIdx → α) (r : RegIdx) : (Bank.ofFn f).get r = f r := by
  fin_cases r <;> rfl

theorem Bank.ext_get {b c : Bank α} (h : ∀ r, b.get r = c.get r) : b = c := by
  cases b; cases c
  simp only [Bank.mk.injEq]
  exact ⟨h 0, h 1, h 2, h 3, h 4, h 5, h 6, h 7⟩

theorem Bank.get_set (b : Bank α) (r q : RegIdx) (v : α) : (b.set r v).get q = if q = r then v else b.get q := by
  simp [Bank.set]

@[simp] theorem Bank.get_set_self (b : Bank α) (r : RegIdx) (v : α) : (b.set r v).get r = v := by
  simp [Bank.get_set]

theorem Bank.get_set_ne (b : Bank α) {r q : RegIdx} (v : α) (h : q ≠ r) : (b.set r v).get q = b.get q := by
  simp [Bank.get_set, h]

/-- R0 reads as zero in every state (R21). -/
@[simp] theorem readReg_zero (s : State) : s.readReg 0 = 0 := rfl

/-- A register read after a register write: R0 stays zero, and only the written register changes (R21). -/
theorem readReg_writeReg (s : State) (r q : RegIdx) (v : Word) :
    (s.writeReg r v).readReg q = if q = r ∧ r ≠ 0 then v else s.readReg q := by
  unfold State.readReg
  by_cases hr : r = 0
  · simp [hr]
  · by_cases h : q = r
    · subst h; simp [hr]
    · simp [hr, h, Bank.get_set]

/-- A renamed table names station `k` at the destination, unless that is R0, and is unchanged elsewhere (R121). -/
theorem get_renamed (dest : Option RegIdx) (k : Nat) (t : RegStat) (r : RegIdx) :
    (renamed dest k t).get r = if dest = some r ∧ r ≠ 0 then some k else t.get r := by
  unfold renamed
  cases dest with
  | none => simp
  | some d =>
    by_cases hd : d = 0
    · by_cases hr : d = r <;> simp_all
    · by_cases hr : d = r
      · subst hr; simp [hd]
      · simp [hd, hr, Bank.get_set, Ne.symm hr]

/-- The register file after a broadcast, read register by register (R133). -/
theorem get_broadcastRegs (s : State) (k : Nat) (v : Word) (r : RegIdx) :
    (broadcastRegs s k v).get r = if s.status r = some k ∧ r ≠ 0 then v else s.reg.get r := by
  simp [broadcastRegs]

/-- The register-status table after a broadcast (R133). -/
theorem get_broadcastStatus (s : State) (k : Nat) (r : RegIdx) :
    (broadcastStatus s k).get r = if s.status r = some k then none else s.status r := by
  simp [broadcastStatus]

end Sys2Proof.Machine
end

