-- ==== Sys2Proof/Laws/Configure.lean ====
section
/-! SUPPORT. Everything a configuration operation can do: the range check of a block, the words of a block, and which
fields of the engine an accepted operation leaves (R220, R242, R245). -/

namespace Sys2Proof.Machine

/-- The range check of R242. -/
theorem blockProblem_eq_none_iff (a : Int) (n : Nat) : blockProblem a n = none ↔ 0 ≤ a ∧ a + n - 1 ≤ 65535 := by
  unfold blockProblem
  split
  · simp_all
  · split <;> simp_all

theorem blockProblem_of_neg {a : Int} (n : Nat) (h : a < 0) : blockProblem a n = some a := by
  rw [blockProblem, if_neg (by omega), if_pos h]

theorem blockProblem_of_above {a : Int} {n : Nat} (h : 0 ≤ a) (h' : 65535 < a + n - 1) :
    blockProblem a n = some (max a 65536) := by
  rw [blockProblem, if_neg (by omega), if_neg (by omega)]

theorem valueInRange_iff (v : Int) : valueInRange v = true ↔ -32768 ≤ v ∧ v ≤ 65535 := by
  simp [valueInRange]

/-- A block of records encodes exactly when each of them does. -/
theorem encodeAll_ok_iff (p : Params) (rs : List Record) :
    (∃ ws, encodeAll p rs = .ok ws) ↔ ∀ r ∈ rs, ∃ w, encodeRecord p r = .ok w := by
  induction rs with
  | nil => simp [encodeAll]
  | cons r rs ih =>
    simp only [List.mem_cons, forall_eq_or_imp, ← ih, encodeAll]
    cases encodeRecord p r <;> cases encodeAll p rs <;> simp [bind, Except.bind]

/-- The error of a block of records is that of the first which fails. -/
theorem encodeAll_error {p : Params} {rs : List Record} {r : Record} {e : ValidationError} (rest : List Record)
    (h : ∀ q ∈ rs, ∃ w, encodeRecord p q = .ok w) (he : encodeRecord p r = .error e) :
    encodeAll p (rs ++ r :: rest) = .error e := by
  induction rs with
  | nil => simp [encodeAll, he, bind, Except.bind]
  | cons q rs ih =>
    obtain ⟨⟨w, hw⟩, h⟩ := List.forall_mem_cons.mp h
    simp [encodeAll, hw, bind, Except.bind, ih h]

/-- A block of data is accepted exactly when each value is in range. -/
theorem dataWords_ok_iff (vs : List Int) : (∃ ws, dataWords vs = .ok ws) ↔ ∀ v ∈ vs, valueInRange v = true := by
  induction vs with
  | nil => simp [dataWords]
  | cons v vs ih =>
    simp only [List.mem_cons, forall_eq_or_imp, ← ih, dataWords]
    cases valueInRange v <;> cases dataWords vs <;> simp [bind, Except.bind]

/-- The error of a block of data is that of the first value out of range. -/
theorem dataWords_error {vs : List Int} {v : Int} (rest : List Int) (h : ∀ u ∈ vs, valueInRange u = true)
    (hv : valueInRange v = false) : dataWords (vs ++ v :: rest) = .error (.rangeError .dataWord v) := by
  induction vs with
  | nil => simp [dataWords, hv, bind, Except.bind]
  | cons u vs ih =>
    obtain ⟨hu, h⟩ := List.forall_mem_cons.mp h
    simp [dataWords, hu, bind, Except.bind, ih h]

/-- What an accepted configuration operation leaves: it writes memory, registers or the PC, or adds one released
station, and nothing else. -/
theorem configure_ok_cases {op : ConfigOp} {s t : State} (h : configure op s = .ok t) :
    (∃ m, t = { s with mem := m }) ∨ (∃ r v, t = s.writeReg r v) ∨ (∃ a, inBounds a = true ∧ t = { s with pc := a }) ∨
    (∃ d, specProblem s.stations d = none ∧
      t = { s with stations := s.stations ++ [Station.released (acceptedDesc d)] }) := by
  unfold configure at h
  split at h
  · cases h
  cases op with
  | addStation d =>
    simp only [addStation] at h
    split at h <;> cases h
    exact .inr (.inr (.inr ⟨d, ‹_›, rfl⟩))
  | loadInstruction a r =>
    simp only [loadInstruction] at h
    split at h
    · cases hw : encodeRecord s.params r <;> simp [hw, bind, Except.bind] at h
      exact .inl ⟨_, h.symm⟩
    · cases h
  | bulkLoad a rs =>
    simp only [bulkLoad] at h
    split at h
    · cases h
    · cases hw : encodeAll s.params rs <;> simp [hw, bind, Except.bind] at h
      exact .inl ⟨_, h.symm⟩
  | loadData a vs =>
    simp only [loadData] at h
    split at h
    · cases h
    · cases hw : dataWords vs <;> simp [hw, bind, Except.bind] at h
      exact .inl ⟨_, h.symm⟩
  | setPC a =>
    simp only [setPC] at h
    split at h <;> cases h
    exact .inr (.inr (.inl ⟨a, ‹_›, rfl⟩))
  | setRegister r v =>
    simp only [setRegister] at h
    split at h
    · split at h <;> cases h
      exact .inr (.inl ⟨_, _, rfl⟩)
    · cases h

end Sys2Proof.Machine
end

