-- ==== Sys2Proof/Laws/Memory.lean ====
section
/-! SUPPORT. The memory: its canonical form is kept by every operation, and a word read after a write. -/

namespace Sys2Proof.Machine

theorem Memory.wfFrom_cons {lo b : Nat} {w : Word} {m : Memory} :
    Memory.wfFrom lo ((b, w) :: m) = true ↔
      lo ≤ b ∧ b < 65536 ∧ w ≠ unlistedWord ∧ Memory.wfFrom (b + 1) m = true := by
  simp [Memory.wfFrom, and_assoc]

/-- A lower starting point asks less. -/
theorem Memory.wfFrom_le {lo lo' : Nat} {m : Memory} (h : lo ≤ lo') (hm : Memory.wfFrom lo' m = true) :
    Memory.wfFrom lo m = true := by
  cases m with
  | nil => rfl
  | cons c rest =>
    obtain ⟨b, w⟩ := c
    obtain ⟨h1, h2⟩ := Memory.wfFrom_cons.1 hm
    exact Memory.wfFrom_cons.2 ⟨h.trans h1, h2⟩

/-- A write keeps the canonical form. -/
theorem Memory.wfFrom_set {lo a : Nat} {v : Word} {m : Memory} (hlo : lo ≤ a) (ha : a < 65536)
    (hm : Memory.wfFrom lo m = true) : Memory.wfFrom lo (m.set a v) = true := by
  induction m generalizing lo with
  | nil =>
    unfold Memory.set
    split
    · rfl
    · next hv => exact Memory.wfFrom_cons.2 ⟨hlo, ha, hv, rfl⟩
  | cons c rest ih =>
    obtain ⟨b, w⟩ := c
    obtain ⟨h1, h2, h3, h4⟩ := Memory.wfFrom_cons.1 hm
    unfold Memory.set
    split
    · next hab =>
      split
      · exact hm
      · next hv =>
        exact Memory.wfFrom_cons.2 ⟨hlo, ha, hv, Memory.wfFrom_cons.2 ⟨hab, h2, h3, h4⟩⟩
    · split
      · next hab =>
        subst hab
        split
        · exact Memory.wfFrom_le (by omega) h4
        · next hv => exact Memory.wfFrom_cons.2 ⟨hlo, ha, hv, h4⟩
      · exact Memory.wfFrom_cons.2 ⟨h1, h2, h3, ih (by omega) h4⟩

/-- A write inside the address space keeps the canonical form. -/
theorem Memory.wf_set {m : Memory} {a : Nat} {v : Word} (ha : a < 65536) (hm : m.wf = true) :
    (m.set a v).wf = true :=
  Memory.wfFrom_set (Nat.zero_le a) ha hm

/-- An address below every listed one reads as the unlisted word. -/
theorem Memory.get_of_lt {lo a : Nat} {m : Memory} (h : a < lo) (hm : Memory.wfFrom lo m = true) :
    m.get a = unlistedWord := by
  induction m generalizing lo with
  | nil => rfl
  | cons c rest ih =>
    obtain ⟨b, w⟩ := c
    obtain ⟨h1, _, _, h4⟩ := Memory.wfFrom_cons.1 hm
    have hne : a ≠ b := by omega
    simpa [Memory.get, hne] using ih (lo := b + 1) (by omega) h4

/-- A word read after a write, in a canonical memory: the written word at its address, the old word elsewhere. -/
theorem Memory.get_set_of_wfFrom {lo : Nat} {m : Memory} (hm : Memory.wfFrom lo m = true) (a b : Nat) (v : Word) :
    (m.set a v).get b = if b = a then v else m.get b := by
  induction m generalizing lo with
  | nil =>
    by_cases hv : v = unlistedWord <;> by_cases hb : b = a <;> simp [Memory.set, Memory.get, hv, hb]
  | cons c rest ih =>
    obtain ⟨x, w⟩ := c
    obtain ⟨_, _, _, h4⟩ := Memory.wfFrom_cons.1 hm
    unfold Memory.set
    split
    · next hax =>
      have hlow : Memory.get rest a = unlistedWord := Memory.get_of_lt (lo := x + 1) (by omega) h4
      have hne : a ≠ x := by omega
      split <;> by_cases hb : b = a <;> simp_all [Memory.get]
    · split
      · next hax =>
        subst hax
        have hlow : Memory.get rest a = unlistedWord := Memory.get_of_lt (lo := a + 1) (by omega) h4
        split <;> by_cases hb : b = a <;> simp_all [Memory.get]
      · next hnlt hne =>
        have hih := ih h4
        by_cases hbx : b = x
        · subst hbx
          have : b ≠ a := fun h => hne h.symm
          simp [Memory.get, this]
        · simp [Memory.get, hbx, hih]

theorem Memory.get_set {m : Memory} (hm : m.wf = true) (a b : Nat) (v : Word) :
    (m.set a v).get b = if b = a then v else m.get b :=
  Memory.get_set_of_wfFrom hm a b v

/-- A block write keeps the canonical form. -/
theorem Memory.wf_setBlock {ws : List Word} {m : Memory} {a : Nat} (ha : a + ws.length ≤ 65536) (hm : m.wf = true) :
    (m.setBlock a ws).wf = true := by
  induction ws generalizing m a with
  | nil => exact hm
  | cons w ws ih =>
    simp only [List.length_cons] at ha
    exact ih (by omega) (Memory.wf_set (by omega) hm)

theorem inBounds_iff {a : Int} : inBounds a = true ↔ 0 ≤ a ∧ a ≤ 65535 := by simp [inBounds]

/-- What a memory write can answer (R62). -/
theorem memWrite_ok {m m' : Memory} {a : Int} {v : Word} (h : memWrite m a v = .ok m') :
    inBounds a = true ∧ m' = m.set a.toNat v := by
  unfold memWrite at h
  split at h
  · next hb => exact ⟨hb, by simpa using h.symm⟩
  · cases h

/-- A memory write that answers keeps the canonical form. -/
theorem wf_memWrite {m m' : Memory} {a : Int} {v : Word} (h : memWrite m a v = .ok m') (hm : m.wf = true) :
    m'.wf = true := by
  obtain ⟨hb, rfl⟩ := memWrite_ok h
  obtain ⟨h0, h1⟩ := inBounds_iff.1 hb
  exact Memory.wf_set (by omega) hm

/-- What a memory read can answer (R62). -/
theorem memRead_ok {m : Memory} {a : Int} {w : Word} (h : memRead m a = .ok w) :
    inBounds a = true ∧ w = m.get a.toNat := by
  unfold memRead at h
  split at h
  · next hb => exact ⟨hb, by simpa using h.symm⟩
  · cases h

/-- A read or a write outside the address space is the bounds error of that address (R62). -/
theorem memRead_error {m : Memory} {a : Int} (h : inBounds a = false) : memRead m a = .error (.boundsError a) := by
  simp [memRead, h]

theorem memWrite_error {m : Memory} {a : Int} {v : Word} (h : inBounds a = false) :
    memWrite m a v = .error (.boundsError a) := by
  simp [memWrite, h]

end Sys2Proof.Machine
end

