-- ==== Sys2Proof/Laws/Stations.lean ====
section
/-! SUPPORT. Sequencing of outcomes, allocation, and the list of stations under an update. -/

namespace Sys2Proof.Machine

/-! ## Outcomes in sequence -/

@[simp] theorem andThen_next (s : State) (f : State → Result State Fault Refusal) : andThen (.next s) f = f s := rfl

@[simp] theorem andThen_fault (r : Fault) (f : State → Result State Fault Refusal) :
    andThen (.fault r) f = .fault r := rfl

@[simp] theorem andThen_refused (r : Refusal) (f : State → Result State Fault Refusal) :
    andThen (.refused r) f = .refused r := rfl

/-- A sequence answers a next state exactly when both parts do. -/
theorem andThen_eq_next {o : Result State Fault Refusal} {f : State → Result State Fault Refusal} {t : State} :
    andThen o f = .next t ↔ ∃ u, o = .next u ∧ f u = .next t := by
  cases o <;> simp [andThen]

/-- A sequence is refused exactly when its first part is, or its second part is after the first. -/
theorem andThen_eq_refused {o : Result State Fault Refusal} {f : State → Result State Fault Refusal} {r : Refusal} :
    andThen o f = .refused r ↔ o = .refused r ∨ ∃ u, o = .next u ∧ f u = .refused r := by
  cases o <;> simp [andThen]

/-- A sequence faults exactly when its first part does, or its second part does after the first. -/
theorem andThen_eq_fault {o : Result State Fault Refusal} {f : State → Result State Fault Refusal} {r : Fault} :
    andThen o f = .fault r ↔ o = .fault r ∨ ∃ u, o = .next u ∧ f u = .fault r := by
  cases o <;> simp [andThen]

/-! ## One station replaced -/

theorem holds_lt {s : State} {k : Nat} {S : Station} (h : s.holds k S) : k < s.stations.length := by
  by_contra hk
  rw [State.holds, List.getElem?_eq_none (by omega)] at h
  cases h

theorem holds_unique {s : State} {k : Nat} {S S' : Station} (h : s.holds k S) (h' : s.holds k S') : S = S' := by
  simpa [State.holds] using h.symm.trans h'

theorem holds_mem {s : State} {k : Nat} {S : Station} (h : s.holds k S) : S ∈ s.stations :=
  List.mem_of_getElem? h

/-- The stations after one is replaced. -/
theorem getElem?_set_of_holds {s : State} {k : Nat} {S : Station} (h : s.holds k S) (T : Station)
    (j : Nat) : (s.stations.set k T)[j]? = if j = k then some T else s.stations[j]? := by
  have hk := holds_lt h
  by_cases hj : j = k
  · subst hj; simp [hk]
  · simp [hj, Ne.symm hj]

/-- A member of the list after one station is replaced. -/
theorem mem_set_cases {l : List Station} {k : Nat} {T S : Station} (h : S ∈ l.set k T) : S = T ∨ S ∈ l :=
  (List.mem_or_eq_of_mem_set h).symm

/-! ## Allocation (R118) -/

theorem firstFreeFrom_some {kind : UnitKind} {l : List Station} {n k : Nat} {S : Station}
    (h : firstFreeFrom kind n l = some (k, S)) :
    n ≤ k ∧ l[k - n]? = some S ∧ S.desc.kind = kind ∧ S.busy = false := by
  induction l generalizing n with
  | nil => cases h
  | cons T rest ih =>
    unfold firstFreeFrom at h
    split at h
    · next hT =>
      obtain ⟨rfl, rfl⟩ : n = k ∧ T = S := by simpa using h
      exact ⟨le_refl _, by simp, hT.1, hT.2⟩
    · obtain ⟨h1, h2, h3⟩ := ih h
      refine ⟨by omega, ?_, h3⟩
      obtain ⟨d, hd⟩ : ∃ d, k - n = d + 1 := ⟨k - n - 1, by omega⟩
      rw [hd]
      simpa [show k - (n + 1) = d by omega] using h2

/-- The allocated station is in the list, free, and of the kind asked for (R118). -/
theorem firstFree_some {kind : UnitKind} {s : State} {k : Nat} {S : Station}
    (h : firstFree kind s.stations = some (k, S)) : s.holds k S ∧ S.desc.kind = kind ∧ S.busy = false := by
  obtain ⟨_, h2, h3⟩ := firstFreeFrom_some h
  exact ⟨by simpa using h2, h3⟩

/-! ## The order of visits (R126) -/

theorem mem_insertBySeq {x y : Nat × Nat} {l : List (Nat × Nat)} :
    y ∈ insertBySeq x l ↔ y = x ∨ y ∈ l := by
  induction l with
  | nil => simp [insertBySeq]
  | cons z zs ih => unfold insertBySeq; split <;> simp [ih]; tauto

theorem mem_sortBySeq {y : Nat × Nat} {l : List (Nat × Nat)} : y ∈ sortBySeq l ↔ y ∈ l := by
  induction l with
  | nil => simp [sortBySeq]
  | cons z zs ih => simp [sortBySeq, mem_insertBySeq, ih]

end Sys2Proof.Machine
end

