-- ==== Sys2Proof/Laws/Exec.lean ====
section
/-! SUPPORT. Everything an instruction's meaning can do, said once: its Issue part (`exec_issue_cases`) and its Execute
part on one station (`exec_execute_cases`). Proofs over `exec` cite these two lemmas and unfold no meaning. -/

namespace Sys2Proof.Machine

/-! ## The Issue part -/

/-- The flags and counters that an instruction's issue into station `k` writes (R191, R199, R202). -/
def issueFlag (i : Instr) (k : Nat) (s : State) : State :=
  match i with
  | .beq _ _ _ => s.openBranch k
  | .call _ | .ret => s.openJump
  | .load _ _ _ | .store _ _ _ | .add _ _ _ | .sub _ _ _ | .nor _ _ _ | .mul _ _ _ => s

/-- The slots and `A` that an instruction's issue writes into its station (R30, R31). -/
def issueFill (i : Instr) (s : State) (S : Station) : Station :=
  match i with
  | .load _ rB o => { S.withSlots (capture s rB) unusedSlot with a := o }
  | .store rA rB o => { S.withSlots (capture s rB) (capture s rA) with a := o }
  | .beq rA rB o => { S.withSlots (capture s rA) (capture s rB) with a := o }
  | .call l => { S.withSlots unusedSlot unusedSlot with a := callTarget s l }
  | .ret => { S.withSlots unusedSlot unusedSlot with a := unsigned (s.readReg 1) }
  | .add _ rB rC | .sub _ rB rC | .nor _ rB rC | .mul _ rB rC => S.withSlots (capture s rB) (capture s rC)

/-- The state after the issue of `i` into station `k`, which held `S` (R125). -/
def issuedInto (i : Instr) (k : Nat) (S : Station) (s : State) : State :=
  (issueFlag i k s).enter i k (issueFill i s (S.occupied s i)) s.branchPending

theorem issueWith_cases {i : Instr} {fill : Station → Station} {flag : Nat → State → State} {s t : State}
    (h : issueWith i fill flag s = .next t) :
    t = s ∨ ∃ k S, firstFree (unitKind i.opcode) s.stations = some (k, S) ∧
      t = (flag k s).enter i k (fill (S.occupied s i)) s.branchPending := by
  unfold issueWith at h
  split at h
  · exact .inl (by simpa using h.symm)
  · next k S hf => exact .inr ⟨k, S, hf, by simpa using h.symm⟩

/-- What the Issue part of an instruction can answer: a stall that changes nothing, or the issue into the first free
station of its kind; a BEQ issues only while no branch is pending (R118, R119, R125). -/
theorem exec_issue_cases {i : Instr} {s t : State} (hturn : s.turn = .issue) (h : exec i s = .next t) :
    t = s ∨ ∃ k S, firstFree (unitKind i.opcode) s.stations = some (k, S) ∧ t = issuedInto i k S s ∧
      (i.opcode = .beq → s.branchPending = false) := by
  have key : issueWith i (issueFill i s) (issueFlag i) s = .next t → (i.opcode = .beq → s.branchPending = false) →
      t = s ∨ ∃ k S, firstFree (unitKind i.opcode) s.stations = some (k, S) ∧ t = issuedInto i k S s ∧
        (i.opcode = .beq → s.branchPending = false) := by
    intro hw hb
    obtain h | ⟨k, S, hf, ht⟩ := issueWith_cases hw
    · exact .inl h
    · exact .inr ⟨k, S, hf, ht, hb⟩
  cases i with
  | load rA rB o => simp only [exec, execLoad, hturn] at h; exact key h (by simp [Instr.opcode])
  | store rA rB o => simp only [exec, execStore, hturn] at h; exact key h (by simp [Instr.opcode])
  | beq rA rB o =>
    simp only [exec, execBeq, hturn] at h
    split at h
    · split at h
      · exact .inl (by simpa using h.symm)
      · cases h
    · next hb => exact key h (fun _ => by simpa using hb)
  | call l => simp only [exec, execCall, hturn] at h; exact key h (by simp [Instr.opcode])
  | ret =>
    simp only [exec, execRet, hturn] at h
    split at h
    · cases h
    · exact key h (by simp [Instr.opcode])
  | add rA rB rC => simp only [exec, execAdd, hturn] at h; exact key h (by simp [Instr.opcode])
  | sub rA rB rC => simp only [exec, execSub, hturn] at h; exact key h (by simp [Instr.opcode])
  | nor rA rB rC => simp only [exec, execNor, hturn] at h; exact key h (by simp [Instr.opcode])
  | mul rA rB rC => simp only [exec, execMul, hturn] at h; exact key h (by simp [Instr.opcode])

/-! The fields after an issue. -/

section IssueFields

variable (i : Instr) (k : Nat) (S : Station) (s : State)

@[simp] theorem issuedInto_stations :
    (issuedInto i k S s).stations = s.stations.set k (issueFill i s (S.occupied s i)) := by
  cases i <;> simp [issuedInto, issueFlag]

@[simp] theorem issuedInto_regStat :
    (issuedInto i k S s).regStat = renamed (destOf i) k s.regStat := by
  cases i <;> simp [issuedInto, issueFlag]

@[simp] theorem issuedInto_mem :
    (issuedInto i k S s).mem = s.mem := by
  cases i <;> simp [issuedInto, issueFlag]

@[simp] theorem issuedInto_reg :
    (issuedInto i k S s).reg = s.reg := by
  cases i <;> simp [issuedInto, issueFlag]

@[simp] theorem issuedInto_params :
    (issuedInto i k S s).params = s.params := by
  cases i <;> simp [issuedInto, issueFlag]

@[simp] theorem issuedInto_nextSeq :
    (issuedInto i k S s).nextSeq = s.nextSeq + 1 := by
  cases i <;> simp [issuedInto, issueFlag]

@[simp] theorem issuedInto_pc :
    (issuedInto i k S s).pc = s.pc + 1 := by
  cases i <;> simp [issuedInto, issueFlag]

@[simp] theorem issuedInto_issued :
    (issuedInto i k S s).issued = s.issued ++ [s.issueEntry i k] := by
  cases i <;> simp [issuedInto, issueFlag, State.issueEntry]

@[simp] theorem issuedInto_branchPending :
    (issuedInto i k S s).branchPending = (decide (i.opcode = .beq) || s.branchPending) := by
  cases i <;> simp [issuedInto, issueFlag, Instr.opcode]

@[simp] theorem issuedInto_pendingBranch :
    (issuedInto i k S s).pendingBranch = if i.opcode = .beq then some k else s.pendingBranch := by
  cases i <;> simp [issuedInto, issueFlag, Instr.opcode]

@[simp] theorem issuedInto_checkpoint :
    (issuedInto i k S s).checkpoint = if i.opcode = .beq then some s.regStat else s.checkpoint := by
  cases i <;> simp [issuedInto, issueFlag, Instr.opcode]

@[simp] theorem issuedInto_jumpPending :
    (issuedInto i k S s).jumpPending = (isJump i.opcode || s.jumpPending) := by
  cases i <;> simp [issuedInto, issueFlag, Instr.opcode, isJump]

@[simp] theorem issuedInto_executed :
    (issuedInto i k S s).executed = s.executed := by
  cases i <;> simp [issuedInto, issueFlag]

@[simp] theorem issuedInto_writtenBack :
    (issuedInto i k S s).writtenBack = s.writtenBack := by
  cases i <;> simp [issuedInto, issueFlag]

@[simp] theorem issuedInto_cycle :
    (issuedInto i k S s).cycle = s.cycle := by
  cases i <;> simp [issuedInto, issueFlag]

@[simp] theorem issuedInto_started :
    (issuedInto i k S s).started = s.started := by
  cases i <;> simp [issuedInto, issueFlag]

@[simp] theorem issuedInto_fault :
    (issuedInto i k S s).fault = s.fault := by
  cases i <;> simp [issuedInto, issueFlag]

@[simp] theorem issuedInto_turn :
    (issuedInto i k S s).turn = s.turn := by
  cases i <;> simp [issuedInto, issueFlag]

@[simp] theorem issuedInto_mispredictions :
    (issuedInto i k S s).mispredictions = s.mispredictions := by
  cases i <;> simp [issuedInto, issueFlag]

@[simp] theorem issuedInto_issuedAfterBranch :
    (issuedInto i k S s).issuedAfterBranch = if s.branchPending then s.issuedAfterBranch + 1 else s.issuedAfterBranch := by
  cases i <;> simp [issuedInto, issueFlag]

@[simp] theorem issuedInto_branchesIssued :
    (issuedInto i k S s).branchesIssued = if i.opcode = .beq then s.branchesIssued + 1 else s.branchesIssued := by
  cases i <;> simp [issuedInto, issueFlag, Instr.opcode]

/-- The common fields of the station after an issue (R121). -/
theorem issueFill_fields :
    (issueFill i s (S.occupied s i)).desc = S.desc ∧ (issueFill i s (S.occupied s i)).busy = true ∧
    (issueFill i s (S.occupied s i)).op = some i.opcode ∧ (issueFill i s (S.occupied s i)).instr = some i ∧
    (issueFill i s (S.occupied s i)).seq = s.nextSeq ∧ (issueFill i s (S.occupied s i)).result = none ∧
    (issueFill i s (S.occupied s i)).cyclesPassed = 0 := by
  cases i <;> exact ⟨rfl, rfl, rfl, rfl, rfl, rfl, rfl⟩

end IssueFields

/-! ## The Execute part -/

/-- The four results of R170 are 16-bit arithmetic. -/
theorem aluAdd_eq (x y : Word) : aluAdd x y = x + y := by
  simp [aluAdd, bv16, unsigned, BitVec.ofInt_add]

theorem aluSub_eq (x y : Word) : aluSub x y = x - y := by
  rw [aluSub, bv16, unsigned, unsigned, Int.sub_eq_add_neg, BitVec.ofInt_add, BitVec.ofInt_neg]
  simp [BitVec.sub_eq_add_neg]

theorem aluNor_eq (x y : Word) : aluNor x y = ~~~(x ||| y) := rfl

theorem aluMul_eq (x y : Word) : aluMul x y = x * y := by
  simp [aluMul, bv16, unsigned, BitVec.ofInt_mul]

/-- What an address phase leaves: the station as it was, or with its effective address (R150). -/
theorem addressPhase_cases {S T : Station} (h : addressPhase S = some T) :
    T = S ∨ ∃ base, S.vj = some base ∧ T = { S with a := effectiveAddress base S.a, addrReady := true } := by
  unfold addressPhase at h
  split at h
  · split at h
    · next base hb => exact .inr ⟨base, hb, by simpa using h.symm⟩
    · cases h
  · exact .inl (by simpa using h.symm)

/-- An address phase changes `A` and `addrReady` only. -/
theorem addressPhase_fields {S T : Station} (h : addressPhase S = some T) :
    T.desc = S.desc ∧ T.busy = S.busy ∧ T.op = S.op ∧ T.instr = S.instr ∧ T.seq = S.seq ∧ T.result = S.result ∧
      T.cyclesPassed = S.cyclesPassed ∧ T.vj = S.vj ∧ T.vk = S.vk ∧ T.qj = S.qj ∧ T.qk = S.qk := by
  obtain rfl | ⟨b, hb, rfl⟩ := addressPhase_cases h <;> simp

/-- With its base present, the address phase leaves the station addressed (R150). -/
theorem addressPhase_eq {S : Station} {base : Word} (h : S.vj = some base) :
    addressPhase S = some (addressed S base) := by
  unfold addressPhase addressed
  split <;> simp [h]

/-- The hazard check is the conflict of R151. -/
theorem olderConflict_iff (s : State) (S : Station) (kinds : List OpCode) :
    olderConflict s S kinds = true ↔ OlderConflict s S kinds := by
  simp [olderConflict, OlderConflict, conflictsWith, and_assoc]

/-! The fields after a branch not taken. -/

@[simp] theorem branchNotTaken_params (s : State) (B : Station) :
    (branchNotTaken s B).params = s.params := by
  unfold branchNotTaken; split <;> simp

@[simp] theorem branchNotTaken_mem (s : State) (B : Station) :
    (branchNotTaken s B).mem = s.mem := by
  unfold branchNotTaken; split <;> simp

@[simp] theorem branchNotTaken_reg (s : State) (B : Station) :
    (branchNotTaken s B).reg = s.reg := by
  unfold branchNotTaken; split <;> simp

@[simp] theorem branchNotTaken_regStat (s : State) (B : Station) :
    (branchNotTaken s B).regStat = s.regStat := by
  unfold branchNotTaken; split <;> simp

@[simp] theorem branchNotTaken_stations (s : State) (B : Station) :
    (branchNotTaken s B).stations = s.stations := by
  unfold branchNotTaken; split <;> simp

@[simp] theorem branchNotTaken_jumpPending (s : State) (B : Station) :
    (branchNotTaken s B).jumpPending = s.jumpPending := by
  unfold branchNotTaken; split <;> simp

@[simp] theorem branchNotTaken_issuedAfterBranch (s : State) (B : Station) :
    (branchNotTaken s B).issuedAfterBranch = s.issuedAfterBranch := by
  unfold branchNotTaken; split <;> simp

@[simp] theorem branchNotTaken_branchesIssued (s : State) (B : Station) :
    (branchNotTaken s B).branchesIssued = s.branchesIssued := by
  unfold branchNotTaken; split <;> simp

@[simp] theorem branchNotTaken_mispredictions (s : State) (B : Station) :
    (branchNotTaken s B).mispredictions = s.mispredictions := by
  unfold branchNotTaken; split <;> simp

@[simp] theorem branchNotTaken_nextSeq (s : State) (B : Station) :
    (branchNotTaken s B).nextSeq = s.nextSeq := by
  unfold branchNotTaken; split <;> simp

@[simp] theorem branchNotTaken_issued (s : State) (B : Station) :
    (branchNotTaken s B).issued = s.issued := by
  unfold branchNotTaken; split <;> simp

@[simp] theorem branchNotTaken_executed (s : State) (B : Station) :
    (branchNotTaken s B).executed = s.executed := by
  unfold branchNotTaken; split <;> simp

@[simp] theorem branchNotTaken_writtenBack (s : State) (B : Station) :
    (branchNotTaken s B).writtenBack = s.writtenBack := by
  unfold branchNotTaken; split <;> simp

@[simp] theorem branchNotTaken_cycle (s : State) (B : Station) :
    (branchNotTaken s B).cycle = s.cycle := by
  unfold branchNotTaken; split <;> simp

@[simp] theorem branchNotTaken_started (s : State) (B : Station) :
    (branchNotTaken s B).started = s.started := by
  unfold branchNotTaken; split <;> simp

@[simp] theorem branchNotTaken_fault (s : State) (B : Station) :
    (branchNotTaken s B).fault = s.fault := by
  unfold branchNotTaken; split <;> simp

@[simp] theorem branchNotTaken_turn (s : State) (B : Station) :
    (branchNotTaken s B).turn = s.turn := by
  unfold branchNotTaken; split <;> simp

@[simp] theorem branchNotTaken_branchPending (s : State) (B : Station) :
    (branchNotTaken s B).branchPending = false := by
  unfold branchNotTaken; split <;> simp

@[simp] theorem branchNotTaken_pendingBranch (s : State) (B : Station) :
    (branchNotTaken s B).pendingBranch = none := by
  unfold branchNotTaken; split <;> simp

@[simp] theorem branchNotTaken_checkpoint (s : State) (B : Station) :
    (branchNotTaken s B).checkpoint = none := by
  unfold branchNotTaken; split <;> simp

/-- The next states that the Execute part of `i` can answer on station `k`, which holds `S` (R127). -/
inductive Executes (i : Instr) (k : Nat) (S : Station) (s : State) : State → Prop where
  /-- Nothing is due. -/
  | idle : Executes i k S s s
  /-- A LOAD or STORE whose address phase may have run, and which waits (R150, R151). -/
  | waits (T : Station) (hop : i.opcode = .load ∨ i.opcode = .store) (hT : addressPhase S = some T) :
      Executes i k S s (s.setStation k T)
  /-- An ALU result (R175). -/
  | result (x y : Word) (halu : (aluFields i).isSome = true) (hj : S.vj = some x) (hk : S.vk = some y)
      (hr : S.result = none) (hdue : S.cyclesPassed = S.desc.cyclesNeeded) :
      Executes i k S s ((s.setStation k { S with result := some (aluResult i x y) }).logExecuted k S i)
  /-- A LOAD's read (R152). -/
  | reads (T : Station) (hop : i.opcode = .load) (hT : addressPhase S = some T) (hr : T.result = none) (w : Word)
      (hw : memRead s.mem T.a = .ok w) (hdue : T.cyclesPassed = T.desc.cyclesNeeded)
      (hfree : olderConflict (s.setStation k T) T [.store] = false) :
      Executes i k S s (((s.setStation k T).setStation k { T with result := some w }).logExecuted k T i)
  /-- A STORE's write (R155). -/
  | writes (T : Station) (hop : i.opcode = .store) (hT : addressPhase S = some T) (v : Word) (hv : T.vk = some v)
      (m : Memory) (hm : memWrite s.mem T.a v = .ok m) (hdue : T.cyclesPassed = T.desc.cyclesNeeded)
      (hfree : olderConflict (s.setStation k T) T [.load, .store] = false) :
      Executes i k S s ((({ s.setStation k T with mem := m }).logCompleted k T i).release k T)
  /-- A taken BEQ (R192): `table` is what the recovery policy makes of the register-status table (R196). -/
  | taken (x : Word) (hop : i.opcode = .beq) (hj : S.vj = some x) (hk : S.vk = some x) (table : RegStat)
      (htable : s.checkpoint = some table ∨ table = s.regStat)
      (hrestore : s.params.squashRegStatPolicy = .restore → s.checkpoint = some table)
      (hdue : S.cyclesPassed = S.desc.cyclesNeeded) :
      Executes i k S s
        (State.release
          { (s.logCompleted k S i).closeBranch with
            pc := branchTarget S
            mispredictions := s.mispredictions + 1
            issued := truncatedIssued S s.issued
            issuedAfterBranch := 0
            regStat := table
            stations := squashed S s.stations
            jumpPending := false } k S)
  /-- A BEQ not taken (R193). -/
  | notTaken (x y : Word) (hop : i.opcode = .beq) (hj : S.vj = some x) (hk : S.vk = some y) (hne : x ≠ y)
      (hdue : S.cyclesPassed = S.desc.cyclesNeeded) :
      Executes i k S s ((branchNotTaken (s.logCompleted k S i) S).release k S)
  /-- A CALL's link and jump (R199, R200). -/
  | calls (hop : i.opcode = .call) (hdue : S.cyclesPassed = S.desc.cyclesNeeded) :
      Executes i k S s
        ((((s.writeReg 1 (bv16 (S.originalPC + 1))).closeJump S.a).logCompleted k S i).release k S)
  /-- A RET's jump (R202). -/
  | returns (hop : i.opcode = .ret) (hdue : S.cyclesPassed = S.desc.cyclesNeeded) :
      Executes i k S s (((s.closeJump S.a).logCompleted k S i).release k S)

theorem onStation_next {k : Nat} {s t : State} {f : Station → Result State Fault Refusal}
    (h : onStation k s f = .next t) : ∃ S, s.holds k S ∧ f S = .next t := by
  unfold onStation at h
  split at h
  · next S hS => exact ⟨S, hS, h⟩
  · cases h

theorem completeAlu_cases {i : Instr} {f : Word → Word → Word} {k : Nat} {s t : State}
    (halu : (aluFields i).isSome = true) (hf : ∀ x y, f x y = aluResult i x y)
    (h : completeAlu i f k s = .next t) : ∃ S, s.holds k S ∧ Executes i k S s t := by
  obtain ⟨S, hS, h⟩ := onStation_next h
  refine ⟨S, hS, ?_⟩
  split at h
  · next hc =>
    split at h
    · next x y hx hy =>
      obtain rfl : _ = t := by simpa using h
      rw [hf]
      exact .result x y halu hx hy hc.1 hc.2
    · cases h
  · obtain rfl : s = t := by simpa using h
    exact .idle

theorem completeLoad_cases {i : Instr} {k : Nat} {s t : State} (hop : i.opcode = .load)
    (h : completeLoad i k s = .next t) : ∃ S, s.holds k S ∧ Executes i k S s t := by
  obtain ⟨S, hS, h⟩ := onStation_next h
  refine ⟨S, hS, ?_⟩
  split at h
  · cases h
  · next T hT =>
    dsimp only at h
    split at h
    · next hc =>
      split at h
      · obtain rfl : _ = t := by simpa using h
        exact .waits T (.inl hop) hT
      · next hfree =>
        split at h
        · cases h
        · next w hw =>
          obtain rfl : _ = t := by simpa using h
          exact .reads T hop hT hc.1 w (by simpa using hw) hc.2 (by simpa using hfree)
    · obtain rfl : _ = t := by simpa using h
      exact .waits T (.inl hop) hT

theorem completeStore_cases {i : Instr} {k : Nat} {s t : State} (hop : i.opcode = .store)
    (h : completeStore i k s = .next t) : ∃ S, s.holds k S ∧ Executes i k S s t := by
  obtain ⟨S, hS, h⟩ := onStation_next h
  refine ⟨S, hS, ?_⟩
  split at h
  · cases h
  · next T hT =>
    dsimp only at h
    split at h
    · next hdue =>
      split at h
      · obtain rfl : _ = t := by simpa using h
        exact .waits T (.inr hop) hT
      · next hfree =>
        split at h
        · cases h
        · next v hv =>
          split at h
          · cases h
          · next m hm =>
            obtain rfl : _ = t := by simpa using h
            exact .writes T hop hT v hv m (by simpa using hm) hdue (by simpa using hfree)
    · obtain rfl : _ = t := by simpa using h
      exact .waits T (.inr hop) hT

/-- The table that a taken BEQ leaves comes from the checkpoint, or is the table as it stands (R196). -/
theorem squashRegStat_cases {s t : State} {k : Nat} {B : Station} {f : RegStat → Result State Fault Refusal}
    (h : squashRegStat s k B f = .next t) :
    ∃ table, (s.checkpoint = some table ∨ table = s.regStat) ∧
      (s.params.squashRegStatPolicy = .restore → s.checkpoint = some table) ∧ f table = .next t := by
  unfold squashRegStat at h
  split at h
  · split at h
    · next c hc => exact ⟨c, .inl hc, fun _ => hc, h⟩
    · cases h
  · next hp => exact ⟨s.regStat, .inr rfl, fun hr => by simp [hr] at hp, h⟩
  · next hp =>
    split at h
    · cases h
    · exact ⟨s.regStat, .inr rfl, fun hr => by simp [hr] at hp, h⟩

theorem completeBeq_cases {i : Instr} {k : Nat} {s t : State} (hop : i.opcode = .beq)
    (h : completeBeq i k s = .next t) : ∃ S, s.holds k S ∧ Executes i k S s t := by
  obtain ⟨B, hB, h⟩ := onStation_next h
  refine ⟨B, hB, ?_⟩
  split at h
  · next hdue =>
    split at h
    · next x y hx hy =>
      dsimp only at h
      split at h
      · next hxy =>
        subst hxy
        obtain ⟨u, hu, ht⟩ := andThen_eq_next.1 h
        obtain ⟨table, h1, h2, h3⟩ := squashRegStat_cases hu
        obtain rfl : _ = u := by simpa using h3
        obtain rfl : _ = t := by simpa using ht
        exact .taken x hop hx hy table (by simpa using h1) (by simpa using h2) hdue
      · next hxy =>
        obtain rfl : _ = t := by simpa using h
        exact .notTaken x y hop hx hy hxy hdue
    · cases h
  · obtain rfl : s = t := by simpa using h
    exact .idle

theorem completeCall_cases {i : Instr} {k : Nat} {s t : State} (hop : i.opcode = .call)
    (h : completeCall i k s = .next t) : ∃ S, s.holds k S ∧ Executes i k S s t := by
  obtain ⟨S, hS, h⟩ := onStation_next h
  refine ⟨S, hS, ?_⟩
  split at h
  · next hdue =>
    obtain rfl : _ = t := by simpa using h
    exact .calls hop hdue
  · obtain rfl : s = t := by simpa using h
    exact .idle

theorem completeRet_cases {i : Instr} {k : Nat} {s t : State} (hop : i.opcode = .ret)
    (h : completeRet i k s = .next t) : ∃ S, s.holds k S ∧ Executes i k S s t := by
  obtain ⟨S, hS, h⟩ := onStation_next h
  refine ⟨S, hS, ?_⟩
  split at h
  · next hdue =>
    obtain rfl : _ = t := by simpa using h
    exact .returns hop hdue
  · obtain rfl : s = t := by simpa using h
    exact .idle

/-- What the Execute part of an instruction can answer on station `k` (R127). -/
theorem exec_execute_cases {i : Instr} {k : Nat} {s t : State} (hturn : s.turn = .execute k)
    (h : exec i s = .next t) : ∃ S, s.holds k S ∧ Executes i k S s t := by
  cases i with
  | load rA rB o => exact completeLoad_cases rfl (by simpa [exec, execLoad, hturn] using h)
  | store rA rB o => exact completeStore_cases rfl (by simpa [exec, execStore, hturn] using h)
  | beq rA rB o => exact completeBeq_cases rfl (by simpa [exec, execBeq, hturn] using h)
  | call l => exact completeCall_cases rfl (by simpa [exec, execCall, hturn] using h)
  | ret => exact completeRet_cases rfl (by simpa [exec, execRet, hturn] using h)
  | add rA rB rC => exact completeAlu_cases rfl aluAdd_eq (by simpa [exec, execAdd, hturn] using h)
  | sub rA rB rC => exact completeAlu_cases rfl aluSub_eq (by simpa [exec, execSub, hturn] using h)
  | nor rA rB rC => exact completeAlu_cases rfl aluNor_eq (by simpa [exec, execNor, hturn] using h)
  | mul rA rB rC => exact completeAlu_cases rfl aluMul_eq (by simpa [exec, execMul, hturn] using h)

end Sys2Proof.Machine
end

