-- ==== Sys2Proof/Laws/Step.lean ====
section
/-! SUPPORT. What a step can do, said once, and the induction over it: a property that Cycle-advance, an issue, an
Execute visit and Writeback each keep is kept by every step. -/

namespace Sys2Proof.Machine

/-- A visit that answers a next state skipped the station, or ran the Execute part of the instruction it holds, on a
busy, ready, unblocked station (R126). -/
theorem visit_cases {q : Nat} {k : Nat} {s t : State} (h : visit q k s = .next t) :
    t = s ∨ ∃ S i u, s.holds k S ∧ S.busy = true ∧ S.seq = q ∧ S.ready = true ∧ blocked s k S = false ∧
      S.instr = some i ∧ exec i (s.withTurn (.execute k)) = .next u ∧ t = u.withTurn .issue := by
  unfold visit at h
  split at h
  · exact .inl (by simpa using h.symm)
  · next S hS =>
    split at h
    · exact .inl (by simpa using h.symm)
    · next hbusy =>
      split at h
      · exact .inl (by simpa using h.symm)
      · next hblock =>
        split at h
        · exact .inl (by simpa using h.symm)
        · next hready =>
          split at h
          · cases h
          · next i hi =>
            obtain ⟨u, hu, ht⟩ := andThen_eq_next.1 h
            simp only [Bool.or_eq_true, Bool.not_eq_true', bne_iff_ne, ne_eq, not_or, Bool.not_eq_false,
              not_not] at hbusy
            exact .inr ⟨S, i, u, hS, hbusy.1, hbusy.2, by simpa using hready, by simpa using hblock, hi, hu,
              by simpa using ht.symm⟩

/-- The visits in order keep what each visit keeps. -/
theorem visitAll_induct {P : State → Prop} (hvisit : ∀ q k s t, P s → visit q k s = .next t → P t)
    {l : List (Nat × Nat)} {s t : State} (h : visitAll l s = .next t) (hs : P s) : P t := by
  induction l generalizing s with
  | nil => simpa [visitAll] using (by simpa [visitAll] using h : s = t) ▸ hs
  | cons x rest ih =>
    obtain ⟨q, k⟩ := x
    obtain ⟨u, hu, ht⟩ := andThen_eq_next.1 h
    exact ih ht (hvisit q k s u hs hu)

/-- What the Issue phase can answer (R114 to R117, R125): nothing, or what the decoded instruction's issue answers. -/
theorem issuePhase_cases {s t : State} (h : issuePhase s = .next t) :
    t = s ∨ ∃ i, s.jumpPending = false ∧ fetch s = .instr i ∧ exec i s = .next t := by
  unfold issuePhase at h
  split at h
  · exact .inl (by simpa using h.symm)
  · next hj =>
    split at h
    · exact .inl (by simpa using h.symm)
    · cases h
    · next i hf => exact .inr ⟨i, by simpa using hj, hf, h⟩

/-- A step that answers a next state started unfaulted and ran the four phases in order (R110). -/
theorem step_next {s t : State} (h : step s = .next t) :
    s.fault = none ∧ ∃ u v, issuePhase (beginCycle s) = .next u ∧ executePhase u = .next v ∧ t = writeback v := by
  unfold step at h
  split at h
  · cases h
  · next hf =>
    obtain ⟨u, hu, h2⟩ := andThen_eq_next.1 h
    obtain ⟨v, hv, h3⟩ := andThen_eq_next.1 h2
    exact ⟨hf, u, v, hu, hv, by simpa using h3.symm⟩

/-- Writeback does nothing or makes the one broadcast that the bus carries (R135). -/
theorem writeback_cases (s : State) : writeback s = s ∨ ∃ b, cdb s = some b ∧ writeback s = s.broadcast b := by
  unfold writeback
  split
  · exact .inl rfl
  · next b hb => exact .inr ⟨b, hb, rfl⟩

/-- What the bus carries: an Issued entry whose busy station still holds its instruction and has a result past
`cyclesNeeded`, while no branch is pending (R131, R132). -/
theorem cdb_some {s : State} {b : Broadcast} (h : cdb s = some b) :
    s.branchPending = false ∧ b.entry ∈ s.issued ∧
      ∃ S, s.holds b.entry.station S ∧ S.busy = true ∧ S.seq = b.entry.seq ∧
        S.desc.cyclesNeeded < S.cyclesPassed ∧ S.result = some b.value := by
  unfold cdb at h
  split at h
  · cases h
  · next hb =>
    refine ⟨by simpa using hb, ?_⟩
    generalize s.issued = l at h ⊢
    induction l with
    | nil => cases h
    | cons e rest ih =>
      unfold firstReady at h
      split at h
      · next v hv =>
        obtain rfl : _ = b := by simpa using h
        refine ⟨by simp, ?_⟩
        unfold ready? at hv
        split at hv
        · cases hv
        · next S hS =>
          split at hv
          · next hc => exact ⟨S, hS, hc.1, hc.2.1, hc.2.2, hv⟩
          · cases hv
      · obtain ⟨h1, h2⟩ := ih h
        exact ⟨List.mem_cons_of_mem _ h1, h2⟩

/-- The induction over a step. `begins`, `issues`, `executes` and `broadcasts` are the four phases. -/
theorem step_induct {P : State → Prop}
    (begins : ∀ s, P s → P (beginCycle s))
    (issues : ∀ s i k S, P s → s.turn = .issue → s.jumpPending = false → fetch s = .instr i →
      firstFree (unitKind i.opcode) s.stations = some (k, S) → (i.opcode = .beq → s.branchPending = false) →
      P (issuedInto i k S s))
    (executes : ∀ s i k S u, P s → s.holds k S → S.busy = true → S.ready = true → blocked s k S = false →
      S.instr = some i → Executes i k S (s.withTurn (.execute k)) u → P (u.withTurn .issue))
    (broadcasts : ∀ s b, P s → cdb s = some b → P (s.broadcast b))
    {s t : State} (h : step s = .next t) (hs : P s) : P t := by
  obtain ⟨-, u, v, hu, hv, rfl⟩ := step_next h
  have h1 : P u := by
    have h0 := begins s hs
    obtain rfl | ⟨i, hj, hf, hx⟩ := issuePhase_cases hu
    · exact h0
    · obtain rfl | ⟨k, S, hfree, rfl, hb⟩ := exec_issue_cases (by simp) hx
      · exact h0
      · exact issues _ i k S h0 (by simp) hj hf hfree hb
  have h2 : P v := by
    refine visitAll_induct (P := P) ?_ hv h1
    intro q k s t hs hvis
    obtain rfl | ⟨S, i, u, hS, hbusy, -, hready, hblock, hi, hx, rfl⟩ := visit_cases hvis
    · exact hs
    · obtain ⟨S', hS', hex⟩ := exec_execute_cases (k := k) (by simp) hx
      obtain rfl : S = S' := holds_unique hS hS'
      exact executes s i k S u hs hS hbusy hready hblock hi hex
  obtain h3 | ⟨b, hb, h3⟩ := writeback_cases v
  · rw [h3]; exact h2
  · rw [h3]; exact broadcasts v b h2 hb

/-- A wake-up changes operand slots only (R134). -/
theorem woken_fields (k : Nat) (v : Word) (T : Station) :
    (T.woken k v).desc = T.desc ∧ (T.woken k v).busy = T.busy ∧ (T.woken k v).op = T.op ∧
      (T.woken k v).instr = T.instr ∧ (T.woken k v).seq = T.seq ∧ (T.woken k v).result = T.result ∧
      (T.woken k v).cyclesPassed = T.cyclesPassed := by
  unfold Station.woken; split <;> simp [Station.withSlots]

/-- Cycle-advance changes `cyclesPassed` only (R112). -/
theorem advanced_fields (T : Station) :
    T.advanced.desc = T.desc ∧ T.advanced.busy = T.busy ∧ T.advanced.op = T.op ∧ T.advanced.instr = T.instr ∧
      T.advanced.seq = T.seq ∧ T.advanced.result = T.result ∧ T.advanced.qj = T.qj ∧ T.advanced.qk = T.qk ∧
      T.advanced.vj = T.vj ∧ T.advanced.vk = T.vk := by
  unfold Station.advanced; split <;> simp

/-- A release adds and removes no station (R136). -/
@[simp] theorem length_releasedAt (k : Nat) (l : List Station) : (releasedAt k l).length = l.length := by
  unfold releasedAt
  split <;> simp

theorem mem_releasedAt {k : Nat} {l : List Station} {T : Station} (h : T ∈ releasedAt k l) :
    T ∈ l ∨ ∃ d, T = Station.released d := by
  unfold releasedAt at h
  split at h
  · rcases List.mem_or_eq_of_mem_set h with h | h
    · exact .inl h
    · exact .inr ⟨_, h⟩
  · exact .inl h

/-! ## Properties of single stations, phase by phase

`p` holds of a released station, and Cycle-advance, an issue, an address phase, a result and a wake-up each keep it. -/

section StationLocal

variable {p : Station → Prop}

theorem begin_keeps_station (hadv : ∀ T, p T → p T.advanced) {s : State} (hs : ∀ S ∈ s.stations, p S) :
    ∀ S ∈ (beginCycle s).stations, p S := by
  intro S hS
  simp only [beginCycle, cycleAdvance, List.mem_map] at hS
  obtain ⟨T, hT, rfl⟩ := hS
  exact hadv T (hs T hT)

theorem issue_keeps_station
    (hissue : ∀ i s S, S.busy = false → S.desc.kind = unitKind i.opcode → p S → p (issueFill i s (S.occupied s i)))
    {i : Instr} {k : Nat} {S : Station} {s : State} (hs : ∀ S ∈ s.stations, p S)
    (hf : firstFree (unitKind i.opcode) s.stations = some (k, S)) : ∀ T ∈ (issuedInto i k S s).stations, p T := by
  intro T hT
  rw [issuedInto_stations] at hT
  obtain ⟨h1, h2, h3⟩ := firstFree_some hf
  rcases mem_set_cases hT with rfl | hT
  · exact hissue i s S h3 h2 (hs S (holds_mem h1))
  · exact hs T hT

theorem execute_keeps_station (hrel : ∀ d, p (Station.released d))
    (haddr : ∀ S T, p S → S.busy = true → addressPhase S = some T → p T)
    (hres : ∀ S v, p S → S.busy = true → (∃ i, S.instr = some i ∧ isProducer i.opcode = true) →
      p { S with result := some v })
    {i : Instr} {k : Nat} {S : Station} {s u : State} (hs : ∀ S ∈ s.stations, p S) (hS : s.holds k S)
    (hb : S.busy = true) (hi : S.instr = some i) (hex : Executes i k S s u) : ∀ T ∈ u.stations, p T := by
  intro T hT
  have hpS := hs S (holds_mem hS)
  have set1 : ∀ X T, p X → T ∈ s.stations.set k X → p T := by
    intro X T hX hT
    rcases mem_set_cases hT with rfl | hT
    · exact hX
    · exact hs T hT
  cases hex with
  | idle => exact hs T hT
  | waits T' hop hT' => exact set1 _ T (haddr S T' hpS hb hT') (by simpa using hT)
  | result x y halu hj hk hr hdue =>
    exact set1 _ T (hres S _ hpS hb ⟨i, hi, by cases i <;> simp_all [aluFields, isProducer, Instr.opcode]⟩)
      (by simpa using hT)
  | reads T' hop hT' hr w hw hdue hfree =>
    have := haddr S T' hpS hb hT'
    obtain ⟨_, hb', _, hi', _⟩ := addressPhase_fields hT'
    exact set1 _ T (hres T' w this (by rw [hb', hb]) ⟨i, by rw [hi', hi], by simp [hop, isProducer]⟩)
      (by simpa using hT)
  | writes T' hop hT' v hv m hm hdue hfree => exact set1 _ T (hrel T'.desc) (by simpa using hT)
  | taken x hop hj hk table ht hr hdue =>
    simp only [release_stations] at hT
    rcases mem_set_cases hT with rfl | hT
    · exact hrel _
    · obtain ⟨T0, hT0, rfl⟩ := List.mem_map.1 hT
      split
      · exact hrel _
      · exact hs T0 hT0
  | notTaken x y hop hj hk hne hdue => exact set1 _ T (hrel S.desc) (by simpa using hT)
  | calls hop hdue => exact set1 _ T (hrel S.desc) (by simpa using hT)
  | returns hop hdue => exact set1 _ T (hrel S.desc) (by simpa using hT)

theorem broadcast_keeps_station (hrel : ∀ d, p (Station.released d)) (hwake : ∀ S k v, p S → p (S.woken k v))
    {s : State} (hs : ∀ S ∈ s.stations, p S) (b : Broadcast) : ∀ S ∈ (s.broadcast b).stations, p S := by
  intro T hT
  simp only [State.broadcast] at hT
  rcases mem_releasedAt hT with hT | ⟨d, rfl⟩
  · obtain ⟨T0, hT0, rfl⟩ := List.mem_map.1 hT
    exact hwake _ _ _ (hs T0 hT0)
  · exact hrel d

/-- The induction over a step for a property of single stations. -/
theorem step_keeps_station (hrel : ∀ d, p (Station.released d)) (hadv : ∀ T, p T → p T.advanced)
    (hissue : ∀ i s S, S.busy = false → S.desc.kind = unitKind i.opcode → p S → p (issueFill i s (S.occupied s i)))
    (haddr : ∀ S T, p S → S.busy = true → addressPhase S = some T → p T)
    (hres : ∀ S v, p S → S.busy = true → (∃ i, S.instr = some i ∧ isProducer i.opcode = true) →
      p { S with result := some v })
    (hwake : ∀ S k v, p S → p (S.woken k v))
    {s t : State} (h : step s = .next t) (hs : ∀ S ∈ s.stations, p S) : ∀ S ∈ t.stations, p S :=
  step_induct (P := fun s => ∀ S ∈ s.stations, p S)
    (fun _ hs => begin_keeps_station hadv hs)
    (fun _ _ _ _ hs _ _ _ hf _ => issue_keeps_station hissue hs hf)
    (fun s _ k _ u hs hS hb _ _ hi hex =>
      execute_keeps_station (s := s.withTurn (.execute k)) (u := u) hrel haddr hres hs hS hb hi hex)
    (fun _ b hs _ => broadcast_keeps_station hrel hwake hs b) h hs

end StationLocal

end Sys2Proof.Machine
end

