-- ==== Sys2Proof/Laws/Holds.lean ====
section
/-! SUPPORT. The phases of a step, station by station: which station every index holds after Cycle-advance, an issue, an
Execute part and a broadcast, and which flags changed. -/

namespace Sys2Proof.Machine

/-- What Cycle-advance, an address phase and a result keep of a station. -/
structure SameStation (T T' : Station) : Prop where
  desc : T'.desc = T.desc
  busy : T'.busy = T.busy
  op : T'.op = T.op
  instr : T'.instr = T.instr
  seq : T'.seq = T.seq
  qj : T'.qj = T.qj
  qk : T'.qk = T.qk

theorem SameStation.refl (T : Station) : SameStation T T := ⟨rfl, rfl, rfl, rfl, rfl, rfl, rfl⟩

/-- The effect of an Execute part on the stations and flags: nothing but station `k`'s own `A`, result and counters; a
STORE's or a jump's release; or a BEQ's resolution (R127, R192, R193, R195, R199, R202). -/
inductive ExecuteEffect (i : Instr) (k : Nat) (S : Station) (s u : State) : Prop where
  | stay (hsame : ∀ j T', u.holds j T' → ∃ T, s.holds j T ∧ SameStation T T')
      (hflags : u.branchPending = s.branchPending ∧ u.pendingBranch = s.pendingBranch ∧ u.checkpoint = s.checkpoint ∧
        u.jumpPending = s.jumpPending ∧ u.regStat = s.regStat ∧ u.issued = s.issued ∧ u.nextSeq = s.nextSeq ∧ u.reg = s.reg)
  | store (hop : i.opcode = .store) (hrel : u.holds k (Station.released S.desc))
      (hother : ∀ j T', j ≠ k → (u.holds j T' ↔ s.holds j T'))
      (hflags : u.branchPending = s.branchPending ∧ u.pendingBranch = s.pendingBranch ∧ u.checkpoint = s.checkpoint ∧
        u.jumpPending = s.jumpPending ∧ u.regStat = s.regStat ∧ u.issued = s.issued ∧ u.nextSeq = s.nextSeq)
  | jump (hop : isJump i.opcode = true) (hrel : u.holds k (Station.released S.desc))
      (hother : ∀ j T', j ≠ k → (u.holds j T' ↔ s.holds j T'))
      (hflags : u.branchPending = s.branchPending ∧ u.pendingBranch = s.pendingBranch ∧ u.checkpoint = s.checkpoint ∧
        u.jumpPending = false ∧ u.regStat = s.regStat ∧ u.issued = s.issued ∧ u.nextSeq = s.nextSeq)
  | notTaken (hop : i.opcode = .beq) (hrel : u.holds k (Station.released S.desc))
      (hother : ∀ j T', j ≠ k → (u.holds j T' ↔ s.holds j T'))
      (hflags : u.branchPending = false ∧ u.pendingBranch = none ∧ u.checkpoint = none ∧
        u.jumpPending = s.jumpPending ∧ u.regStat = s.regStat ∧ u.issued = s.issued ∧ u.nextSeq = s.nextSeq)
  | taken (hop : i.opcode = .beq) (hrel : u.holds k (Station.released S.desc))
      (hother : ∀ j T', j ≠ k → u.holds j T' → T'.busy = false ∨ (s.holds j T' ∧ (T'.busy = true → T'.seq ≤ S.seq)))
      (hkeep : ∀ j T, j ≠ k → s.holds j T → T.seq ≤ S.seq → u.holds j T)
      (hflags : u.branchPending = false ∧ u.pendingBranch = none ∧ u.checkpoint = none ∧
        u.jumpPending = false ∧ u.issued = truncatedIssued S s.issued ∧ u.nextSeq = s.nextSeq)
      (htable : s.checkpoint = some u.regStat ∨ u.regStat = s.regStat)
      (hrestore : s.params.squashRegStatPolicy = .restore → s.checkpoint = some u.regStat)

/-- Which station each index holds after one station is replaced. -/
theorem holds_set {s : State} {k : Nat} {S : Station} (h : s.holds k S) (X : Station) {l : List Station}
    (hl : l = s.stations.set k X) (j : Nat) (T : Station) :
    (l[j]? = some T) ↔ (j = k ∧ T = X) ∨ (j ≠ k ∧ s.holds j T) := by
  subst hl
  rw [getElem?_set_of_holds h]
  by_cases hj : j = k
  · simp [hj, eq_comm]
  · simp [hj]

/-- Every Execute part has one of these effects. -/
theorem execute_effect {i : Instr} {k : Nat} {S : Station} {s u : State} (hS : s.holds k S) (h : Executes i k S s u) :
    ExecuteEffect i k S s u := by
  have stay : ∀ X (u : State), SameStation S X → u.stations = s.stations.set k X →
      (u.branchPending = s.branchPending ∧ u.pendingBranch = s.pendingBranch ∧ u.checkpoint = s.checkpoint ∧
        u.jumpPending = s.jumpPending ∧ u.regStat = s.regStat ∧ u.issued = s.issued ∧ u.nextSeq = s.nextSeq ∧ u.reg = s.reg) →
      ExecuteEffect i k S s u := by
    intro X u hX hu hf
    refine .stay ?_ hf
    intro j T' hT'
    rcases (holds_set hS X hu j T').1 hT' with ⟨rfl, rfl⟩ | ⟨_, h⟩
    · exact ⟨S, hS, hX⟩
    · exact ⟨T', h, SameStation.refl _⟩
  have sameA : ∀ T, addressPhase S = some T → SameStation S T := by
    intro T hT
    have := addressPhase_fields hT
    exact ⟨by simp_all, by simp_all, by simp_all, by simp_all, by simp_all, by simp_all, by simp_all⟩
  cases h with
  | idle => exact .stay (fun j T' h => ⟨T', h, SameStation.refl _⟩) (by simp)
  | waits T hop hT => exact stay T _ (sameA T hT) (by simp) (by simp)
  | result x y halu hj hk hr hdue =>
    exact stay { S with result := some (aluResult i x y) } _ ⟨rfl, rfl, rfl, rfl, rfl, rfl, rfl⟩ (by simp) (by simp)
  | reads T hop hT hr w hw hdue hfree =>
    obtain ⟨a, b, c, d, e, f, g⟩ := sameA T hT
    exact stay { T with result := some w } _ ⟨a, b, c, d, e, f, g⟩ (by simp) (by simp)
  | writes T hop hT v hv m hm hdue hfree =>
    have hd := (sameA T hT).desc
    refine .store hop ((holds_set hS (Station.released S.desc) (by simp [hd]) k _).2 (.inl ⟨rfl, rfl⟩)) ?_ (by simp)
    intro j T' hj
    rw [State.holds, holds_set hS (Station.released S.desc) (by simp [hd])]
    simp [hj]
  | calls hop hdue =>
    refine .jump (by simp [hop, isJump]) ((holds_set hS (Station.released S.desc) (by simp) k _).2 (.inl ⟨rfl, rfl⟩)) ?_ (by simp)
    intro j T' hj
    rw [State.holds, holds_set hS (Station.released S.desc) (by simp)]
    simp [hj]
  | returns hop hdue =>
    refine .jump (by simp [hop, isJump]) ((holds_set hS (Station.released S.desc) (by simp) k _).2 (.inl ⟨rfl, rfl⟩)) ?_ (by simp)
    intro j T' hj
    rw [State.holds, holds_set hS (Station.released S.desc) (by simp)]
    simp [hj]
  | notTaken x y hop hj hk hne hdue =>
    refine .notTaken hop ((holds_set hS (Station.released S.desc) (by simp) k _).2 (.inl ⟨rfl, rfl⟩)) ?_ (by simp)
    intro j T' hj
    rw [State.holds, holds_set hS (Station.released S.desc) (by simp)]
    simp [hj]
  | taken x hop hj hk table ht hr hdue =>
    have hlen := holds_lt hS
    have key : ∀ j, j ≠ k → ((squashed S s.stations).set k (Station.released S.desc))[j]? =
        (s.stations[j]?).map (fun T => if issuedAfter S T then Station.released T.desc else T) := by
      intro j hj
      rw [List.getElem?_set_ne (Ne.symm hj)]
      simp [squashed]
    refine .taken hop ?_ ?_ ?_ (by simp) (by simpa using ht) (by simpa using hr)
    · simp [State.holds, squashed, hlen]
    · intro j T' hj hT'
      simp only [State.holds, release_stations] at hT'
      erw [key j hj] at hT'
      obtain ⟨T, hT, rfl⟩ := Option.map_eq_some_iff.1 hT'
      split
      · left; rfl
      · next hn =>
        right
        refine ⟨hT, ?_⟩
        intro hb
        simp [issuedAfter, hb] at hn
        exact hn
    · intro j T hj hT hle
      simp only [State.holds, release_stations]
      erw [key j hj, hT]
      simp [issuedAfter]
      intro _ hlt; omega

/-- After an issue, the allocated station is the new one and every other is as before (R121). -/
theorem issuedInto_holds {i : Instr} {k : Nat} {S : Station} {s : State}
    (hfree : firstFree (unitKind i.opcode) s.stations = some (k, S)) (j : Nat) (T : Station) :
    (issuedInto i k S s).holds j T ↔ (j = k ∧ T = issueFill i s (S.occupied s i)) ∨ (j ≠ k ∧ s.holds j T) :=
  holds_set (firstFree_some hfree).1 _ (by simp) j T

theorem beginCycle_holds {s : State} (j : Nat) (T' : Station) :
    (beginCycle s).holds j T' ↔ ∃ T, s.holds j T ∧ T' = T.advanced := by
  simp [State.holds, beginCycle, cycleAdvance]; 
  constructor
  · rintro ⟨a, b, c⟩; exact ⟨a, b, c.symm⟩
  · rintro ⟨a, b, c⟩; exact ⟨a, b, c.symm⟩

theorem advanced_sameStation (T : Station) : SameStation T T.advanced := by
  have := advanced_fields T
  exact ⟨by simp_all, by simp_all, by simp_all, by simp_all, by simp_all, by simp_all, by simp_all⟩

/-- After a broadcast, a busy station is another station than the producer, woken (R134, R136). -/
theorem broadcast_holds {s : State} {b : Broadcast} {j : Nat} {T' : Station} (h : (s.broadcast b).holds j T') :
    (T'.busy = false) ∨ (j ≠ b.entry.station ∧ ∃ T, s.holds j T ∧ T' = T.woken b.entry.station b.value) := by
  simp only [State.holds, State.broadcast, releasedAt] at h
  split at h
  · next S hS =>
    by_cases hj : j = b.entry.station
    · subst hj
      rw [List.getElem?_set_self (by simpa using (List.getElem?_eq_some_iff.1 hS).1)] at h
      left; cases h; rfl
    · right
      rw [List.getElem?_set_ne (Ne.symm hj)] at h
      simp at h
      obtain ⟨T, h1, h2⟩ := h
      exact ⟨hj, T, h1, h2.symm⟩
  · next hn =>
    right
    have hj : j ≠ b.entry.station := by
      rintro rfl; rw [hn] at h; cases h
    simp at h
    obtain ⟨T, h1, h2⟩ := h
    exact ⟨hj, T, h1, h2.symm⟩

/-- The register-status entries after a broadcast (R133). -/
@[simp] theorem broadcast_status (s : State) (b : Broadcast) (r : RegIdx) :
    (s.broadcast b).status r = if s.status r = some b.entry.station then none else s.status r := by
  rw [State.status, State.broadcast, get_broadcastStatus]

end Sys2Proof.Machine
end

