-- ==== Sys2Proof/Laws/PerInstr.lean ====
section
/-! SUPPORT. Statements made for every instruction, one lemma per constructor. Family `OpcodeField`: whatever the
opcode map, bits 15..12 of an instruction's word are the code of its opcode (30_encoding.md R81, R84). -/

namespace Sys2Proof.Laws.OpcodeField

/-- Bits 15..12 of the word of `i` are the code of its opcode. -/
def Statement (i : Instr) : Prop := ∀ m : OpcodeMap, opcodeField (encode m i) = m.code i.opcode

theorem opcodeField_encodeRRI (c : BitVec 4) (rA rB : RegIdx) (o : Int) : opcodeField (encodeRRI c rA rB o) = c := by
  ext i hi
  rw [opcodeField, encodeRRI, BitVec.getElem_extractLsb']
  simp only [BitVec.getLsbD_append]
  simp only [show ¬ 12 + i < 5 by omega, show ¬ 12 + i - 5 < 1 by omega, show ¬ 12 + i - 5 - 1 < 3 by omega,
    show ¬ 12 + i - 5 - 1 - 3 < 3 by omega, show 12 + i - 5 - 1 - 3 - 3 = i by omega, if_false,
    BitVec.getLsbD_eq_getElem hi]

theorem opcodeField_encodeRRR (c : BitVec 4) (rA rB rC : RegIdx) : opcodeField (encodeRRR c rA rB rC) = c := by
  ext i hi
  rw [opcodeField, encodeRRR, BitVec.getElem_extractLsb']
  simp only [BitVec.getLsbD_append]
  simp only [show ¬ 12 + i < 3 by omega, show ¬ 12 + i - 3 < 3 by omega, show ¬ 12 + i - 3 - 3 < 3 by omega,
    show ¬ 12 + i - 3 - 3 - 3 < 3 by omega, show 12 + i - 3 - 3 - 3 - 3 = i by omega, if_false,
    BitVec.getLsbD_eq_getElem hi]

theorem opcodeField_encodeJ (c : BitVec 4) (l : Int) : opcodeField (encodeJ c l) = c := by
  ext i hi
  rw [opcodeField, encodeJ, BitVec.getElem_extractLsb']
  simp only [BitVec.getLsbD_append]
  simp only [show ¬ 12 + i < 7 by omega, show ¬ 12 + i - 7 < 5 by omega, show 12 + i - 7 - 5 = i by omega, if_false,
    BitVec.getLsbD_eq_getElem hi]

theorem opcodeField_encodeN (c : BitVec 4) : opcodeField (encodeN c) = c := by
  ext i hi
  rw [opcodeField, encodeN, BitVec.getElem_extractLsb']
  simp only [BitVec.getLsbD_append]
  simp only [show ¬ 12 + i < 12 by omega, show 12 + i - 12 = i by omega, if_false, BitVec.getLsbD_eq_getElem hi]

theorem load (rA rB : RegIdx) (o : Int) : Statement (.load rA rB o) := fun m => opcodeField_encodeRRI m.load rA rB o
theorem store (rA rB : RegIdx) (o : Int) : Statement (.store rA rB o) := fun m => opcodeField_encodeRRI m.store rA rB o
theorem beq (rA rB : RegIdx) (o : Int) : Statement (.beq rA rB o) := fun m => opcodeField_encodeRRI m.beq rA rB o
theorem call (l : Int) : Statement (.call l) := fun m => opcodeField_encodeJ m.call l
theorem ret : Statement .ret := fun m => opcodeField_encodeN m.ret
theorem add (rA rB rC : RegIdx) : Statement (.add rA rB rC) := fun m => opcodeField_encodeRRR m.add rA rB rC
theorem sub (rA rB rC : RegIdx) : Statement (.sub rA rB rC) := fun m => opcodeField_encodeRRR m.sub rA rB rC
theorem nor (rA rB rC : RegIdx) : Statement (.nor rA rB rC) := fun m => opcodeField_encodeRRR m.nor rA rB rC
theorem mul (rA rB rC : RegIdx) : Statement (.mul rA rB rC) := fun m => opcodeField_encodeRRR m.mul rA rB rC

end Sys2Proof.Laws.OpcodeField
end

