-- ==== Sys2Proof/Tests/Slice0.lean ====
section
/-! SUPPORT. The model's own tests. The expected values are those of spec/95_test_vectors.md, section by section, or
hand calculation from the rule named. The theorems `witness_…` show states and operands that meet the hypotheses of the
obligation of that name. -/

namespace Sys2Proof.Tests

open Sys2Proof Sys2Proof.Machine

/-! ## Helpers -/

/-- A free station. -/
def free (name : String) (kind : UnitKind) (n : Nat) : Station :=
  Station.released { name := name, kind := kind, cyclesNeeded := n }

/-- Index 0 LOAD, 1 STORE, 2 BEQ, 3 CALLRET, 4 ADDSUB, 5 NOR, 6 MUL; the registers of 95 S6. -/
def lab : State :=
  { State.reset with
    stations := [free "Load1" .load 2, free "Store1" .store 2, free "Beq1" .beq 1, free "Jmp1" .callret 1,
      free "Add1" .addsub 2, free "Nor1" .nor 1, free "Mul1" .mul 3]
    reg := ⟨0, 10, 5, 3, 2, 1, 7, 100⟩ }

/-- `lab` with a word in memory. -/
def labAt (a : Nat) (w : Word) : State := { lab with mem := lab.mem.set a w }

/-- A station that holds `i`, issued as number `q`, counting `n`. -/
def busyWith (S : Station) (i : Instr) (q n : Nat) (vj vk : Option Word) (a : Int) : Station :=
  { S with
    busy := true, op := some i.opcode, instr := some i, vj := vj, vk := vk, a := a, cyclesPassed := n, seq := q }

/-- The station with its address phase done. -/
def withAddr (S : Station) : Station := { S with addrReady := true }

/-- The station with a result. -/
def withResult (S : Station) (v : Word) : Station := { S with result := some v }

/-- `s` about to run the Execute part on station `k`, which holds `S`. -/
def visiting (s : State) (k : Nat) (S : Station) : State := { s with stations := s.stations.set k S, turn := .execute k }

/-- The station with an index, or a free one. -/
def stationAt (s : State) (k : Nat) : Station := (s.stations[k]?).getD (free "" .load 1)

/-- A check of the next state that an outcome holds. -/
def nextIs (o : Result State Fault Refusal) (p : State → Bool) : Bool :=
  match o with
  | .next t => p t
  | .fault _ | .refused _ => false

/-- The fault of an outcome. -/
def faultOf (o : Result State Fault Refusal) : Option Fault :=
  match o with
  | .fault f => some f
  | .next _ | .refused _ => none

/-- What holds at every index holds of every station held. -/
theorem holds_all {s : State} {P : Nat → Station → Prop} (h : ∀ k : Fin s.stations.length, P k s.stations[k]) :
    ∀ k S, s.holds k S → P k S := by
  intro k S hk
  obtain ⟨hlt, rfl⟩ := List.getElem?_eq_some_iff.mp hk
  exact h ⟨k, hlt⟩

/-! ## Well-formedness: each check refuses an ill-formed term -/

theorem test_wf_offset_above : (Instr.load 1 7 16).wf true = false := by decide
theorem test_wf_offset_below : (Instr.store 1 7 (-17)).wf true = false := by decide
theorem test_wf_branch_offset : (Instr.beq 1 2 16).wf true = false ∧ (Instr.beq 1 2 16).wf false = true := by decide
theorem test_wf_offset_bounds : (Instr.load 1 7 (-16)).wf true = true ∧ (Instr.beq 1 2 15).wf true = true := by decide
theorem test_wf_label_above : (Instr.call 64).wf false = false := by decide
theorem test_wf_label_below : (Instr.call (-65)).wf true = false := by decide
theorem test_wf_label_bounds : (Instr.call (-64)).wf true = true ∧ (Instr.call 63).wf true = true := by decide
theorem test_wf_opcode_map :
    OpcodeMap.default.wf = true ∧ ({ OpcodeMap.default with mul := 0 } : OpcodeMap).wf = false ∧
    ({ Params.default with opcodes := { OpcodeMap.default with ret := 3 } } : Params).wf = false := by decide
theorem test_wf_desc_name : StationDesc.wf { name := "", kind := .mul, cyclesNeeded := 1 } = false := by decide
theorem test_wf_desc_latency : StationDesc.wf { name := "M", kind := .mul, cyclesNeeded := 0 } = false := by decide
theorem test_wf_desc_kind :
    StationDesc.wf { name := "M", kind := .mul, cyclesNeeded := 2, addrCycles := some 1 } = false ∧
    StationDesc.wf { name := "M", kind := .beq, cyclesNeeded := 2, memCycles := some 1 } = false := by decide
theorem test_wf_desc_addr :
    StationDesc.wf { name := "L", kind := .load, cyclesNeeded := 2, addrCycles := some 0 } = false ∧
    StationDesc.wf { name := "L", kind := .load, cyclesNeeded := 2, addrCycles := some 3 } = false ∧
    StationDesc.wf { name := "L", kind := .load, cyclesNeeded := 2, addrCycles := some 2, memCycles := some 0 } = true := by
  decide

/-! ## The codec (95 §2.1), words bit by bit from R81 -/

/-- The verdict and, for a canonical word, the encoding. -/
def codes (w : Word) (i : Instr) : Bool :=
  decide (decode OpcodeMap.default w = .valid i) && decide (encode OpcodeMap.default i = w)

theorem test_load_words :
    codes 0b0000001111000000 (.load 1 7 0) = true ∧ codes 0b0000111111010000 (.load 7 7 (-16)) = true ∧
    codes 0b0000000000001111 (.load 0 0 15) = true := by decide
theorem test_store_words :
    codes 0b0001101111000001 (.store 5 7 1) = true ∧ codes 0b0001010011011111 (.store 2 3 (-1)) = true := by decide
theorem test_beq_words :
    codes 0b0010001010000010 (.beq 1 2 2) = true ∧ codes 0b0010000000011111 (.beq 0 0 (-1)) = true ∧
    codes 0b0010000000000000 (.beq 0 0 0) = true := by decide
theorem test_call_words :
    codes 0b0011000000000000 (.call 0) = true ∧ codes 0b0011000000111111 (.call 63) = true ∧
    codes 0b0011000001000000 (.call (-64)) = true ∧ codes 0b0011000001111111 (.call (-1)) = true := by decide
theorem test_ret_word : codes 0b0100000000000000 .ret = true := by decide
theorem test_add_word : codes 0b0101111111111000 (.add 7 7 7) = true := by decide
theorem test_sub_word : codes 0b0110001010011000 (.sub 1 2 3) = true := by decide
theorem test_nor_word : codes 0b0111000000000000 (.nor 0 0 0) = true := by decide
theorem test_mul_words :
    codes 0b1000101010100000 (.mul 5 2 4) = true ∧ codes 0b1000111110101000 (.mul 7 6 5) = true := by decide
theorem test_ignored_bits :
    decode OpcodeMap.default 0x0020 = .valid (.load 0 0 0) ∧ decode OpcodeMap.default 0x1F1F = .valid (.store 7 4 (-1)) ∧
    decode OpcodeMap.default 0x2FFF = .valid (.beq 7 7 (-1)) ∧ decode OpcodeMap.default 0x3F80 = .valid (.call 0) ∧
    decode OpcodeMap.default 0x30C0 = .valid (.call (-64)) ∧ decode OpcodeMap.default 0x4FFF = .valid .ret ∧
    decode OpcodeMap.default 0x8007 = .valid (.mul 0 0 0) := by decide
theorem test_invalid_words :
    decode OpcodeMap.default 0x9000 = .invalid ∧ decode OpcodeMap.default 0xFFFF = .invalid := by decide
theorem test_table_word :
    decodeTableWord 16 0x8AA0 = some (.mul 5 2 4) ∧ decodeTableWord 16 0x9000 = none := by decide
theorem test_other_map :
    decode { OpcodeMap.default with mul := 15 } 0xFAA0 = .valid (.mul 5 2 4) ∧
    decode { OpcodeMap.default with mul := 15 } 0x8AA0 = .invalid := by decide

/-- The parameters with offsets unchecked. -/
def unchecked : Params := { Params.default with checkOffsetRange := false }

/-- The error of a call, if any. -/
def errorOf {α : Type} (e : Except ValidationError α) : Option ValidationError :=
  match e with
  | .ok _ => none
  | .error x => some x

theorem test_range_errors :
    errorOf (encodeRecord Params.default { opcode := .load, rA := some 8, rB := some 1, offset := some 0 })
      = some (.rangeError .rA 8) ∧
    errorOf (encodeRecord Params.default { opcode := .add, rA := some 1, rB := some 2, rC := some (-1) })
      = some (.rangeError .rC (-1)) ∧
    errorOf (encodeRecord Params.default { opcode := .call, label := some 64 }) = some (.rangeError .label 64) ∧
    errorOf (encodeRecord Params.default { opcode := .call, label := some (-65) }) = some (.rangeError .label (-65)) ∧
    errorOf (encodeRecord Params.default { opcode := .beq, rA := some 1, rB := some 2, offset := some 16 })
      = some (.rangeError .offset 16) := by decide
theorem test_unchecked_offset :
    (encodeRecord unchecked { opcode := .beq, rA := some 1, rB := some 2, offset := some 16 }).toOption = some 0x2290 ∧
    decode OpcodeMap.default 0x2290 = .valid (.beq 1 2 (-16)) := by decide
theorem test_field_errors :
    errorOf (encodeRecord Params.default { opcode := .load, rA := some 1, rB := some 7, rC := some 3, offset := some 0 })
      = some (.fieldError .rC) ∧
    errorOf (encodeRecord Params.default { opcode := .ret, label := some 0 }) = some (.fieldError .label) ∧
    errorOf (encodeRecord Params.default { opcode := .call }) = some (.fieldError .label) := by decide
theorem test_assembly :
    (Instr.load 1 7 0).assembly = "LOAD R1,0(R7)" ∧ (Instr.beq 1 2 2).assembly = "BEQ R1,R2,+2" ∧
    (Instr.call (-64)).assembly = "CALL -64" ∧ (Instr.mul 5 2 4).assembly = "MUL R5,R2,R4" := by decide

/-! ## Results (95 §2.2) -/

theorem test_add : aluAdd 42 3 = 45 ∧ aluAdd 0xFFFF 1 = 0 ∧ aluAdd 0x7FFF 1 = 0x8000 ∧ aluAdd 0x8000 0x8000 = 0 := by decide
theorem test_sub : aluSub 5 3 = 2 ∧ aluSub 3 5 = 0xFFFE ∧ aluSub 0 1 = 0xFFFF ∧ aluSub 0x8000 1 = 0x7FFF := by decide
theorem test_nor : aluNor 2 1 = 0xFFFC ∧ aluNor 0 0 = 0xFFFF ∧ aluNor 0xFFFF 0x1234 = 0 := by decide
theorem test_mul :
    aluMul 45 8 = 360 ∧ aluMul 0x100 0x100 = 0 ∧ aluMul 0xFFFF 0xFFFF = 1 ∧ aluMul 0xFFFF 2 = 0xFFFE ∧
    aluMul 0x8000 2 = 0 := by decide

/-! ## One step of each instruction -/

/-- 95 P1, cycle 1: the LOAD issues with its base value and renames R1. -/
theorem test_load_issue :
    nextIs (step (labAt 0 0x03C0)) (fun t => decide ((stationAt t 0).vj = some 100 ∧ (stationAt t 0).a = 0 ∧
      (stationAt t 0).vk = none ∧ t.status 1 = some 0 ∧ t.pc = 1 ∧ t.nextSeq = 1)) = true := by decide

/-- 95 §2.3: a base of 0x8000 is unsigned: LOAD R1,-16(R7) reads word 32752. -/
theorem test_load_unsigned_base :
    nextIs (exec (.load 1 7 (-16)) (visiting (labAt 32752 9) 0
      (busyWith (stationAt lab 0) (.load 1 7 (-16)) 0 2 (some 0x8000) none (-16))))
      (fun t => decide ((stationAt t 0).result = some 9 ∧ (stationAt t 0).a = 32752 ∧ (stationAt t 0).busy = true)) = true := by
  decide

/-- R156: STORE captures its base rB in the j slot and its value rA in the k slot. -/
theorem test_store_issue :
    nextIs (exec (.store 5 7 1) lab) (fun t => decide ((stationAt t 1).vj = some 100 ∧ (stationAt t 1).vk = some 1 ∧
      (stationAt t 1).a = 1 ∧ t.regStat = lab.regStat)) = true := by decide

/-- 95 §2.3: STORE R2,-1(R3) with R3 = 10, R2 = 9 writes 9 at 9 and releases its station. -/
theorem test_store_completes :
    nextIs (exec (.store 2 3 (-1)) (visiting lab 1
      (busyWith (stationAt lab 1) (.store 2 3 (-1)) 0 2 (some 10) (some 9) (-1))))
      (fun t => decide (t.mem = [(9, 9)] ∧ stationAt t 1 = stationAt lab 1 ∧ t.writtenBack = t.executed ∧
        t.executed.length = 1)) = true := by decide

/-- 95 §2.3: STORE R1,-1(R0) and LOAD R1,1(R7) with R7 = 0xFFFF fault. -/
theorem test_access_out_of_bounds :
    faultOf (exec (.store 1 0 (-1)) (visiting lab 1
      (busyWith (stationAt lab 1) (.store 1 0 (-1)) 0 2 (some 0) (some 9) (-1)))) = some (.boundsError (-1)) ∧
    faultOf (exec (.load 1 7 1) (visiting lab 0
      (busyWith (stationAt lab 0) (.load 1 7 1) 0 2 (some 0xFFFF) none 1))) = some (.boundsError 65536) := by decide

/-- R151: a LOAD stalls behind an older STORE to its address, and behind one with no address yet. -/
theorem test_load_hazard :
    olderConflict { lab with stations := [busyWith (free "S" .store 2) (.store 1 7 0) 0 1 (some 7) none 0] }
      (busyWith (free "L" .load 1) (.load 4 6 0) 1 1 (some 50) none 50) [.store] = true ∧
    olderConflict
      { lab with stations := [withAddr (busyWith (free "S" .store 2) (.store 1 7 0) 0 1 (some 7) none 51)] }
      (busyWith (free "L" .load 1) (.load 4 6 0) 1 1 (some 50) none 50) [.store] = false := by decide

/-- R191: BEQ captures rA in the j slot and rB in the k slot, and opens the branch without counting itself. -/
theorem test_beq_issue :
    nextIs (exec (.beq 1 2 2) lab) (fun t => decide ((stationAt t 2).vj = some 10 ∧ (stationAt t 2).vk = some 5 ∧
      t.branchPending = true ∧ t.pendingBranch = some 2 ∧ t.checkpoint = some lab.regStat ∧ t.branchesIssued = 1 ∧
      t.issuedAfterBranch = 0)) = true := by decide

/-- `lab` past a BEQ that is pending in station 2. -/
def branching : State :=
  { lab with pc := 12, branchPending := true, pendingBranch := some 2, checkpoint := some lab.regStat }

/-- 95 §2.4: at 10, BEQ R0,R0,-1 goes to 10, and BEQ with differing operands to 11. -/
theorem test_beq_resolves :
    nextIs (exec (.beq 0 0 (-1)) (visiting branching 2
      { busyWith (stationAt lab 2) (.beq 0 0 (-1)) 0 1 (some 0) (some 0) (-1) with originalPC := 10 }))
      (fun t => decide (t.pc = 10 ∧ t.mispredictions = 1 ∧ t.branchPending = false)) = true ∧
    nextIs (exec (.beq 1 2 (-1)) (visiting branching 2
      { busyWith (stationAt lab 2) (.beq 1 2 (-1)) 0 1 (some 7) (some 5) (-1) with originalPC := 10 }))
      (fun t => decide (t.pc = 11 ∧ t.mispredictions = 0 ∧ t.branchPending = false)) = true := by decide

/-- 95 §2.5: the target of CALL 3 at 0 is 3, or 4 under `pcRelative`. -/
theorem test_call_target :
    nextIs (exec (.call 3) lab) (fun t => decide ((stationAt t 3).a = 3 ∧ t.jumpPending = true)) = true ∧
    nextIs (exec (.call 3) { lab with params := { Params.default with callTargetMode := .pcRelative } })
      (fun t => decide ((stationAt t 3).a = 4)) = true := by decide

/-- 95 §2.5: a CALL at 65535 links 0. -/
theorem test_call_links :
    nextIs (exec (.call 0) (visiting { lab with jumpPending := true } 3
      { busyWith (stationAt lab 3) (.call 0) 0 1 none none 0 with originalPC := 65535 }))
      (fun t => decide (t.readReg 1 = 0 ∧ t.pc = 0 ∧ t.jumpPending = false)) = true := by decide

/-- R203: RET reads R1 from the register file, whatever its status entry; R202: unless the policy makes that a fault. -/
theorem test_ret_issue :
    nextIs (exec .ret { lab with regStat := lab.regStat.set 1 (some 0) }) (fun t => decide ((stationAt t 3).a = 10)) = true ∧
    faultOf (exec .ret { lab with
      pc := 1
      regStat := lab.regStat.set 1 (some 0)
      params := { Params.default with retLinkPolicy := .faultIfPending } }) = some (.retLinkPending 1) := by decide

theorem test_ret_completes :
    nextIs (exec .ret (visiting { lab with jumpPending := true } 3
      (busyWith (stationAt lab 3) .ret 0 1 none none 20)))
      (fun t => decide (t.pc = 20 ∧ t.jumpPending = false ∧ t.reg = lab.reg)) = true := by decide

/-- 95 P1, cycle 2: ADD R2,R1,R3 behind the LOAD of R1 takes its tag and R3's value. -/
theorem test_add_issue :
    nextIs (exec (.add 2 1 3) { lab with regStat := lab.regStat.set 1 (some 0) })
      (fun t => decide ((stationAt t 4).qj = some 0 ∧ (stationAt t 4).vj = none ∧ (stationAt t 4).vk = some 3 ∧
        t.status 2 = some 4)) = true := by decide

theorem test_sub_completes :
    nextIs (exec (.sub 1 2 3) (visiting lab 4 (busyWith (stationAt lab 4) (.sub 1 2 3) 0 2 (some 3) (some 5) 0)))
      (fun t => decide ((stationAt t 4).result = some 0xFFFE ∧ (stationAt t 4).busy = true)) = true := by decide

theorem test_nor_completes :
    nextIs (exec (.nor 1 2 3) (visiting lab 5 (busyWith (stationAt lab 5) (.nor 1 2 3) 0 1 (some 2) (some 1) 0)))
      (fun t => decide ((stationAt t 5).result = some 0xFFFC)) = true := by decide

theorem test_mul_completes :
    nextIs (exec (.mul 5 2 4) (visiting lab 6 (busyWith (stationAt lab 6) (.mul 5 2 4) 0 3 (some 45) (some 8) 0)))
      (fun t => decide ((stationAt t 6).result = some 360 ∧ t.executed.length = 1 ∧ t.writtenBack = [])) = true := by decide

/-! ## The cycle -/

/-- 95 P1, cycle 4: the LOAD's broadcast writes R1, fills the ADD's slot and releases the LOAD's station. -/
def broadcasting : State :=
  { lab with
    stations := (lab.stations.set 0 (withResult (busyWith (stationAt lab 0) (.load 1 7 0) 0 3 (some 100) none 100) 42)).set 4 { busyWith (stationAt lab 4) (.add 2 1 3) 1 0 none (some 3) 0 with qj := some 0 }
    regStat := (lab.regStat.set 1 (some 0)).set 2 (some 4)
    issued := [{ seq := 0, instr := .load 1 7 0, cycle := 1, station := 0 },
      { seq := 1, instr := .add 2 1 3, cycle := 2, station := 4 }]
    nextSeq := 2, cycle := 4, started := true }

theorem test_broadcast :
    (writeback broadcasting).readReg 1 = 42 ∧ (writeback broadcasting).status 1 = none ∧
    (stationAt (writeback broadcasting) 4).vj = some 42 ∧ (stationAt (writeback broadcasting) 4).qj = none ∧
    stationAt (writeback broadcasting) 0 = stationAt lab 0 := by decide

/-- R131: no broadcast while a branch is pending. -/
theorem test_branch_holds_the_bus : cdb { broadcasting with branchPending := true } = none := by decide

/-- 95 V-CDB, cycle 5: of three ready results the oldest goes first. -/
theorem test_oldest_first :
    (cdb { lab with
      stations := [{ busyWith (free "Add1" .addsub 1) (.add 4 3 3) 2 2 (some 3) (some 3) 0 with result := some 6 },
        { busyWith (free "Nor1" .nor 3) (.nor 1 0 0) 0 4 (some 0) (some 0) 0 with result := some 0xFFFF }]
      issued := [{ seq := 0, instr := .nor 1 0 0, cycle := 1, station := 1 },
        { seq := 2, instr := .add 4 3 3, cycle := 3, station := 0 }] }).map Broadcast.value = some 0xFFFF := by decide

/-- R126: the visits go by sequence number, not by configuration order. -/
theorem test_visit_order :
    visitOrder { lab with
      stations := [busyWith (free "A" .addsub 1) (.add 4 3 3) 7 0 none none 0, free "B" .nor 1,
        busyWith (free "C" .mul 1) (.mul 4 3 3) 2 0 none none 0] } = [(2, 2), (7, 0)] := by decide

/-- R114 to R117 and 95 §2.4 (a fetch at -10). -/
theorem test_fetch :
    fetch lab = .empty ∧ fetch { lab with pc := -10 } = .fault (.boundsError (-10)) ∧
    fetch (labAt 0 0x9000) = .fault (.illegalInstruction 0x9000 0) ∧ fetch (labAt 0 0x0020) = .instr (.load 0 0 0) := by
  decide

/-- R247: reset is halted; a step from it only counts the cycle. -/
theorem test_reset_step :
    halted State.reset = true ∧ nextIs (step State.reset) (fun t => decide (t = { State.reset with cycle := 1, started := true })) = true := by decide

/-- R41: no step of a faulted engine. -/
theorem test_faulted_engine :
    faultOf (step { State.reset with pc := 65536 }) = some (.boundsError 65536) ∧
    settle { State.reset with pc := 65536 } (step { State.reset with pc := 65536 })
      = { State.reset with pc := 65536, fault := some (.boundsError 65536) } := by decide

/-- The very next step issues the word that `withFetchWord` places. -/
theorem test_with_fetch_word :
    ([0x03C0, 0x1BC1, 0x2282, 0x3003, 0x4000, 0x5458, 0x6298, 0x7000, 0x8AA0].all fun w =>
      nextIs (step (State.reset.withFetchWord 16 w)) fun t =>
        t.issued.map Entry.instr == (decodeTableWord 16 w).toList && t.pc == 1) = true := by decide

/-! ## Configuration (R241, R242) -/

theorem test_add_station_errors :
    errorOf (configure (.addStation { name := "", kind := .mul, cyclesNeeded := 1 }) lab) = some (.configError .emptyName) ∧
    errorOf (configure (.addStation { name := "Mul1", kind := .mul, cyclesNeeded := 1 }) lab)
      = some (.configError .duplicateName) ∧
    errorOf (configure (.addStation { name := "X", kind := .mul, cyclesNeeded := 0 }) lab)
      = some (.configError .latencyBelowOne) ∧
    errorOf (configure (.addStation { name := "X", kind := .nor, cyclesNeeded := 2, addrCycles := some 1 }) lab)
      = some (.configError .subLatencyOnWrongKind) ∧
    errorOf (configure (.addStation { name := "X", kind := .load, cyclesNeeded := 2, addrCycles := some 3 }) lab)
      = some (.configError .addrCyclesOutOfRange) ∧
    errorOf (configure (.addStation { name := "X", kind := .load, cyclesNeeded := 2, memCycles := some (-1) }) lab)
      = some (.configError .memCyclesNegative) := by decide

theorem test_config_errors :
    errorOf (configure (.setPC 65536) lab) = some (.boundsError 65536) ∧
    errorOf (configure (.setRegister 8 0) lab) = some (.rangeError .register 8) ∧
    errorOf (configure (.setRegister 1 65536) lab) = some (.rangeError .registerValue 65536) ∧
    errorOf (configure (.loadData 65535 [1, 2]) lab) = some (.boundsError 65536) ∧
    errorOf (configure (.loadData 0 [1, -32769]) lab) = some (.rangeError .dataWord (-32769)) ∧
    errorOf (configure (.setPC 0) { lab with started := true }) = some (.configError .afterStart) := by decide

theorem test_config_effects :
    (configured lab (.setRegister 1 (-1))).readReg 1 = 0xFFFF ∧ configured lab (.setRegister 0 5) = lab ∧
    (configured lab (.loadData 65534 [1, -1])).mem = [(65534, 1), (65535, 0xFFFF)] ∧
    (configured lab (.bulkLoad 3 [(Instr.ret).record, (Instr.add 7 7 7).record])).mem = [(3, 0x4000), (4, 0x5FF8)] ∧
    (configured lab (.setPC 65535)).pc = 65535 := by decide

/-- R33, R36, R38, R42, R244: while a branch is pending, a snapshot shows what R34 to R42 hold. -/
theorem test_snapshot :
    branching.snapshot.branchPending = true ∧ branching.snapshot.pendingBranch = branching.pendingBranch ∧
    branching.snapshot.pendingBranch ≠ none ∧ branching.snapshot.checkpoint = branching.checkpoint ∧
    branching.snapshot.checkpoint ≠ none ∧ { lab with nextSeq := 5, started := true }.snapshot.nextSeq = 5 ∧
    { lab with nextSeq := 5, started := true }.snapshot.started = true := by decide

/-! ## Witnesses: the codec -/

/-- Another injective opcode map. -/
def reversed : OpcodeMap := ⟨15, 14, 13, 12, 11, 10, 9, 8, 7⟩

theorem witness_DecodeInvertsEncode :
    OpcodeMap.default.wf = true ∧ reversed.wf = true ∧ (Instr.load 7 7 (-16)).wf true = true ∧
    (Instr.call 63).wf true = true ∧ decode reversed 0xB000 = .valid .ret ∧
    ignoredBitsZero Instr.ret.opcode.format 0xB000 = true := by decide

theorem witness_IgnoredBitsDoNotDecode :
    OpcodeMap.default.opOf (opcodeField 0x03C0) = some .load ∧
    (0x03C0 : Word) ||| ignoredMask OpCode.load.format = 0x03E0 ||| ignoredMask OpCode.load.format ∧
    OpcodeMap.default.opOf (opcodeField 0x3000) = some .call ∧
    (0x3000 : Word) ||| ignoredMask OpCode.call.format = 0x3F80 ||| ignoredMask OpCode.call.format ∧
    OpcodeMap.default.opOf (opcodeField 0x8000) = some .mul ∧
    (0x8000 : Word) ||| ignoredMask OpCode.mul.format = 0x8007 ||| ignoredMask OpCode.mul.format := by decide

theorem witness_InvalidExactlyWithoutOpcode :
    (labAt 0 0x9000).jumpPending = false ∧ memRead (labAt 0 0x9000).mem (labAt 0 0x9000).pc = .ok 0x9000 ∧
    (0x9000 : Word) ≠ 0 ∧ decode (labAt 0 0x9000).params.opcodes 0x9000 = .invalid := ⟨rfl, rfl, by decide, by decide⟩

theorem witness_ZeroWordNeverIssues :
    memRead lab.mem lab.pc = .ok 0 ∧ (labAt 0 0x0020).params.opcodes = OpcodeMap.default ∧
    (labAt 0 0x0020).jumpPending = false ∧ memRead (labAt 0 0x0020).mem (labAt 0 0x0020).pc = .ok 0x0020 :=
  ⟨rfl, rfl, rfl, rfl⟩

/-- A RET with a label, and one witness for each of the other clauses, at the ends of the ranges. -/
theorem witness_EncodeNamesTheRejectedField :
    OpCode.ret.format.carries .label ≠ (some (63 : Int)).isSome ∧ labelInRange 63 = true ∧
    OpCode.add.format = .rrr ∧ ¬ ((0 : Int) ≤ -1 ∧ (-1 : Int) ≤ 7) ∧ ¬ ((0 : Int) ≤ 8 ∧ (8 : Int) ≤ 7) ∧
    OpCode.store.format = .rri ∧ offsetInRange (-16) = true ∧ offsetInRange 15 = true ∧ Params.default.checkOffsetRange = true ∧ offsetInRange 16 = false ∧
    offsetInRange (-17) = false ∧ labelInRange 64 = false ∧ labelInRange (-65) = false := by decide

theorem witness_UncheckedOffsetIsStoredModulo32 :
    unchecked.checkOffsetRange = false ∧ unchecked.opcodes.wf = true ∧ OpCode.store.format = .rri ∧
    ¬ ((0 : Int) ≤ -1 ∧ (-1 : Int) ≤ 7) ∧ ¬ ((0 : Int) ≤ 8 ∧ (8 : Int) ≤ 7) ∧
    labelInRange 64 = false ∧ labelInRange (-65) = false := by decide

/-! ## Witnesses: Issue -/

/-- `lab` with R1 renamed to the LOAD's station. -/
def renamedR1 : State := { lab with regStat := lab.regStat.set 1 (some 0) }

/-- `lab` with no station. -/
def noStations : State := { lab with stations := [] }

theorem witness_CaptureTakesValueOrTag : renamedR1.status 1 = some 0 ∧ renamedR1.status 0 = none := by decide

theorem witness_IssueOccupiesRenamesAndLogs :
    ∃ t, lab.turn = .issue ∧ exec (.add 2 1 3) lab = .next t ∧ t ≠ lab := ⟨_, rfl, rfl, by decide⟩

/-- Also for R0 as the destination. -/
theorem witness_AluIssueCapturesAndRenames :
    aluFields (.mul 0 2 4) = some (0, 2, 4) ∧ aluFields (.sub 7 7 7) = some (7, 7, 7) ∧ lab.turn = .issue ∧
    firstFree (unitKind (Instr.mul 0 2 4).opcode) lab.stations = some (6, stationAt lab 6) ∧
    firstFree (unitKind (Instr.sub 7 7 7).opcode) lab.stations = some (4, stationAt lab 4) := by decide

theorem witness_LoadAndStoreIssueCaptureOperands :
    lab.turn = .issue ∧ firstFree .load lab.stations = some (0, stationAt lab 0) ∧
    firstFree .store lab.stations = some (1, stationAt lab 1) := by decide

theorem witness_BeqIssueOpensTheBranch :
    lab.turn = .issue ∧ lab.branchPending = false ∧ firstFree .beq lab.stations = some (2, stationAt lab 2) := by decide

/-- `lab` under the three policies that are not the defaults. -/
def strict : State :=
  { lab with
    params := { Params.default with
      retLinkPolicy := .faultIfPending, nestedBranchPolicy := .fault, squashRegStatPolicy := .fault } }

theorem witness_CallAndRetIssueSetTheTarget :
    lab.turn = .issue ∧ firstFree .callret lab.stations = some (3, stationAt lab 3) ∧
    lab.params.retLinkPolicy = .readFile ∧ strict.status 1 = none ∧
    firstFree .callret strict.stations = some (3, stationAt strict 3) := by decide

/-- One witness for each clause. -/
theorem witness_IssueChecksThenStallsWithoutStation :
    noStations.turn = .issue ∧ firstFree (unitKind Instr.ret.opcode) noStations.stations = none ∧
    noStations.branchPending = false ∧ noStations.params.retLinkPolicy = .readFile ∧
    branching.turn = .issue ∧ branching.branchPending = true ∧ branching.params.nestedBranchPolicy = .stall ∧
    { strict with branchPending := true }.params.nestedBranchPolicy = .fault ∧
    { strict with regStat := renamedR1.regStat }.status 1 = some 0 ∧ strict.params.retLinkPolicy = .faultIfPending := by
  decide

/-! ## Witnesses: Execute -/

/-- An ADD due, a LOAD due, a STORE due, a BEQ due, a CALL due and a RET due, each in its station of `lab`. -/
def addDue : Station := busyWith (stationAt lab 4) (.add 2 1 3) 0 2 (some 42) (some 3) 0
def loadDue (base : Word) : Station := busyWith (stationAt lab 0) (.load 1 7 0) 0 2 (some base) none 0
def storeDue (base : Word) : Station := busyWith (stationAt lab 1) (.store 5 7 1) 1 2 (some base) (some 9) 1
def beqDue (x y : Word) : Station := busyWith (stationAt lab 2) (.beq 1 2 2) 0 1 (some x) (some y) 2
def callDue : Station := busyWith (stationAt lab 3) (.call 3) 0 1 none none 3
def retDue : Station := busyWith (stationAt lab 3) .ret 0 1 none none 10

theorem witness_AluCompletesWithItsResult :
    (aluFields (.add 2 1 3)).isSome = true ∧ (visiting lab 4 addDue).turn = .execute 4 ∧
    (visiting lab 4 addDue).holds 4 addDue ∧ addDue.result = none ∧ addDue.cyclesPassed = addDue.desc.cyclesNeeded ∧
    addDue.vj = some 42 ∧ addDue.vk = some 3 := by decide

/-- One witness for each of the four clauses: an ADD below its threshold, one that holds its result, a LOAD below its
threshold, and a LOAD that holds its result. -/
theorem witness_ExecuteWaitsUntilDue :
    (visiting lab 4 { addDue with cyclesPassed := 1 }).holds 4 { addDue with cyclesPassed := 1 } ∧
    { addDue with cyclesPassed := 1 }.cyclesPassed ≠ addDue.desc.cyclesNeeded ∧
    (visiting lab 4 (withResult addDue 45)).holds 4 (withResult addDue 45) ∧ (withResult addDue 45).result ≠ none ∧
    (visiting lab 0 { loadDue 100 with cyclesPassed := 1 }).holds 0 { loadDue 100 with cyclesPassed := 1 } ∧
    { loadDue 100 with cyclesPassed := 1 }.vj = some 100 ∧
    { loadDue 100 with cyclesPassed := 1 }.cyclesPassed ≠ (loadDue 100).desc.cyclesNeeded ∧
    (visiting lab 0 (withResult (loadDue 100) 42)).holds 0 (withResult (loadDue 100) 42) ∧
    (withResult (loadDue 100) 42).result ≠ none := by decide

/-- The effective address at the top of memory. -/
theorem witness_LoadReadsItsEffectiveAddress :
    (visiting lab 0 (loadDue 0xFFFF)).turn = .execute 0 ∧ (visiting lab 0 (loadDue 0xFFFF)).holds 0 (loadDue 0xFFFF) ∧
    (loadDue 0xFFFF).vj = some 0xFFFF ∧ (loadDue 0xFFFF).result = none ∧
    (loadDue 0xFFFF).cyclesPassed = (loadDue 0xFFFF).desc.cyclesNeeded ∧
    ¬ OlderConflict ((visiting lab 0 (loadDue 0xFFFF)).setStation 0 (addressed (loadDue 0xFFFF) 0xFFFF))
      (addressed (loadDue 0xFFFF) 0xFFFF) [.store] ∧
    inBounds (accessAddress (loadDue 0xFFFF) 0xFFFF) = true := by
  simp only [← olderConflict_iff]
  decide

theorem witness_StoreWritesItsEffectiveAddress :
    MemoryCanonical (visiting lab 1 (storeDue 0xFFFE)) ∧ (visiting lab 1 (storeDue 0xFFFE)).turn = .execute 1 ∧
    (visiting lab 1 (storeDue 0xFFFE)).holds 1 (storeDue 0xFFFE) ∧ (storeDue 0xFFFE).vj = some 0xFFFE ∧
    (storeDue 0xFFFE).vk = some 9 ∧ (storeDue 0xFFFE).cyclesPassed = (storeDue 0xFFFE).desc.cyclesNeeded ∧
    ¬ OlderConflict ((visiting lab 1 (storeDue 0xFFFE)).setStation 1 (addressed (storeDue 0xFFFE) 0xFFFE))
      (addressed (storeDue 0xFFFE) 0xFFFE) [.load, .store] ∧
    inBounds (accessAddress (storeDue 0xFFFE) 0xFFFE) = true := by
  simp only [← olderConflict_iff]
  decide

/-- A LOAD, and a STORE, behind an older STORE that has no address yet. -/
theorem witness_AccessStallsBehindOlderConflict :
    (∃ s : State, s.turn = .execute 0 ∧ s.holds 0 { loadDue 100 with seq := 2 } ∧
      { loadDue 100 with seq := 2 }.vj = some 100 ∧
      OlderConflict (s.setStation 0 (addressed { loadDue 100 with seq := 2 } 100))
        (addressed { loadDue 100 with seq := 2 } 100) [.store]) ∧
    (∃ s : State, s.turn = .execute 0 ∧ s.holds 0 { storeDue 99 with seq := 2 } ∧
      { storeDue 99 with seq := 2 }.vj = some 99 ∧
      OlderConflict (s.setStation 0 (addressed { storeDue 99 with seq := 2 } 99))
        (addressed { storeDue 99 with seq := 2 } 99) [.load, .store]) := by
  simp only [← olderConflict_iff]
  exact ⟨⟨visiting (visiting lab 1 (storeDue 5)) 0 { loadDue 100 with seq := 2 }, by decide⟩,
    ⟨visiting (visiting lab 1 (storeDue 5)) 0 { storeDue 99 with seq := 2 }, by decide⟩⟩

/-- The first address above memory, for a LOAD and for a STORE. -/
theorem witness_AccessOutsideMemoryFaults :
    (visiting lab 0 { loadDue 0xFFFF with a := 1 }).turn = .execute 0 ∧
    (visiting lab 0 { loadDue 0xFFFF with a := 1 }).holds 0 { loadDue 0xFFFF with a := 1 } ∧
    { loadDue 0xFFFF with a := 1 }.vj = some 0xFFFF ∧ { loadDue 0xFFFF with a := 1 }.result = none ∧
    { loadDue 0xFFFF with a := 1 }.cyclesPassed = (loadDue 0xFFFF).desc.cyclesNeeded ∧
    inBounds (accessAddress { loadDue 0xFFFF with a := 1 } 0xFFFF) = false ∧
    ¬ OlderConflict ((visiting lab 0 { loadDue 0xFFFF with a := 1 }).setStation 0
        (addressed { loadDue 0xFFFF with a := 1 } 0xFFFF)) (addressed { loadDue 0xFFFF with a := 1 } 0xFFFF) [.store] ∧
    (visiting lab 1 (storeDue 0xFFFF)).holds 1 (storeDue 0xFFFF) ∧ (storeDue 0xFFFF).vk = some 9 ∧
    inBounds (accessAddress (storeDue 0xFFFF) 0xFFFF) = false ∧
    ¬ OlderConflict ((visiting lab 1 (storeDue 0xFFFF)).setStation 1 (addressed (storeDue 0xFFFF) 0xFFFF))
      (addressed (storeDue 0xFFFF) 0xFFFF) [.load, .store] := by
  simp only [← olderConflict_iff]
  decide

/-- A taken BEQ with a younger ADD behind it, which R2 is renamed to. -/
def taking (p : SquashRegStatPolicy) : State :=
  { visiting (visiting branching 4 { addDue with seq := 5 }) 2 (beqDue 7 7) with
    regStat := lab.regStat.set 2 (some 4), params := { Params.default with squashRegStatPolicy := p } }

theorem witness_TakenBeqRedirectsAndSquashes :
    (∀ p ∈ [SquashRegStatPolicy.restore, .keepStale],
      (taking p).turn = .execute 2 ∧ (taking p).holds 2 (beqDue 7 7) ∧ (taking p).checkpoint = some lab.regStat ∧
      (taking p).params.squashRegStatPolicy ≠ .fault) ∧
    (beqDue 7 7).cyclesPassed = (beqDue 7 7).desc.cyclesNeeded ∧ (beqDue 7 7).vj = some 7 ∧ (beqDue 7 7).vk = some 7 := by
  decide

/-- Under `fault`, with no stale entry. -/
theorem witness_TakenBeqRedirectsAndSquashes_fault :
    ∀ r p T, { taking .fault with regStat := lab.regStat }.status r = some p →
      { taking .fault with regStat := lab.regStat }.holds p T → ¬ (T.busy = true ∧ (beqDue 7 7).seq < T.seq) := by
  have h : ∀ r, { taking .fault with regStat := lab.regStat }.status r = none := by decide
  intro r p T hr
  rw [h r] at hr
  cases hr

theorem witness_TakenBeqFaultsOnStaleTag :
    (taking .fault).turn = .execute 2 ∧ (taking .fault).holds 2 (beqDue 7 7) ∧
    (beqDue 7 7).cyclesPassed = (beqDue 7 7).desc.cyclesNeeded ∧ (beqDue 7 7).vj = some 7 ∧ (beqDue 7 7).vk = some 7 ∧
    (taking .fault).params.squashRegStatPolicy = .fault ∧ (taking .fault).status 2 = some 4 ∧
    (taking .fault).holds 4 { addDue with seq := 5 } ∧ (beqDue 7 7).seq < 5 ∧
    ∀ r' : RegIdx, r' < 2 → (taking .fault).status r' = none := by decide

theorem witness_NotTakenBeqClosesTheBranch :
    (visiting branching 2 (beqDue 7 5)).turn = .execute 2 ∧ (visiting branching 2 (beqDue 7 5)).holds 2 (beqDue 7 5) ∧
    (beqDue 7 5).cyclesPassed = (beqDue 7 5).desc.cyclesNeeded ∧ (beqDue 7 5).vj = some 7 ∧ (beqDue 7 5).vk = some 5 ∧
    (7 : Word) ≠ 5 := by decide

theorem witness_CallLinksAndJumps :
    (visiting lab 3 callDue).turn = .execute 3 ∧ (visiting lab 3 callDue).holds 3 callDue ∧
    callDue.cyclesPassed = callDue.desc.cyclesNeeded := by decide

theorem witness_RetJumpsToItsTarget :
    (visiting lab 3 retDue).turn = .execute 3 ∧ (visiting lab 3 retDue).holds 3 retDue ∧
    retDue.cyclesPassed = retDue.desc.cyclesNeeded := by decide

theorem witness_ExecuteFrame :
    ∃ t, MemoryCanonical (visiting lab 1 (storeDue 9)) ∧ (visiting lab 1 (storeDue 9)).turn = .execute 1 ∧
      (visiting lab 1 (storeDue 9)).holds 1 (storeDue 9) ∧
      exec (.store 5 7 1) (visiting lab 1 (storeDue 9)) = .next t := ⟨_, by decide, rfl, rfl, rfl⟩

/-! ## Witnesses: the cycle -/

/-- Between the phases of a step: `turn` is `issue`, and an ADD is due. -/
def addReady : State := { visiting lab 4 addDue with turn := .issue }

theorem witness_StepRunsTheDecodedInstruction :
    ((labAt 0 0x5458).fault = none ∧ (labAt 0 0x5458).jumpPending = false ∧
      memRead (labAt 0 0x5458).mem (labAt 0 0x5458).pc = .ok 0x5458 ∧ (0x5458 : Word) ≠ 0 ∧
      decode (labAt 0 0x5458).params.opcodes 0x5458 = .valid (.add 2 1 3)) ∧
    (addReady.holds 4 addDue ∧ addDue.busy = true ∧ addDue.instr = some (.add 2 1 3) ∧
      addDue.op = some (Instr.add 2 1 3).opcode ∧ addDue.qj = none ∧ addDue.qk = none ∧ blocked addReady 4 addDue = false) :=
  ⟨⟨rfl, rfl, rfl, by decide, by decide⟩, by decide⟩

/-- One witness for each clause; the pc just outside memory on either side. -/
theorem witness_FetchStallsOrFaultsAtOnce :
    lab.fault = none ∧ { lab with jumpPending := true }.jumpPending = true ∧ inBounds lab.pc = true ∧
    lab.mem.get lab.pc.toNat = 0 ∧ lab.jumpPending = false ∧ inBounds { lab with pc := -1 }.pc = false ∧
    inBounds { lab with pc := 65536 }.pc = false ∧ memRead (labAt 0 0x9000).mem (labAt 0 0x9000).pc = .ok 0x9000 ∧
    (0x9000 : Word) ≠ 0 ∧ decode (labAt 0 0x9000).params.opcodes 0x9000 = .invalid :=
  ⟨rfl, rfl, rfl, rfl, rfl, rfl, rfl, rfl, by decide, by decide⟩

theorem witness_CycleAdvanceCountsReadyStations : lab.holds 4 (stationAt lab 4) ∧ addReady.holds 4 addDue := by decide

/-- One witness for each policy, and one for each reason to skip a visit. -/
theorem witness_PendingBranchBlocksByPolicy :
    (taking .restore).holds 4 { addDue with seq := 5 } ∧
    (taking .restore).params.executeBranchBlock = .speculativeOnly ∧
    blocked (taking .restore) 4 { addDue with seq := 5 } = true ∧
    { Params.default with executeBranchBlock := .allButBranch }.executeBranchBlock = .allButBranch ∧
    { addDue with qj := some 0 }.qj ≠ none ∧ (stationAt lab 4).busy = false ∧ addDue.seq ≠ 9 := by decide

theorem witness_OldestReadyResultWinsTheBus :
    branching.branchPending = true ∧ cdb lab = none ∧
    cdb broadcasting = some { entry := { seq := 0, instr := .load 1 7 0, cycle := 1, station := 0 }, value := 42 } := by
  decide

/-- The bus carries the LOAD's value; the ADD's station is another one; the LOAD's station is the producer. -/
theorem witness_BroadcastWritesAndWakes :
    cdb broadcasting = some { entry := { seq := 0, instr := .load 1 7 0, cycle := 1, station := 0 }, value := 42 } ∧
    broadcasting.holds 4 (stationAt broadcasting 4) ∧ broadcasting.holds 0 (stationAt broadcasting 0) := by decide

/-! ## Witnesses: the invariants and whole-machine rules -/

/-- 95 V-DEAD in small: an ADD that writes R1 has its result, and the BEQ behind it waits on it. -/
def waiting : State :=
  { lab with
    stations := (lab.stations.set 4 (withResult { addDue with instr := some (.add 1 2 3) } 45)).set 2
      { beqDue 0 0 with vj := none, qj := some 4, seq := 1, cyclesPassed := 0 }
    regStat := lab.regStat.set 1 (some 4)
    branchPending := true
    pendingBranch := some 2
    checkpoint := some (lab.regStat.set 1 (some 4))
    issued := [{ seq := 0, instr := .add 1 2 3, cycle := 1, station := 4 },
      { seq := 1, instr := .beq 1 2 2, cycle := 2, station := 2 }]
    nextSeq := 2
    pc := 2 }

theorem waiting_sequence : SequenceUnique waiting where
  below := by decide
  distinct := by
    have h : ∀ k k' : Fin waiting.stations.length, waiting.stations[k].busy = true → waiting.stations[k'].busy = true →
        waiting.stations[k].seq = waiting.stations[k'].seq → k.val = k'.val := by decide
    intro k k' S S' hk hk' hb hb' hq
    obtain ⟨hlt, rfl⟩ := List.getElem?_eq_some_iff.mp hk
    obtain ⟨hlt', rfl⟩ := List.getElem?_eq_some_iff.mp hk'
    exact h ⟨k, hlt⟩ ⟨k', hlt'⟩ hb hb' hq
  rising := by decide
  logBelow := by decide

theorem waiting_logged : InFlightLogged waiting := holds_all (s := waiting) (by decide)

theorem waiting_branch : BranchInFlight waiting where
  held := fun b hb => ⟨stationAt waiting 2, by obtain rfl : 2 = b := Option.some.inj hb; decide⟩
  only := holds_all (s := waiting) (P := fun k S => S.busy = true → S.op = some .beq → waiting.pendingBranch = some k)
    (by decide)

theorem waiting_no_jump : ∀ S ∈ waiting.stations, ¬ (S.busy = true ∧ S.op.any isJump = true) := by decide

theorem waiting_jump : JumpInFlight waiting where
  held := fun h => by cases h
  only := fun k S o hk hb ho hj => absurd ⟨hb, by simp [ho, hj]⟩ (waiting_no_jump S (List.mem_of_getElem? hk))
  one := fun k k' S S' o o' hk _ hb _ ho _ hj _ =>
    absurd ⟨hb, by simp [ho, hj]⟩ (waiting_no_jump S (List.mem_of_getElem? hk))
  after := fun b B k S o _ _ hk hb ho hj => absurd ⟨hb, by simp [ho, hj]⟩ (waiting_no_jump S (List.mem_of_getElem? hk))

theorem waiting_coherent : EngineCoherent waiting where
  stations := by decide
  sequence := waiting_sequence
  flags := by decide
  branch := waiting_branch
  jump := waiting_jump

/-- The producer of every tag in `waiting`. -/
theorem waiting_producer :
    waiting.holds 4 (stationAt waiting 4) ∧ (stationAt waiting 4).busy = true ∧
    (stationAt waiting 4).instr = some (.add 1 2 3) := by decide

theorem waiting_tags : TagsLive waiting where
  slots := by
    have h : ∀ S ∈ waiting.stations, S.busy = true → (S.qj = none ∨ S.qj = some 4 ∧ 0 < S.seq) ∧ S.qk = none := by decide
    intro k S p hk hb hq
    obtain ⟨hj, hk'⟩ := h S (List.mem_of_getElem? hk) hb
    rw [hk'] at hq
    obtain hj | ⟨hj, hs⟩ := hj
    · rw [hj] at hq; simp at hq
    · obtain rfl : 4 = p := by rw [hj] at hq; simpa using hq
      exact ⟨_, _, waiting_producer.1, waiting_producer.2.1, waiting_producer.2.2, rfl, hs⟩
  table := by
    have h : ∀ r, waiting.status r = none ∨ waiting.status r = some 4 ∧ r = 1 := by decide
    intro r p hr
    obtain h0 | ⟨h4, rfl⟩ := h r
    · rw [h0] at hr; cases hr
    · obtain rfl : 4 = p := by rw [h4] at hr; simpa using hr
      exact ⟨_, _, waiting_producer.1, waiting_producer.2.1, waiting_producer.2.2, rfl⟩
  saved := by
    have h : ∀ r, (lab.regStat.set 1 (some 4)).get r = none ∨ (lab.regStat.set 1 (some 4)).get r = some 4 ∧ r = 1 := by
      decide
    intro c hc r p hr
    obtain rfl : lab.regStat.set 1 (some 4) = c := Option.some.inj hc
    obtain h0 | ⟨h4, rfl⟩ := h r
    · rw [h0] at hr; cases hr
    · obtain rfl : 4 = p := by rw [h4] at hr; simpa using hr
      refine ⟨_, _, waiting_producer.1, waiting_producer.2.1, waiting_producer.2.2, rfl, ?_⟩
      intro b B hb hB
      obtain rfl : 2 = b := Option.some.inj hb
      obtain rfl : stationAt waiting 2 = B := Option.some.inj hB
      decide

/-- One state that meets the premises of every `StepKeeps…` statement, of `CoherentEngineIsNeverRefused` and of
`RecoveryMachineTransitions`, and steps. -/
theorem witness_StepKeeps :
    ∃ t, MemoryCanonical waiting ∧ ZeroRegister waiting ∧ FreeStationsReleased waiting ∧ CountersBounded waiting ∧
      StationsCoherent waiting ∧ SequenceUnique waiting ∧ InFlightLogged waiting ∧ EngineCoherent waiting ∧
      TagsLive waiting ∧ LatenciesPositive waiting ∧ waiting.params.squashRegStatPolicy = .restore ∧
      waiting.fault = none ∧ step waiting = .next t :=
  ⟨_, by decide, by decide, by decide, by decide, by decide, waiting_sequence, waiting_logged, waiting_coherent,
    waiting_tags, by decide, by decide, rfl, rfl⟩

theorem witness_HaltedStepOnlyAdvancesTheCycle : lab.fault = none ∧ halted lab = true := by decide

theorem witness_WaitingBranchNeverResolves :
    ∃ t, EngineCoherent waiting ∧ BranchWaits waiting 2 (stationAt waiting 2) ∧ stepN 2 waiting = .next t :=
  ⟨_, waiting_coherent, ⟨rfl, rfl, rfl, Or.inl rfl⟩, rfl⟩

theorem witness_DefaultPoliciesFaultOnlyOnBoundsOrOpcode :
    lab.params.nestedBranchPolicy = .stall ∧ lab.params.retLinkPolicy = .readFile ∧
    lab.params.squashRegStatPolicy = .restore ∧ step { lab with pc := -1 } = .fault (.boundsError (-1)) ∧
    step (labAt 0 0xFFFF) = .fault (.illegalInstruction 0xFFFF 0) := ⟨rfl, rfl, rfl, rfl, rfl⟩

theorem witness_FaultLeavesTheEngineAsItWas : step { lab with pc := 65536 } = .fault (.boundsError 65536) := rfl

/-! ## Witnesses: an instruction alone in the engine -/

theorem lab_committed : ∀ r, lab.status r = none := by decide

/-- The instruction whose word is at the PC of `lab`, in the station that takes it. -/
theorem aboutToRun {w : Word} {i : Instr} {k : Nat} (hf : fetch (labAt 0 w) = .instr i)
    (hk : firstFree (unitKind i.opcode) (labAt 0 w).stations = some (k, stationAt lab k))
    (hd : (stationAt lab k).desc.wf = true) : AboutToRun (labAt 0 w) i k (stationAt lab k) where
  unfaulted := rfl
  quiet := rfl
  fetched := hf
  free := hk
  desc := hd
  committed := lab_committed
  logged := by intro e he; cases he

theorem witness_AluInstructionRunsToItsRegister :
    AboutToRun (labAt 0 0x8AA0) (.mul 5 2 4) 6 (stationAt lab 6) ∧ EmptyNext (labAt 0 0x8AA0) ∧
    aluFields (.mul 5 2 4) = some (5, 2, 4) ∧
    AboutToRun (labAt 0 0x7000) (.nor 0 0 0) 5 (stationAt lab 5) ∧ EmptyNext (labAt 0 0x7000) ∧
    aluFields (.nor 0 0 0) = some (0, 0, 0) :=
  ⟨aboutToRun (by decide) (by decide) (by decide), by decide, rfl, aboutToRun (by decide) (by decide) (by decide),
    by decide, rfl⟩

theorem witness_LoadRunsToItsRegister :
    AboutToRun (labAt 0 0x03C0) (.load 1 7 0) 0 (stationAt lab 0) ∧ EmptyNext (labAt 0 0x03C0) ∧
    inBounds ((((labAt 0 0x03C0).readReg 7).toNat : Int) + 0) = true :=
  ⟨aboutToRun (by decide) (by decide) (by decide), by decide, by decide⟩

theorem witness_StoreRunsToMemory :
    AboutToRun (labAt 0 0x1BC1) (.store 5 7 1) 1 (stationAt lab 1) ∧ EmptyNext (labAt 0 0x1BC1) ∧
    MemoryCanonical (labAt 0 0x1BC1) ∧ inBounds ((((labAt 0 0x1BC1).readReg 7).toNat : Int) + 1) = true :=
  ⟨aboutToRun (by decide) (by decide) (by decide), by decide, by decide, by decide⟩

/-- One BEQ that is not taken and one that is. -/
theorem witness_BeqRunsToItsTarget :
    AboutToRun (labAt 0 0x2282) (.beq 1 2 2) 2 (stationAt lab 2) ∧ EmptyNext (labAt 0 0x2282) ∧
    (labAt 0 0x2282).readReg 1 ≠ (labAt 0 0x2282).readReg 2 ∧
    AboutToRun (labAt 0 0x2FFF) (.beq 7 7 (-1)) 2 (stationAt lab 2) ∧ EmptyNext (labAt 0 0x2FFF) :=
  ⟨aboutToRun (by decide) (by decide) (by decide), by decide, by decide,
    aboutToRun (by decide) (by decide) (by decide), by decide⟩

theorem witness_JumpRunsToItsTarget :
    AboutToRun (labAt 0 0x3003) (.call 3) 3 (stationAt lab 3) ∧ isJump (Instr.call 3).opcode = true ∧
    AboutToRun (labAt 0 0x4000) .ret 3 (stationAt lab 3) ∧ isJump Instr.ret.opcode = true :=
  ⟨aboutToRun (by decide) (by decide) (by decide), rfl, aboutToRun (by decide) (by decide) (by decide), rfl⟩

/-! ## Witnesses: configuration -/

theorem witness_ConfigurationChecksAndStores :
    { lab with started := true }.started = true ∧ lab.started = false ∧
    errorOf (configure (.setRegister 0 65536) lab) = some (.rangeError .registerValue 65536) ∧
    ((0 : Int) ≤ 7 ∧ (7 : Int) ≤ 7 ∧ (-32768 : Int) ≤ -32768 ∧ (-32768 : Int) ≤ 65535) ∧ ¬ ((0 : Int) ≤ 8 ∧ (8 : Int) ≤ 7) ∧
    ¬ ((-32768 : Int) ≤ 65536 ∧ (65536 : Int) ≤ 65535) ∧ ((0 : Int) ≤ 65535 ∧ (65535 : Int) ≤ 65535) ∧
    ¬ ((0 : Int) ≤ -1 ∧ (-1 : Int) ≤ 65535) := by decide

theorem witness_AddStationAcceptsExactlyValidDescriptors :
    ∃ t, lab.started = false ∧
      configure (.addStation { name := "Add2", kind := .addsub, cyclesNeeded := 1 }) lab = .ok t := ⟨_, rfl, rfl⟩

/-- A block that ends at the top of memory, and an empty one. -/
theorem witness_BlockLoadsStoreEveryWord :
    ∃ t u v x, MemoryCanonical lab ∧ configure (.bulkLoad 65535 [(Instr.ret).record]) lab = .ok t ∧
      configure (.loadData 65534 [-32768, 65535]) lab = .ok u ∧ configure (.loadData 0 []) lab = .ok v ∧
      configure (.loadInstruction 65535 (Instr.call 63).record) lab = .ok x :=
  ⟨_, _, _, _, by decide, rfl, rfl, rfl, rfl⟩

/-- For each error clause, blocks at the edges of memory whose other words are good. -/
theorem witness_BlockLoadsStoreEveryWord_rejected :
    lab.started = false ∧
    (∀ r ∈ [Instr.ret.record, (Instr.call 63).record], ∃ w, encodeRecord lab.params r = .ok w) ∧
    errorOf (configure (.bulkLoad (-1) [Instr.ret.record, (Instr.call 63).record]) lab) = some (.boundsError (-1)) ∧
    errorOf (configure (.bulkLoad 65535 [Instr.ret.record, (Instr.call 63).record]) lab) = some (.boundsError 65536) ∧
    errorOf (configure (.loadData (-1) [-32768, 65535]) lab) = some (.boundsError (-1)) ∧
    errorOf (configure (.loadData 65537 [-32768, 65535]) lab) = some (.boundsError 65537) ∧
    errorOf (configure (.loadInstruction 65536 Instr.ret.record) lab) = some (.boundsError 65536) ∧
    errorOf (configure (.bulkLoad 65534 ([Instr.ret.record] ++ { opcode := .call, label := some 64 } :: [])) lab)
      = some (.rangeError .label 64) ∧
    errorOf (configure (.loadData 65533 ([65535] ++ 65536 :: [-32768])) lab) = some (.rangeError .dataWord 65536) ∧
    errorOf (configure (.loadInstruction 65535 { opcode := .ret, label := some 0 }) lab) = some (.fieldError .label) := by
  refine ⟨rfl, ?_, by decide, by decide, by decide, by decide, by decide, by decide, by decide, by decide⟩
  intro r hr
  fin_cases hr
  exacts [⟨_, rfl⟩, ⟨_, rfl⟩]

theorem witness_ConfigurationKeepsTheInvariants :
    MemoryCanonical waiting ∧ ZeroRegister waiting ∧ FreeStationsReleased waiting ∧ EngineCoherent waiting ∧
    LatenciesPositive waiting ∧ CountersBounded waiting ∧ InFlightLogged waiting ∧ TagsLive waiting ∧
    waiting.started = false :=
  ⟨by decide, by decide, by decide, waiting_coherent, by decide, by decide, waiting_logged, waiting_tags, rfl⟩

end Sys2Proof.Tests
end

/-! SUPPORT. The round trip of the codec (30_encoding.md R85, R88, R92) and the bits that a format ignores (R89). -/

namespace Sys2Proof.Proofs.Codec

open Machine Laws.OpcodeField
open BitVec (extractLsb'_append_eq_of_le extractLsb'_append_eq_of_add_le extractLsb'_append_eq_right
  extractLsb'_append_extractLsb' extractLsb'_append_extractLsb'_eq_extractLsb' extractLsb'_eq_self)

/-! ## The opcode map and the verdict -/

/-- The verdict of a word whose opcode field names `o`. -/
theorem decode_of_opOf {m : OpcodeMap} {w : Word} {o : OpCode} (h : m.opOf (opcodeField w) = some o) :
    decode m w = .valid (instrOf o w) := by
  rw [decode, h]

theorem decode_eq_valid {m : OpcodeMap} {w : Word} {i : Instr} (h : decode m w = .valid i) :
    ∃ o, m.opOf (opcodeField w) = some o ∧ i = instrOf o w := by
  unfold decode at h
  split at h
  next => cases h
  next o ho => cases h; exact ⟨o, ho, rfl⟩

theorem code_of_opOf {m : OpcodeMap} {c : BitVec 4} {o : OpCode} (h : m.opOf c = some o) : m.code o = c :=
  beq_iff_eq.mp (List.find?_some (p := fun o => m.code o == c) h)

theorem mem_opCode_all (o : OpCode) : o ∈ OpCode.all := by cases o <;> decide

theorem code_injective {m : OpcodeMap} (hm : m.wf = true) : Function.Injective m.code := fun o o' h =>
  List.inj_on_of_nodup_map (of_decide_eq_true hm) (mem_opCode_all o) (mem_opCode_all o') h

/-- The search for an opcode finds something, since `o` is listed, and by injectivity what it finds is `o`. -/
theorem opOf_code {m : OpcodeMap} (hm : m.wf = true) (o : OpCode) : m.opOf (m.code o) = some o := by
  have hsome : (m.opOf (m.code o)).isSome := List.find?_isSome.mpr ⟨o, mem_opCode_all o, beq_self_eq_true _⟩
  obtain ⟨o', ho'⟩ := Option.isSome_iff_exists.mp hsome
  rw [ho', code_injective hm (code_of_opOf ho')]

@[simp] theorem opcode_instrOf (o : OpCode) (w : Word) : (instrOf o w).opcode = o := by cases o <;> rfl

theorem opcodeField_encode (m : OpcodeMap) (i : Instr) : opcodeField (encode m i) = m.code i.opcode := by
  cases i with
  | load | store | beq => exact opcodeField_encodeRRI ..
  | call => exact opcodeField_encodeJ ..
  | ret => exact opcodeField_encodeN ..
  | add | sub | nor | mul => exact opcodeField_encodeRRR ..

/-- Whatever the ranges of its fields, the word of an instruction decodes to the instruction of the same opcode. -/
theorem decode_encode_eq_instrOf {m : OpcodeMap} (hm : m.wf = true) (i : Instr) :
    decode m (encode m i) = .valid (instrOf i.opcode (encode m i)) := by
  refine decode_of_opOf ?_
  rw [opcodeField_encode, opOf_code hm]

/-! ## The fields of an encoded word -/

@[simp] theorem regOf_regBits (r : RegIdx) : regOf (regBits r) = r := rfl

@[simp] theorem rAField_encodeRRI (c : BitVec 4) (rA rB : RegIdx) (o : Int) : rAField (encodeRRI c rA rB o) = rA := by
  simp (disch := omega) only [rAField, encodeRRI, extractLsb'_append_eq_of_le, extractLsb'_append_eq_of_add_le,
    Nat.reduceSub, extractLsb'_eq_self, regOf_regBits]

@[simp] theorem rBField_encodeRRI (c : BitVec 4) (rA rB : RegIdx) (o : Int) : rBField (encodeRRI c rA rB o) = rB := by
  simp (disch := omega) only [rBField, encodeRRI, extractLsb'_append_eq_of_le, extractLsb'_append_eq_of_add_le,
    Nat.reduceSub, extractLsb'_eq_self, regOf_regBits]

@[simp] theorem offsetField_encodeRRI (c : BitVec 4) (rA rB : RegIdx) (o : Int) :
    offsetField (encodeRRI c rA rB o) = o.bmod 32 := by
  rw [offsetField, encodeRRI, extractLsb'_append_eq_right, off5, BitVec.toInt_ofInt]

@[simp] theorem labelField_encodeJ (c : BitVec 4) (l : Int) : labelField (encodeJ c l) = l.bmod 128 := by
  rw [labelField, encodeJ, extractLsb'_append_eq_right, label7, BitVec.toInt_ofInt]

@[simp] theorem rAField_encodeRRR (c : BitVec 4) (rA rB rC : RegIdx) : rAField (encodeRRR c rA rB rC) = rA := by
  simp (disch := omega) only [rAField, encodeRRR, extractLsb'_append_eq_of_le, extractLsb'_append_eq_of_add_le,
    Nat.reduceSub, extractLsb'_eq_self, regOf_regBits]

@[simp] theorem rBField_encodeRRR (c : BitVec 4) (rA rB rC : RegIdx) : rBField (encodeRRR c rA rB rC) = rB := by
  simp (disch := omega) only [rBField, encodeRRR, extractLsb'_append_eq_of_le, extractLsb'_append_eq_of_add_le,
    Nat.reduceSub, extractLsb'_eq_self, regOf_regBits]

@[simp] theorem rCField_encodeRRR (c : BitVec 4) (rA rB rC : RegIdx) : rCField (encodeRRR c rA rB rC) = rC := by
  simp (disch := omega) only [rCField, encodeRRR, extractLsb'_append_eq_of_le, extractLsb'_append_eq_of_add_le,
    Nat.reduceSub, extractLsb'_eq_self, regOf_regBits]

theorem bmod_32_of_offsetInRange {o : Int} (h : offsetInRange o = true) : o.bmod 32 = o := by
  simp only [offsetInRange, Bool.and_eq_true, decide_eq_true_eq] at h
  exact Int.bmod_eq_of_le (by omega) (by omega)

theorem bmod_128_of_labelInRange {l : Int} (h : labelInRange l = true) : l.bmod 128 = l := by
  simp only [labelInRange, Bool.and_eq_true, decide_eq_true_eq] at h
  exact Int.bmod_eq_of_le (by omega) (by omega)

theorem instrOf_encode (m : OpcodeMap) {i : Instr} (h : i.wf true = true) : instrOf i.opcode (encode m i) = i := by
  cases i with
  | load rA rB o | store rA rB o | beq rA rB o =>
    simp [Instr.opcode, instrOf, encode, bmod_32_of_offsetInRange h]
  | call l => simp [Instr.opcode, instrOf, encode, bmod_128_of_labelInRange h]
  | ret => rfl
  | add | sub | nor | mul => simp [Instr.opcode, instrOf, encode]

/-! ## A word put together from its fields -/

theorem regBits_regOf (b : BitVec 3) : regBits (regOf b) = b := rfl

theorem off5_offsetField (w : Word) : off5 (offsetField w) = w.extractLsb' 0 5 := BitVec.ofInt_toInt

theorem label7_labelField (w : Word) : label7 (labelField w) = w.extractLsb' 0 7 := BitVec.ofInt_toInt

theorem encodeRRI_fields {w : Word} (h : ignoredBitsZero .rri w = true) :
    encodeRRI (opcodeField w) (rAField w) (rBField w) (offsetField w) = w := by
  have h5 : 0#1 = w.extractLsb' 5 1 := (beq_iff_eq.mp h).symm
  rw [encodeRRI, off5_offsetField, h5]
  simp (disch := rfl) only [opcodeField, rAField, rBField, regBits_regOf, extractLsb'_append_extractLsb'_eq_extractLsb']
  exact extractLsb'_eq_self

theorem encodeRRR_fields {w : Word} (h : ignoredBitsZero .rrr w = true) :
    encodeRRR (opcodeField w) (rAField w) (rBField w) (rCField w) = w := by
  have h0 : 0#3 = w.extractLsb' 0 3 := (beq_iff_eq.mp h).symm
  rw [encodeRRR, h0]
  simp (disch := rfl) only [opcodeField, rAField, rBField, rCField, regBits_regOf,
    extractLsb'_append_extractLsb'_eq_extractLsb']
  exact extractLsb'_eq_self

theorem encodeJ_fields {w : Word} (h : ignoredBitsZero .j w = true) :
    encodeJ (opcodeField w) (labelField w) = w := by
  have h7 : 0#5 = w.extractLsb' 7 5 := (beq_iff_eq.mp h).symm
  rw [encodeJ, label7_labelField, h7]
  simp (disch := rfl) only [opcodeField, extractLsb'_append_extractLsb'_eq_extractLsb']
  exact extractLsb'_eq_self

theorem encodeN_fields {w : Word} (h : ignoredBitsZero .n w = true) : encodeN (opcodeField w) = w := by
  have h0 : 0#12 = w.extractLsb' 0 12 := (beq_iff_eq.mp h).symm
  rw [encodeN, h0, opcodeField, extractLsb'_append_extractLsb']

/-- A word with its ignored bits zero is the encoding of the instruction it holds. -/
theorem encode_instrOf {m : OpcodeMap} {o : OpCode} {w : Word} (hc : m.code o = opcodeField w)
    (h : ignoredBitsZero o.format w = true) : encode m (instrOf o w) = w := by
  cases o with
  | load | store | beq => exact (congrArg (encodeRRI · _ _ _) hc).trans (encodeRRI_fields h)
  | call => exact (congrArg (encodeJ · _) hc).trans (encodeJ_fields h)
  | ret => exact (congrArg encodeN hc).trans (encodeN_fields h)
  | add | sub | nor | mul => exact (congrArg (encodeRRR · _ _ _) hc).trans (encodeRRR_fields h)

/-! ## Ignored bits -/

/-- Words equal outside a mask agree on a field that the mask does not meet. -/
theorem extractLsb'_eq_of_or_eq {w w' mask : Word} {start len : Nat} (h : w ||| mask = w' ||| mask)
    (hmask : mask.extractLsb' start len = 0) : w.extractLsb' start len = w'.extractLsb' start len := by
  have hfield := congrArg (BitVec.extractLsb' start len) h
  simpa [BitVec.extractLsb'_or, hmask] using hfield

/-- No format ignores the opcode field. -/
theorem opcodeField_eq_of_or_ignoredMask_eq {f : Format} {w w' : Word}
    (h : w ||| ignoredMask f = w' ||| ignoredMask f) : opcodeField w = opcodeField w' :=
  extractLsb'_eq_of_or_eq h (by cases f <;> decide)

/-- An opcode's instruction reads no bit that its format ignores. -/
theorem instrOf_eq_of_or_ignoredMask_eq {o : OpCode} {w w' : Word}
    (h : w ||| ignoredMask o.format = w' ||| ignoredMask o.format) : instrOf o w = instrOf o w' := by
  cases o with
  | load | store | beq =>
    have hA : rAField w = rAField w' := congrArg regOf (extractLsb'_eq_of_or_eq h (by decide))
    have hB : rBField w = rBField w' := congrArg regOf (extractLsb'_eq_of_or_eq h (by decide))
    have hO : offsetField w = offsetField w' := congrArg BitVec.toInt (extractLsb'_eq_of_or_eq h (by decide))
    simp only [instrOf, hA, hB, hO]
  | call =>
    have hL : labelField w = labelField w' := congrArg BitVec.toInt (extractLsb'_eq_of_or_eq h (by decide))
    simp only [instrOf, hL]
  | ret => rfl
  | add | sub | nor | mul =>
    have hA : rAField w = rAField w' := congrArg regOf (extractLsb'_eq_of_or_eq h (by decide))
    have hB : rBField w = rBField w' := congrArg regOf (extractLsb'_eq_of_or_eq h (by decide))
    have hC : rCField w = rCField w' := congrArg regOf (extractLsb'_eq_of_or_eq h (by decide))
    simp only [instrOf, hA, hB, hC]

theorem decode_eq_of_or_ignoredMask_eq {m : OpcodeMap} {o : OpCode} {w w' : Word}
    (ho : m.opOf (opcodeField w) = some o) (h : w ||| ignoredMask o.format = w' ||| ignoredMask o.format) :
    decode m w = decode m w' := by
  have ho' : m.opOf (opcodeField w') = some o := opcodeField_eq_of_or_ignoredMask_eq h ▸ ho
  rw [decode_of_opOf ho, decode_of_opOf ho', instrOf_eq_of_or_ignoredMask_eq h]

/-- Setting the ignored bits of the word of RET gives a second word of RET (R92). -/
theorem exists_ne_decode_eq {m : OpcodeMap} (hm : m.wf = true) :
    ∃ w w' : Word, w ≠ w' ∧ decode m w ≠ .invalid ∧ decode m w = decode m w' := by
  have ho : m.opOf (opcodeField (encode m .ret)) = some .ret := by rw [opcodeField_encode]; exact opOf_code hm .ret
  refine ⟨encode m .ret, encode m .ret ||| ignoredMask .n, fun h => ?_, ?_, ?_⟩
  · have hlow := congrArg (BitVec.extractLsb' 0 12) h
    rw [BitVec.extractLsb'_or, show encode m .ret = m.ret ++ 0#12 from rfl, extractLsb'_append_eq_right] at hlow
    exact absurd hlow (by decide)
  · rw [decode_of_opOf ho]; exact Verdict.noConfusion
  · exact decode_eq_of_or_ignoredMask_eq ho (by rw [BitVec.or_assoc]; rfl)

/-! ## The obligations -/

/-- Settles O1: a word carries the code of its opcode and the fields of its instruction, and a canonical word is put
together from just those. -/
theorem decodeInvertsEncode : Obligations.DecodeInvertsEncode := by
  intro m hm
  refine ⟨fun i hi => ?_, fun w i hdec hzero => ?_, exists_ne_decode_eq hm⟩
  · rw [decode_encode_eq_instrOf hm, instrOf_encode m hi]
  · obtain ⟨o, ho, rfl⟩ := decode_eq_valid hdec
    rw [opcode_instrOf] at hzero
    exact encode_instrOf (code_of_opOf ho) hzero

/-- Settles O2: every field that decode reads lies outside the mask of its format. -/
theorem ignoredBitsDoNotDecode : Obligations.IgnoredBitsDoNotDecode := by
  refine ⟨fun m o w w' ho h => ?_, by decide, by decide, by decide, by decide⟩
  have heq := decode_eq_of_or_ignoredMask_eq ho h
  refine ⟨heq, ?_⟩
  rw [← heq, decode_of_opOf ho]
  exact Verdict.noConfusion

end Sys2Proof.Proofs.Codec

/-! SUPPORT. What every issue writes (40_pipeline.md R121 to R124) and what Cycle-advance counts (R112). -/

namespace Sys2Proof.Proofs.Pipeline

open Machine

/-! ## Issue -/

/-- The instruction's own writes to its station leave `originalPC` and `addrReady` as R121 sets them. -/
theorem issueFill_originalPC_addrReady (i : Instr) (s : State) (S : Station) :
    (issueFill i s (S.occupied s i)).originalPC = s.pc ∧ (issueFill i s (S.occupied s i)).addrReady = false := by
  cases i <;> exact ⟨rfl, rfl⟩

/-- The register-status table after an issue, entry by entry (R121). -/
theorem issuedInto_status (i : Instr) (k : Nat) (S : Station) (s : State) (r : RegIdx) :
    (issuedInto i k S s).status r = if destOf i = some r ∧ r ≠ 0 then some k else s.status r := by
  rw [State.status, issuedInto_regStat, get_renamed, State.status]

/-! ## Cycle-advance -/

/-- The condition of R112, in the station's fields. -/
theorem counts_iff (S : Station) :
    S.counts = true ↔ S.busy = true ∧ S.qj = none ∧ S.qk = none ∧
      (S.cyclesPassed < S.desc.cyclesNeeded ∨ S.result ≠ none) := by
  simp [Station.counts, Station.ready, Option.isSome_iff_ne_none, and_assoc]

/-- A station at Cycle-advance differs in `cyclesPassed` only, which moves exactly when the station counts (R112). -/
theorem advanced_eq (S : Station) :
    S.advanced = { S with cyclesPassed := if S.counts = true then S.cyclesPassed + 1 else S.cyclesPassed } := by
  unfold Station.advanced
  split <;> rfl

/-- Cycle-advance treats each station by itself (R111). -/
theorem cycleAdvance_holds {s : State} {k : Nat} {S : Station} (h : s.holds k S) :
    (cycleAdvance s).holds k S.advanced := by
  rw [State.holds] at h
  simp [State.holds, cycleAdvance, h]

/-! ## The obligations -/

/-- Settles O11: an issue that is no stall is `issuedInto` the first free station of its kind, whose fields are known. -/
theorem issueOccupiesRenamesAndLogs : Obligations.IssueOccupiesRenamesAndLogs := by
  intro i s t hturn hexec hne
  obtain rfl | ⟨k, S, hfree, rfl, -⟩ := exec_issue_cases hturn hexec
  · exact absurd rfl hne
  · have hholds : (issuedInto i k S s).holds k (issueFill i s (S.occupied s i)) :=
      (issuedInto_holds hfree k _).2 (.inl ⟨rfl, rfl⟩)
    obtain ⟨hdesc, hbusy, hop, hinstr, hseq, hresult, hcycles⟩ := issueFill_fields i S s
    obtain ⟨hpc, haddr⟩ := issueFill_originalPC_addrReady i s S
    exact ⟨k, S, _, hfree, hholds, hdesc, hbusy, hop, hinstr, hpc, hcycles, hresult, haddr, hseq,
      issuedInto_status i k S s, issuedInto_pc i k S s, issuedInto_issuedAfterBranch i k S s,
      issuedInto_issued i k S s, issuedInto_nextSeq i k S s⟩

/-- Settles O31: Cycle-advance maps `Station.advanced` over the stations, and `counts_iff` reads its condition. -/
theorem cycleAdvanceCountsReadyStations : Obligations.CycleAdvanceCountsReadyStations := by
  intro s k S hS
  have hadv := cycleAdvance_holds hS
  rw [advanced_eq] at hadv
  simpa only [counts_iff] using hadv

end Sys2Proof.Proofs.Pipeline

/-! SUPPORT. How the instructions in flight fare from phase to phase: which busy stations come from where, and which
are kept (10_state.md R25, R38; 43_control_instructions.md R195). -/

namespace Sys2Proof.Proofs.Phases

open Machine

/-- `T'` holds the instruction in flight that `T` holds. -/
structure SameHolder (T T' : Station) : Prop where
  busy : T'.busy = T.busy
  op : T'.op = T.op
  instr : T'.instr = T.instr
  seq : T'.seq = T.seq

theorem SameHolder.refl (T : Station) : SameHolder T T := ⟨rfl, rfl, rfl, rfl⟩

theorem sameHolder_of_sameStation {T T' : Station} (h : SameStation T T') : SameHolder T T' :=
  ⟨h.busy, h.op, h.instr, h.seq⟩

theorem woken_sameHolder (k : Nat) (v : Word) (T : Station) : SameHolder T (T.woken k v) := by
  obtain ⟨-, hbusy, hop, hinstr, hseq, -⟩ := woken_fields k v T
  exact ⟨hbusy, hop, hinstr, hseq⟩

/-- Every instruction in flight in `u` was in flight in `s`, in the same station. -/
def Descends (s u : State) : Prop :=
  ∀ j T', u.holds j T' → T'.busy = true → ∃ T, s.holds j T ∧ SameHolder T T'

/-- Station `j` holds in `u` the instruction that it holds in `s`. -/
def KeptAt (s u : State) (j : Nat) : Prop := ∀ T, s.holds j T → ∃ T', u.holds j T' ∧ SameHolder T T'

/-! ## The length of the station list -/

theorem length_stations_of_executes {i : Instr} {k : Nat} {S : Station} {s u : State} (h : Executes i k S s u) :
    u.stations.length = s.stations.length := by
  cases h with
  | taken => simp [squashed]
  | idle | waits | result | reads | writes | notTaken | calls | returns => simp

/-- A station list of the same length has a station at every index of the other. -/
theorem exists_holds_of_length {s u : State} (hlen : u.stations.length = s.stations.length) {j : Nat} {T : Station}
    (h : s.holds j T) : ∃ T', u.holds j T' :=
  ⟨u.stations[j]'(hlen ▸ holds_lt h), List.getElem?_eq_getElem _⟩

/-! ## Cycle-advance -/

theorem begin_descends (s : State) : Descends s (beginCycle s) := by
  intro j T' hT' _
  obtain ⟨T, hT, rfl⟩ := (beginCycle_holds j T').1 hT'
  exact ⟨T, hT, sameHolder_of_sameStation (advanced_sameStation T)⟩

theorem begin_keptAt (s : State) (j : Nat) : KeptAt s (beginCycle s) j := fun T hT =>
  ⟨T.advanced, (beginCycle_holds j _).2 ⟨T, hT, rfl⟩, sameHolder_of_sameStation (advanced_sameStation T)⟩

/-! ## Issue -/

section Issue

variable {i : Instr} {k : Nat} {S : Station} {s : State}
  (hfree : firstFree (unitKind i.opcode) s.stations = some (k, S))

include hfree

/-- The allocated station is not a busy one. -/
theorem ne_of_busy_of_firstFree {j : Nat} {T : Station} (hT : s.holds j T) (hb : T.busy = true) : j ≠ k := by
  rintro rfl
  obtain ⟨hS, -, hSb⟩ := firstFree_some hfree
  rw [holds_unique hT hS, hSb] at hb
  cases hb

theorem issuedInto_holds_busy {j : Nat} {T : Station} (hT : s.holds j T) (hb : T.busy = true) :
    (issuedInto i k S s).holds j T :=
  (issuedInto_holds hfree j T).2 (.inr ⟨ne_of_busy_of_firstFree hfree hT hb, hT⟩)

theorem issuedInto_holds_self : (issuedInto i k S s).holds k (issueFill i s (S.occupied s i)) :=
  (issuedInto_holds hfree k _).2 (.inl ⟨rfl, rfl⟩)

end Issue

/-! ## Execute -/

section Execute

variable {i : Instr} {k : Nat} {S : Station} {s u : State}

/-- A station released at index `k` is no instruction in flight. -/
theorem ne_of_busy_of_released {d : StationDesc} (hrel : u.holds k (Station.released d)) {j : Nat} {T : Station}
    (hT : u.holds j T) (hb : T.busy = true) : j ≠ k := by
  rintro rfl
  rw [holds_unique hT hrel] at hb
  cases hb

/-- Every busy station after an Execute part is as before, but for `A`, its result and its counters. -/
theorem execute_busy_source (hS : s.holds k S) (h : Executes i k S s u) {j : Nat} {T' : Station} (hT' : u.holds j T')
    (hb : T'.busy = true) : ∃ T, s.holds j T ∧ SameStation T T' := by
  cases execute_effect hS h with
  | stay hsame => exact hsame j T' hT'
  | store _ hrel hother | jump _ hrel hother | notTaken _ hrel hother =>
    exact ⟨T', (hother j T' (ne_of_busy_of_released hrel hT' hb)).1 hT', .refl _⟩
  | taken _ hrel hother =>
    obtain hfree | ⟨hT, -⟩ := hother j T' (ne_of_busy_of_released hrel hT' hb) hT'
    · rw [hfree] at hb
      cases hb
    · exact ⟨T', hT, .refl _⟩

theorem execute_descends (hS : s.holds k S) (h : Executes i k S s u) : Descends s u := fun _ _ hT' hb =>
  have ⟨T, hT, hsame⟩ := execute_busy_source hS h hT' hb
  ⟨T, hT, sameHolder_of_sameStation hsame⟩

/-- With as many stations as before, each of which is the same as before, every index is kept. -/
theorem keptAt_of_same (hlen : u.stations.length = s.stations.length)
    (hsame : ∀ j T', u.holds j T' → ∃ T, s.holds j T ∧ SameStation T T') (j : Nat) : KeptAt s u j := by
  intro T hT
  obtain ⟨T', hT'⟩ := exists_holds_of_length hlen hT
  obtain ⟨T₀, hT₀, hsame⟩ := hsame j T' hT'
  obtain rfl := holds_unique hT hT₀
  exact ⟨T', hT', sameHolder_of_sameStation hsame⟩

theorem keptAt_of_other (hother : ∀ j T', j ≠ k → (u.holds j T' ↔ s.holds j T')) {j : Nat} (hj : j ≠ k) :
    KeptAt s u j := fun T hT => ⟨T, (hother j T hj).2 hT, .refl T⟩

/-- An Execute part keeps the Issued log but for what a taken BEQ cuts off (R194). -/
theorem issued_of_executes (h : Executes i k S s u) :
    u.issued = s.issued ∨ i.opcode = .beq ∧ u.issued = truncatedIssued S s.issued := by
  cases h with
  | taken x hop => exact .inr ⟨hop, rfl⟩
  | idle | waits | result | reads | writes | notTaken | calls | returns => exact .inl (by simp)

end Execute

/-! ## The frame of an Execute part (R22, R127) -/

section Frame

variable {i : Instr} {k : Nat} {S : Station} {s u : State} (h : Executes i k S s u)

include h

/-- Only a CALL writes a register, and only R1 (R22, R200). -/
theorem reg_of_executes : u.reg = s.reg ∨ i.opcode = .call ∧ u.reg = s.reg.set 1 (bv16 (S.originalPC + 1)) := by
  cases h with
  | calls hop => exact .inr ⟨hop, by simp⟩
  | idle | waits | result | reads | writes | taken | notTaken | returns => exact .inl (by simp)

/-- Only a STORE writes memory, at the address that its address phase leaves (R155). -/
theorem mem_of_executes : u.mem = s.mem ∨ i.opcode = .store ∧
    ∃ T v, addressPhase S = some T ∧ memWrite s.mem T.a v = .ok u.mem := by
  cases h with
  | writes T hop hT v _ m hm => exact .inr ⟨hop, T, v, hT, by simpa using hm⟩
  | idle | waits | result | reads | taken | notTaken | calls | returns => exact .inl (by simp)

/-- Only a BEQ touches another station than its own (R195). -/
theorem stations_of_executes_ne (hop : i.opcode ≠ .beq) {j : Nat} (hj : j ≠ k) :
    u.stations[j]? = s.stations[j]? := by
  cases h with
  | taken _ hop' | notTaken _ _ hop' => exact absurd hop' hop
  | idle | waits | result | reads | writes | calls | returns => simp [hj.symm]

/-- The table, the Issued log and the branch's flags are a BEQ's to change (R192 to R196). -/
theorem branchState_of_executes (hop : i.opcode ≠ .beq) :
    u.regStat = s.regStat ∧ u.issued = s.issued ∧ u.mispredictions = s.mispredictions ∧
      u.issuedAfterBranch = s.issuedAfterBranch ∧ u.branchPending = s.branchPending ∧
      u.pendingBranch = s.pendingBranch ∧ u.checkpoint = s.checkpoint := by
  cases h with
  | taken _ hop' | notTaken _ _ hop' => exact absurd hop' hop
  | idle | waits | result | reads | writes | calls | returns => simp

/-- The PC and `jumpPending` are a BEQ's, a CALL's or a RET's to change. -/
theorem pc_of_executes (hop : i.opcode ≠ .beq) (hjump : isJump i.opcode = false) :
    u.pc = s.pc ∧ u.jumpPending = s.jumpPending := by
  cases h with
  | taken _ hop' | notTaken _ _ hop' => exact absurd hop' hop
  | calls hop' | returns hop' => rw [hop'] at hjump; cases hjump
  | idle | waits | result | reads | writes => simp

/-- A producer's WrittenBack entry is its broadcast's to write (R130). -/
theorem writtenBack_of_executes (hprod : isProducer i.opcode = true) : u.writtenBack = s.writtenBack := by
  cases h with
  | writes _ hop | taken _ hop | notTaken _ _ hop | calls hop | returns hop => rw [hop] at hprod; cases hprod
  | idle | waits | result | reads => simp

/-- What no Execute part changes. -/
theorem fixed_of_executes :
    u.params = s.params ∧ u.branchesIssued = s.branchesIssued ∧ u.nextSeq = s.nextSeq ∧ u.cycle = s.cycle ∧
      u.started = s.started ∧ u.fault = s.fault ∧ u.turn = s.turn := by
  cases h <;> simp

/-- The completion logs only grow (R39). -/
theorem logs_of_executes : s.executed <+: u.executed ∧ s.writtenBack <+: u.writtenBack := by
  cases h <;> simp

/-- No Execute part changes a station's descriptor (R25). -/
theorem descs_of_executes (hS : s.holds k S) : u.stations.map Station.desc = s.stations.map Station.desc := by
  obtain ⟨hk, rfl⟩ := List.getElem?_eq_some_iff.1 hS
  -- A station replaced by one of the same descriptor.
  have set1 : ∀ {X : Station} (l : List Station), l.map Station.desc = s.stations.map Station.desc →
      X.desc = s.stations[k].desc → (l.set k X).map Station.desc = s.stations.map Station.desc := by
    intro X l hl hX
    rw [List.map_set, hl, hX, ← List.getElem_map (f := Station.desc) (h := by simpa using hk), List.set_getElem_self]
  cases h with
  | idle => rfl
  | waits T _ hT => exact set1 _ rfl (addressPhase_fields hT).1
  | result => exact set1 _ rfl rfl
  | reads T _ hT => exact set1 _ (set1 _ rfl (addressPhase_fields hT).1) (addressPhase_fields hT).1
  | writes T _ hT => exact set1 _ (set1 _ rfl (addressPhase_fields hT).1) (addressPhase_fields hT).1
  | taken =>
    refine set1 _ ?_ rfl
    simp only [squashed, List.map_map]
    refine List.map_congr_left fun T _ => ?_
    rw [Function.comp_apply]
    split <;> rfl
  | notTaken => rw [release_stations, branchNotTaken_stations]; exact set1 _ rfl rfl
  | calls =>
    rw [release_stations, logCompleted_stations, closeJump_stations, writeReg_stations]
    exact set1 _ rfl rfl
  | returns => exact set1 _ rfl rfl

end Frame

/-! ## Writeback -/

/-- Every station but the producer is woken by a broadcast (R134). -/
theorem broadcast_holds_woken {s : State} {b : Broadcast} {j : Nat} {T : Station} (hj : j ≠ b.entry.station)
    (hT : s.holds j T) : (s.broadcast b).holds j (T.woken b.entry.station b.value) := by
  rw [State.holds] at hT
  rw [State.holds, broadcast_stations, releasedAt]
  split <;> simp [List.getElem?_set_ne hj.symm, hT]

/-- The producer is released by its broadcast (R136). -/
theorem broadcast_holds_released {s : State} {b : Broadcast} {S : Station} (hS : s.holds b.entry.station S) :
    (s.broadcast b).holds b.entry.station (Station.released S.desc) := by
  obtain ⟨hlt, rfl⟩ := List.getElem?_eq_some_iff.1 hS
  obtain ⟨hdesc, -⟩ := woken_fields b.entry.station b.value s.stations[b.entry.station]
  simp [State.holds, releasedAt, hlt, hdesc]

theorem broadcast_descends (s : State) (b : Broadcast) : Descends s (s.broadcast b) := by
  intro j T' hT' hb
  obtain hfree | ⟨-, T, hT, rfl⟩ := broadcast_holds hT'
  · rw [hfree] at hb
    cases hb
  · exact ⟨T, hT, woken_sameHolder _ _ T⟩

theorem broadcast_keptAt {s : State} {b : Broadcast} {j : Nat} (hj : j ≠ b.entry.station) :
    KeptAt s (s.broadcast b) j := fun T hT => ⟨_, broadcast_holds_woken hj hT, woken_sameHolder _ _ T⟩

/-! ## The turn

No rule reads `turn` but `exec` itself, so an invariant can be followed through the phases without it. -/

/-- What an Execute part does does not depend on the turn that the states carry. -/
theorem executes_withTurn {i : Instr} {k : Nat} {S : Station} {s u : State} (h : Executes i k S s u) (x : Turn) :
    Executes i k S (s.withTurn x) (u.withTurn x) := by
  cases h with
  | idle => exact .idle
  | waits T hop hT => exact .waits T hop hT
  | result y z halu hj hk hr hdue => exact .result y z halu hj hk hr hdue
  | reads T hop hT hr w hw hdue hfree => exact .reads T hop hT hr w hw hdue hfree
  | writes T hop hT v hv m hm hdue hfree => exact .writes T hop hT v hv m hm hdue hfree
  | taken y hop hj hk table ht hr hdue => exact .taken y hop hj hk table ht hr hdue
  | notTaken y z hop hj hk hne hdue =>
    have heq : ((branchNotTaken (s.logCompleted k S i) S).release k S).withTurn x =
        (branchNotTaken ((s.withTurn x).logCompleted k S i) S).release k S := by
      unfold branchNotTaken
      split <;> simp_all <;> rfl
    rw [heq]
    exact .notTaken y z hop hj hk hne hdue
  | calls hop hdue => exact .calls hop hdue
  | returns hop hdue => exact .returns hop hdue
/-- The induction over a step, for a property that the turn does not matter to: the Execute part is then seen between
two states of one turn. -/
theorem step_induct_of_turn {P : State → Prop} (turns : ∀ s, P s → P (s.withTurn .issue))
    (begins : ∀ s, P s → P (beginCycle s))
    (issues : ∀ s i k S, P s → s.jumpPending = false →
      firstFree (unitKind i.opcode) s.stations = some (k, S) → (i.opcode = .beq → s.branchPending = false) →
      P (issuedInto i k S s))
    (executes : ∀ s i k S u, P s → s.holds k S → S.busy = true → S.ready = true → blocked s k S = false →
      S.instr = some i → Executes i k S s u → P u)
    (broadcasts : ∀ s b, P s → cdb s = some b → P (s.broadcast b))
    {s t : State} (h : step s = .next t) (hs : P s) : P t :=
  step_induct begins (fun s i k S hs _ hj _ hfree hb => issues s i k S hs hj hfree hb)
    (fun s i k S u hs hS hbusy hready hblock hi hex =>
      executes (s.withTurn .issue) i k S (u.withTurn .issue) (turns s hs) hS hbusy hready hblock hi
        (executes_withTurn hex .issue))
    broadcasts h hs

theorem withTurn_descends (s : State) (x : Turn) : Descends s (s.withTurn x) := fun _ T hT _ => ⟨T, hT, .refl T⟩

end Sys2Proof.Proofs.Phases


/-! SUPPORT. Invariants that every step keeps and that speak of single stations, of the memory, or of register 0
(10_state.md R21, R27, R28, R30; 20_memory.md R60; 40_pipeline.md R112). -/

namespace Sys2Proof.Proofs.LocalInvariants

open Machine Phases

/-! ## Operand slots (R28, R120, R134) -/

/-- A captured operand fills a used slot with a value or a tag, not both. -/
theorem slotOk_capture (s : State) (r : RegIdx) : slotOk true (capture s r).1 (capture s r).2 = true := by
  unfold capture
  split <;> rfl

/-- A wake-up turns a tag into a value and touches no unused slot. -/
theorem slotOk_wokenSlot {used : Bool} {v : Option Word} {q : Option Nat} (k : Nat) (w : Word)
    (h : slotOk used v q = true) : slotOk used (wokenSlot k w (v, q)).1 (wokenSlot k w (v, q)).2 = true := by
  unfold wokenSlot
  split
  next hq =>
    obtain rfl : q = some k := hq
    cases used with
    | true => rfl
    | false => simp [slotOk] at h
  next => exact h

/-- Only the fields that `Station.coherent` reads matter to it. -/
theorem coherent_congr {S T : Station} (hS : S.coherent = true) (hdesc : T.desc = S.desc) (hbusy : T.busy = S.busy)
    (hop : T.op = S.op) (hinstr : T.instr = S.instr) (hresult : T.result = S.result) (hvj : T.vj = S.vj)
    (hqj : T.qj = S.qj) (hvk : T.vk = S.vk) (hqk : T.qk = S.qk) : T.coherent = true := by
  rw [Station.coherent, hdesc, hbusy, hop, hinstr, hresult, hvj, hqj, hvk, hqk]
  exact hS

/-- What a coherent busy station holds (R26, R28, R30). -/
theorem coherent_of_busy {S : Station} (hS : S.coherent = true) (hb : S.busy = true) :
    ∃ i, S.instr = some i ∧ S.op = some i.opcode ∧ S.desc.kind = unitKind i.opcode ∧
      slotOk (usesJ i.opcode) S.vj S.qj = true ∧ slotOk (usesK i.opcode) S.vk S.qk = true ∧
      (S.result = none ∨ isProducer i.opcode = true) := by
  unfold Station.coherent at hS
  rw [hb] at hS
  split at hS
  next => cases hS
  next i hi => exact ⟨i, hi, by simpa [and_assoc] using hS⟩

/-- The converse of `coherent_of_busy`. -/
theorem coherent_of_fields {S : Station} {i : Instr} (hinstr : S.instr = some i) (hop : S.op = some i.opcode)
    (hkind : S.desc.kind = unitKind i.opcode) (hj : slotOk (usesJ i.opcode) S.vj S.qj = true)
    (hk : slotOk (usesK i.opcode) S.vk S.qk = true) (hresult : S.result = none ∨ isProducer i.opcode = true) :
    S.coherent = true := by
  rw [Station.coherent, hinstr]
  simp [hop, hkind, hj, hk, hresult]

/-- The slots that an issue fills are those that the opcode uses (R30). -/
theorem slotOk_issueFill (i : Instr) (s : State) (S : Station) :
    slotOk (usesJ i.opcode) (issueFill i s S).vj (issueFill i s S).qj = true ∧
      slotOk (usesK i.opcode) (issueFill i s S).vk (issueFill i s S).qk = true := by
  cases i with
  | load => exact ⟨slotOk_capture .., rfl⟩
  | call | ret => exact ⟨rfl, rfl⟩
  | store | beq | add | sub | nor | mul => exact ⟨slotOk_capture .., slotOk_capture ..⟩

theorem coherent_issueFill {i : Instr} (s : State) {S : Station} (hkind : S.desc.kind = unitKind i.opcode) :
    (issueFill i s (S.occupied s i)).coherent = true := by
  obtain ⟨hdesc, -, hop, hinstr, -, hresult, -⟩ := issueFill_fields i S s
  obtain ⟨hj, hk⟩ := slotOk_issueFill i s (S.occupied s i)
  exact coherent_of_fields hinstr hop (by rw [hdesc, hkind]) hj hk (.inl hresult)

theorem coherent_woken {S : Station} (k : Nat) (v : Word) (hS : S.coherent = true) : (S.woken k v).coherent = true := by
  unfold Station.woken
  split
  next hb =>
    obtain ⟨i, hinstr, hop, hkind, hj, hk, hresult⟩ := coherent_of_busy hS hb
    exact coherent_of_fields hinstr hop hkind (slotOk_wokenSlot k v hj) (slotOk_wokenSlot k v hk) hresult
  next => exact hS

/-! ## The invariants, station by station -/

/-- A station that is not busy keeps its value at Cycle-advance (R112). -/
theorem advanced_of_free {T : Station} (h : T.busy = false) : T.advanced = T := by
  simp [Station.advanced, Station.counts, h]

theorem woken_of_free {T : Station} (k : Nat) (v : Word) (h : T.busy = false) : T.woken k v = T := by
  simp [Station.woken, h]

theorem stepKeepsFreeStationsReleased {s t : State} (hs : FreeStationsReleased s) (h : step s = .next t) :
    FreeStationsReleased t := by
  refine step_keeps_station (p := fun S => S.busy = false → S = Station.released S.desc) ?hrel ?hadv ?hissue ?haddr
    ?hres ?hwake h hs
  case hrel => exact fun _ _ => rfl
  case hadv =>
    intro T hT hb
    obtain ⟨-, hbusy, -⟩ := advanced_fields T
    rw [hbusy] at hb
    rw [advanced_of_free hb]
    exact hT hb
  case hissue =>
    intro i s S _ _ _ hb
    obtain ⟨-, hbusy, -⟩ := issueFill_fields i S s
    rw [hbusy] at hb
    cases hb
  case haddr =>
    intro S T _ hS hT hb
    obtain ⟨-, hbusy, -⟩ := addressPhase_fields hT
    rw [hbusy, hS] at hb
    cases hb
  case hres =>
    intro S v _ hS _ hb
    rw [hS] at hb
    cases hb
  case hwake =>
    intro S k v hS hb
    obtain ⟨-, hbusy, -⟩ := woken_fields k v S
    rw [hbusy] at hb
    rw [woken_of_free k v hb]
    exact hS hb

theorem stepKeepsCountersBounded {s t : State} (hs : CountersBounded s) (h : step s = .next t) :
    CountersBounded t := by
  refine step_keeps_station
    (p := fun S => S.busy = true → S.result = none → S.cyclesPassed ≤ S.desc.cyclesNeeded) ?hrel ?hadv ?hissue ?haddr
    ?hres ?hwake h hs
  case hrel => exact fun _ hb => by cases hb
  case hadv =>
    intro T hT hb hr
    unfold Station.advanced at hb hr ⊢
    split at hb
    next hc =>
      rw [if_pos hc] at hr ⊢
      simp only [Station.counts, Bool.and_eq_true, Bool.or_eq_true, decide_eq_true_eq] at hc
      have hlt : T.cyclesPassed < T.desc.cyclesNeeded := hc.2.resolve_right (by simp_all)
      exact hlt
    next hc =>
      rw [if_neg hc] at hr ⊢
      exact hT hb hr
  case hissue =>
    intro i s S _ _ _ _ _
    obtain ⟨-, -, -, -, -, -, hcycles⟩ := issueFill_fields i S s
    rw [hcycles]
    exact Nat.zero_le _
  case haddr =>
    intro S T hS hb hT _ hr
    obtain ⟨hdesc, -, -, -, -, hresult, hcycles, -⟩ := addressPhase_fields hT
    rw [hdesc, hcycles]
    exact hS hb (by rw [← hresult, hr])
  case hres => exact fun _ _ _ _ _ _ hr => by cases hr
  case hwake =>
    intro S k v hS hb hr
    obtain ⟨hdesc, hbusy, -, -, -, hresult, hcycles⟩ := woken_fields k v S
    rw [hdesc, hcycles]
    exact hS (by rw [← hbusy, hb]) (by rw [← hresult, hr])

theorem coherent_advanced {T : Station} (hT : T.coherent = true) : T.advanced.coherent = true := by
  obtain ⟨hdesc, hbusy, hop, hinstr, -, hresult, hqj, hqk, hvj, hvk⟩ := advanced_fields T
  exact coherent_congr hT hdesc hbusy hop hinstr hresult hvj hqj hvk hqk

theorem coherent_addressPhase {S T : Station} (hS : S.coherent = true) (hT : addressPhase S = some T) :
    T.coherent = true := by
  obtain ⟨hdesc, hbusy, hop, hinstr, -, hresult, -, hvj, hvk, hqj, hqk⟩ := addressPhase_fields hT
  exact coherent_congr hS hdesc hbusy hop hinstr hresult hvj hqj hvk hqk

theorem coherent_result {S : Station} (v : Word) (hS : S.coherent = true) (hb : S.busy = true)
    (hprod : ∃ i, S.instr = some i ∧ isProducer i.opcode = true) : { S with result := some v }.coherent = true := by
  obtain ⟨i, hi, hprod⟩ := hprod
  obtain ⟨i', hinstr, hop, hkind, hj, hk, -⟩ := coherent_of_busy hS hb
  obtain rfl : i' = i := Option.some.inj (hinstr.symm.trans hi)
  exact coherent_of_fields (S := { S with result := some v }) hinstr hop hkind hj hk (.inr hprod)

theorem stationsCoherent_begin {s : State} (hs : StationsCoherent s) : StationsCoherent (beginCycle s) :=
  begin_keeps_station (p := fun S => S.coherent = true) (fun _ => coherent_advanced) hs

theorem stationsCoherent_issuedInto {i : Instr} {k : Nat} {S : Station} {s : State} (hs : StationsCoherent s)
    (hfree : firstFree (unitKind i.opcode) s.stations = some (k, S)) : StationsCoherent (issuedInto i k S s) :=
  issue_keeps_station (p := fun S => S.coherent = true) (fun _ s _ _ hkind _ => coherent_issueFill s hkind) hs hfree

theorem stationsCoherent_of_executes {i : Instr} {k : Nat} {S : Station} {s u : State} (hs : StationsCoherent s)
    (hS : s.holds k S) (hb : S.busy = true) (hi : S.instr = some i) (hex : Executes i k S s u) : StationsCoherent u :=
  execute_keeps_station (p := fun S => S.coherent = true) (fun _ => rfl)
    (fun _ _ hS _ hT => coherent_addressPhase hS hT) (fun _ v => coherent_result v) hs hS hb hi hex

theorem stationsCoherent_broadcast {s : State} (hs : StationsCoherent s) (b : Broadcast) :
    StationsCoherent (s.broadcast b) :=
  broadcast_keeps_station (p := fun S => S.coherent = true) (fun _ => rfl) (fun _ k v => coherent_woken k v) hs b

theorem stepKeepsStationsCoherent {s t : State} (hs : StationsCoherent s) (h : step s = .next t) :
    StationsCoherent t :=
  step_induct (P := StationsCoherent) (fun _ => stationsCoherent_begin)
    (fun _ _ _ _ hs _ _ _ hfree _ => stationsCoherent_issuedInto hs hfree)
    (fun s _ k _ u hs hS hb _ _ hi hex =>
      stationsCoherent_of_executes (s := s.withTurn (.execute k)) (u := u) hs hS hb hi hex)
    (fun _ b hs _ => stationsCoherent_broadcast hs b) h hs

/-! ## Memory and register 0, part by part -/

/-- The register-status table after an Execute part is the one before or the checkpoint, and the checkpoint is kept or
dropped (R193, R196). -/
theorem table_of_executes {i : Instr} {k : Nat} {S : Station} {s u : State} (h : Executes i k S s u) :
    (u.regStat = s.regStat ∨ s.checkpoint = some u.regStat) ∧ (u.checkpoint = s.checkpoint ∨ u.checkpoint = none) := by
  cases h with
  | taken x hop hj hk table htable => exact ⟨htable.symm, .inr rfl⟩
  | notTaken => exact ⟨.inl (by simp), .inr (by simp)⟩
  | idle | waits | result | reads | writes | calls | returns => exact ⟨.inl (by simp), .inl (by simp)⟩

/-! ## The obligations -/

/-- Settles O38: only a STORE's completion touches the memory, and a write inside the address space keeps its form. -/
theorem stepKeepsMemoryCanonical : Obligations.StepKeepsMemoryCanonical := by
  intro s t hs h
  refine step_induct (P := MemoryCanonical) ?begins ?issues ?executes ?broadcasts h hs
  case begins => exact fun s hs => hs
  case issues =>
    intro s i k S hs _ _ _ _ _
    rwa [MemoryCanonical, issuedInto_mem]
  case executes =>
    intro s i k S u hs _ _ _ _ _ hex
    obtain hmem | ⟨-, T, v, -, hw⟩ := mem_of_executes hex
    · rwa [MemoryCanonical, withTurn_mem, hmem]
    · exact wf_memWrite hw hs
  case broadcasts => exact fun s b hs _ => hs

/-- Settles O39: R0 is no destination of a write or of a renaming, and the table is replaced by the checkpoint only. -/
theorem stepKeepsZeroRegister : Obligations.StepKeepsZeroRegister := by
  intro s t hs h
  refine step_induct (P := ZeroRegister) ?begins ?issues ?executes ?broadcasts h hs
  case begins => exact fun s hs => hs
  case issues =>
    intro s i k S ⟨hreg, hstat, hsaved⟩ _ _ _ _ _
    refine ⟨by rwa [issuedInto_reg], by rw [Pipeline.issuedInto_status, if_neg (by simp), hstat], fun c hc => ?_⟩
    rw [issuedInto_checkpoint] at hc
    split at hc
    next => obtain rfl : s.regStat = c := by simpa using hc
            exact hstat
    next => exact hsaved c hc
  case executes =>
    intro s i k S u ⟨hreg, hstat, hsaved⟩ _ _ _ _ _ hex
    obtain ⟨htable, hcheck⟩ := table_of_executes hex
    refine ⟨?_, ?_, fun c hc => ?_⟩
    · obtain h | ⟨-, h⟩ := reg_of_executes hex
      · exact (congrArg (Bank.get · 0) h).trans hreg
      · exact (congrArg (Bank.get · 0) h).trans (by rwa [Bank.get_set_ne _ _ (by decide)])
    · obtain h | h := htable
      · exact (congrArg (Bank.get · 0) h).trans hstat
      · exact hsaved _ h
    · obtain h | h := hcheck
      · exact hsaved c (h ▸ hc)
      · rw [withTurn_checkpoint, h] at hc
        cases hc
  case broadcasts =>
    intro s b ⟨hreg, hstat, hsaved⟩ _
    exact ⟨by simpa [get_broadcastRegs] using hreg, by simp [hstat], hsaved⟩

/-- Settles O40: each of the two holds of a released station and is kept by every change of a single station. -/
theorem stepKeepsStationsReleasedAndCountersBounded : Obligations.StepKeepsStationsReleasedAndCountersBounded :=
  ⟨fun _ _ hs h => stepKeepsFreeStationsReleased hs h, fun _ _ hs h => stepKeepsCountersBounded hs h⟩

/-- Settles O41: an issue fills exactly the slots that its opcode uses, and a wake-up turns a tag into a value. -/
theorem stepKeepsSlotsExclusive : Obligations.StepKeepsSlotsExclusive := fun _ _ hs h => stepKeepsStationsCoherent hs h

end Sys2Proof.Proofs.LocalInvariants

/-! SUPPORT. The invariants of the engine as a whole: sequence numbers and the Issued log, the pending flags, and the
tags (10_state.md R23, R24, R34 to R39; 43_control_instructions.md R194 to R197). -/

namespace Sys2Proof.Proofs.EngineInvariants

open Machine Phases LocalInvariants

/-! ## Sequence numbers (R38, R39) -/

/-- Nothing new in flight and nothing new in the log keeps the numbers unique. -/
theorem sequenceUnique_of_descends {s u : State} (hs : SequenceUnique s) (hd : Descends s u)
    (hnext : u.nextSeq = s.nextSeq) (hlog : List.Sublist u.issued s.issued) : SequenceUnique u where
  below := by
    intro T' hT' hb
    obtain ⟨j, hT'⟩ := List.mem_iff_getElem?.1 hT'
    obtain ⟨T, hT, hsame⟩ := hd j T' hT' hb
    rw [hnext, hsame.seq]
    exact hs.below T (holds_mem hT) (hsame.busy ▸ hb)
  distinct := by
    intro j j' T T' hT hT' hb hb' heq
    obtain ⟨U, hU, hsame⟩ := hd j T hT hb
    obtain ⟨U', hU', hsame'⟩ := hd j' T' hT' hb'
    exact hs.distinct j j' U U' hU hU' (hsame.busy ▸ hb) (hsame'.busy ▸ hb') (by rw [← hsame.seq, heq, hsame'.seq])
  rising := hs.rising.sublist hlog
  logBelow := fun e he => hnext ▸ hs.logBelow e (hlog.subset he)

/-- An issue takes the next number. -/
theorem sequenceUnique_issuedInto {i : Instr} {k : Nat} {S : Station} {s : State}
    (hfree : firstFree (unitKind i.opcode) s.stations = some (k, S)) (hs : SequenceUnique s) :
    SequenceUnique (issuedInto i k S s) := by
  obtain ⟨-, -, -, -, hseq, -⟩ := issueFill_fields i S s
  refine ⟨?below, ?distinct, ?rising, ?logBelow⟩
  case below =>
    intro T hT hb
    rw [issuedInto_nextSeq]
    obtain ⟨j, hT⟩ := List.mem_iff_getElem?.1 hT
    obtain ⟨-, rfl⟩ | ⟨-, hT⟩ := (issuedInto_holds hfree j T).1 hT
    · omega
    · exact Nat.lt_succ_of_lt (hs.below T (holds_mem hT) hb)
  case distinct =>
    intro j j' T T' hT hT' hb hb' heq
    obtain ⟨rfl, rfl⟩ | ⟨-, hT⟩ := (issuedInto_holds hfree j T).1 hT <;>
      obtain ⟨rfl, rfl⟩ | ⟨-, hT'⟩ := (issuedInto_holds hfree j' T').1 hT'
    · rfl
    · have hlt := hs.below T' (holds_mem hT') hb'
      omega
    · have hlt := hs.below T (holds_mem ‹s.holds j T›) hb
      omega
    · exact hs.distinct j j' T T' hT hT' hb hb' heq
  case rising =>
    rw [issuedInto_issued, List.pairwise_append]
    exact ⟨hs.rising, List.pairwise_singleton .., fun e he e' he' => by
      obtain rfl : e' = s.issueEntry i k := by simpa using he'
      exact hs.logBelow e he⟩
  case logBelow =>
    intro e he
    rw [issuedInto_issued, List.mem_append, List.mem_singleton] at he
    rw [issuedInto_nextSeq]
    obtain he | rfl := he
    · exact Nat.lt_succ_of_lt (hs.logBelow e he)
    · exact Nat.lt_succ_self _

theorem sequenceUnique_of_executes {i : Instr} {k : Nat} {S : Station} {s u : State} (hS : s.holds k S)
    (hex : Executes i k S s u) (hs : SequenceUnique s) : SequenceUnique u := by
  obtain ⟨-, -, hseq, -⟩ := fixed_of_executes hex
  refine sequenceUnique_of_descends hs (execute_descends hS hex) hseq ?_
  obtain hlog | ⟨-, hlog⟩ := issued_of_executes hex
  · rw [hlog]
  · rw [hlog]
    exact List.filter_sublist

theorem sequenceUnique_begin {s : State} (hs : SequenceUnique s) : SequenceUnique (beginCycle s) :=
  sequenceUnique_of_descends hs (begin_descends s) rfl (.refl _)

theorem sequenceUnique_broadcast {s : State} (b : Broadcast) (hs : SequenceUnique s) :
    SequenceUnique (s.broadcast b) :=
  sequenceUnique_of_descends hs (broadcast_descends s b) rfl (.refl _)

/-- The Issued entries of the instructions in flight stay enough when nothing new is in flight. -/
theorem inFlightLogged_of_descends {s u : State} (hs : InFlightLogged s) (hd : Descends s u)
    (hlog : ∀ j T' e, u.holds j T' → T'.busy = true → e ∈ s.issued → e.seq = T'.seq → e ∈ u.issued) :
    InFlightLogged u := by
  intro j T' hT' hb
  obtain ⟨T, hT, hsame⟩ := hd j T' hT' hb
  obtain ⟨e, he, hseq, hst, hinstr⟩ := hs j T hT (hsame.busy ▸ hb)
  have hseq : e.seq = T'.seq := hseq.trans hsame.seq.symm
  exact ⟨e, hlog j T' e hT' hb he hseq, hseq, hst, hsame.instr.trans hinstr⟩

theorem inFlightLogged_issuedInto {i : Instr} {k : Nat} {S : Station} {s : State}
    (hfree : firstFree (unitKind i.opcode) s.stations = some (k, S)) (hs : InFlightLogged s) :
    InFlightLogged (issuedInto i k S s) := by
  intro j T hT hb
  rw [issuedInto_issued]
  obtain ⟨rfl, rfl⟩ | ⟨-, hT⟩ := (issuedInto_holds hfree j T).1 hT
  · obtain ⟨-, -, -, hinstr, hseq, -⟩ := issueFill_fields i S s
    exact ⟨s.issueEntry i j, by simp, hseq.symm, rfl, hinstr⟩
  · obtain ⟨e, he, h⟩ := hs j T hT hb
    exact ⟨e, List.mem_append_left _ he, h⟩

/-- A squash releases every station whose entry it cuts off (R194, R195). -/
theorem inFlightLogged_of_executes {i : Instr} {k : Nat} {S : Station} {s u : State} (hS : s.holds k S)
    (hex : Executes i k S s u) (hs : InFlightLogged s) : InFlightLogged u := by
  refine inFlightLogged_of_descends hs (execute_descends hS hex) fun j T' e hT' hb he hseq => ?_
  cases execute_effect hS hex with
  | stay _ hflags | store _ _ _ hflags | jump _ _ _ hflags | notTaken _ _ _ hflags => simpa [hflags] using he
  | taken _ hrel hother _ hflags =>
    obtain hfree | ⟨-, hle⟩ := hother j T' (ne_of_busy_of_released hrel hT' hb) hT'
    · rw [hfree] at hb
      cases hb
    · obtain ⟨-, -, -, -, hissued, -⟩ := hflags
      rw [hissued, truncatedIssued, List.mem_filter]
      exact ⟨he, decide_eq_true (hseq ▸ hle hb)⟩

theorem inFlightLogged_begin {s : State} (hs : InFlightLogged s) : InFlightLogged (beginCycle s) :=
  inFlightLogged_of_descends hs (begin_descends s) fun _ _ _ _ _ he _ => he

theorem inFlightLogged_broadcast {s : State} (b : Broadcast) (hs : InFlightLogged s) :
    InFlightLogged (s.broadcast b) :=
  inFlightLogged_of_descends hs (broadcast_descends s b) fun _ _ _ _ _ he _ => he

/-- Settles O42: only an issue adds an instruction in flight or a log entry, and it takes the next number. -/
theorem stepKeepsSequenceAndLog : Obligations.StepKeepsSequenceAndLog := by
  intro s t hs hl h
  refine step_induct_of_turn (P := fun s => SequenceUnique s ∧ InFlightLogged s) ?turns ?begins ?issues ?executes
    ?broadcasts h ⟨hs, hl⟩
  case turns => exact fun s ⟨hs, hl⟩ => ⟨sequenceUnique_of_descends hs (withTurn_descends s _) rfl (.refl _), hl⟩
  case begins => exact fun s ⟨hs, hl⟩ => ⟨sequenceUnique_begin hs, inFlightLogged_begin hl⟩
  case issues =>
    exact fun s i k S ⟨hs, hl⟩ _ hfree _ => ⟨sequenceUnique_issuedInto hfree hs, inFlightLogged_issuedInto hfree hl⟩
  case executes =>
    exact fun s i k S u ⟨hs, hl⟩ hS _ _ _ _ hex =>
      ⟨sequenceUnique_of_executes hS hex hs, inFlightLogged_of_executes hS hex hl⟩
  case broadcasts => exact fun s b ⟨hs, hl⟩ _ => ⟨sequenceUnique_broadcast b hs, inFlightLogged_broadcast b hl⟩

end Sys2Proof.Proofs.EngineInvariants

/-! SUPPORT. The pending flags and the tags, phase by phase (10_state.md R23, R24, R34 to R36; 43_control_instructions.md
R195 to R197). -/

namespace Sys2Proof.Proofs.PendingFlags

open Machine Phases LocalInvariants EngineInvariants

/-- The opcode of a coherent busy station is that of the instruction it holds. -/
theorem op_of_coherent {s : State} (hs : StationsCoherent s) {k : Nat} {S : Station} (hS : s.holds k S)
    (hb : S.busy = true) {i : Instr} (hi : S.instr = some i) : S.op = some i.opcode := by
  obtain ⟨i', hi', hop, -⟩ := coherent_of_busy (hs S (holds_mem hS)) hb
  obtain rfl : i' = i := Option.some.inj (hi'.symm.trans hi)
  exact hop

/-! ## The pending branch (R34, R36) -/

/-- The pending branch stays the one BEQ in flight while its station is kept. -/
theorem branchInFlight_of_kept {s u : State} (hs : BranchInFlight s) (hd : Descends s u)
    (hpending : u.pendingBranch = s.pendingBranch) (hkept : ∀ b, s.pendingBranch = some b → KeptAt s u b) :
    BranchInFlight u where
  held := by
    intro b hb
    rw [hpending] at hb
    obtain ⟨B, hB, hbusy, hop⟩ := hs.held b hb
    obtain ⟨B', hB', hsame⟩ := hkept b hb B hB
    exact ⟨B', hB', hsame.busy.trans hbusy, hsame.op.trans hop⟩
  only := by
    intro j T' hT' hb hop
    obtain ⟨T, hT, hsame⟩ := hd j T' hT' hb
    rw [hpending]
    exact hs.only j T hT (hsame.busy ▸ hb) (hsame.op ▸ hop)

/-- A resolved branch leaves no BEQ in flight: the only one was in the station that is now released. -/
theorem branchInFlight_of_closed {s u : State} {k : Nat} (hs : BranchInFlight s)
    (hk : s.pendingBranch = some k) (hpending : u.pendingBranch = none)
    (hother : ∀ j T', u.holds j T' → T'.busy = true → j ≠ k ∧ s.holds j T') : BranchInFlight u where
  held := fun b hb => by rw [hpending] at hb; cases hb
  only := by
    intro j T' hT' hb hop
    obtain ⟨hj, hT⟩ := hother j T' hT' hb
    have heq := hs.only j T' hT hb hop
    rw [hk] at heq
    exact absurd (Option.some.inj heq).symm hj

theorem branchInFlight_issuedInto {i : Instr} {k : Nat} {S : Station} {s : State} (hs : BranchInFlight s)
    (hfree : firstFree (unitKind i.opcode) s.stations = some (k, S))
    (hpend : i.opcode = .beq → s.pendingBranch = none) : BranchInFlight (issuedInto i k S s) where
  held := by
    intro b hb
    rw [issuedInto_pendingBranch] at hb
    split at hb
    next hbeq =>
      obtain rfl : k = b := Option.some.inj hb
      obtain ⟨-, hbusy, hop, -⟩ := issueFill_fields i S s
      exact ⟨_, issuedInto_holds_self hfree, hbusy, hop.trans (congrArg some hbeq)⟩
    next =>
      obtain ⟨B, hB, hbusy, hop⟩ := hs.held b hb
      exact ⟨B, issuedInto_holds_busy hfree hB hbusy, hbusy, hop⟩
  only := by
    intro j T hT hb hop
    rw [issuedInto_pendingBranch]
    obtain ⟨rfl, rfl⟩ | ⟨-, hT⟩ := (issuedInto_holds hfree j T).1 hT
    · obtain ⟨-, -, hop', -⟩ := issueFill_fields i S s
      rw [if_pos (Option.some.inj (hop'.symm.trans hop))]
    · have heq := hs.only j T hT hb hop
      rw [if_neg fun hbeq => absurd heq (by simp [hpend hbeq]), heq]

/-! ## The pending jump (R35, R197) -/

/-- The pending jump stays the one jump in flight while its station is kept. -/
theorem jumpInFlight_of_kept {s u : State} (hs : JumpInFlight s) (hd : Descends s u)
    (hpending : u.jumpPending = s.jumpPending)
    (hkept : ∀ j S o, s.holds j S → S.busy = true → S.op = some o → isJump o = true → KeptAt s u j)
    (hbranch : ∀ b B', u.pendingBranch = some b → u.holds b B' →
      ∃ B, s.pendingBranch = some b ∧ s.holds b B ∧ B'.seq = B.seq) : JumpInFlight u where
  held := by
    intro hj
    rw [hpending] at hj
    obtain ⟨j, S, o, hS, hb, hop, ho⟩ := hs.held hj
    obtain ⟨S', hS', hsame⟩ := hkept j S o hS hb hop ho S hS
    exact ⟨j, S', o, hS', hsame.busy.trans hb, hsame.op.trans hop, ho⟩
  only := by
    intro j T' o hT' hb hop ho
    obtain ⟨T, hT, hsame⟩ := hd j T' hT' hb
    rw [hpending]
    exact hs.only j T o hT (hsame.busy ▸ hb) (hsame.op ▸ hop) ho
  one := by
    intro j j' T T' o o' hT hT' hb hb' hop hop' ho ho'
    obtain ⟨U, hU, hsame⟩ := hd j T hT hb
    obtain ⟨U', hU', hsame'⟩ := hd j' T' hT' hb'
    exact hs.one j j' U U' o o' hU hU' (hsame.busy ▸ hb) (hsame'.busy ▸ hb') (hsame.op ▸ hop) (hsame'.op ▸ hop') ho ho'
  after := by
    intro b B' j T' o hpend hB' hT' hb hop ho
    obtain ⟨T, hT, hsame⟩ := hd j T' hT' hb
    obtain ⟨B, hpend, hB, hseq⟩ := hbranch b B' hpend hB'
    rw [hseq, hsame.seq]
    exact hs.after b B j T o hpend hB hT (hsame.busy ▸ hb) (hsame.op ▸ hop) ho

/-- No jump in flight and none pending. -/
theorem jumpInFlight_of_none {u : State} (hpending : u.jumpPending = false)
    (hnone : ∀ j T o, u.holds j T → T.busy = true → T.op = some o → isJump o = false) : JumpInFlight u where
  held := fun h => by rw [hpending] at h; cases h
  only := fun j T o hT hb hop ho => by rw [hnone j T o hT hb hop] at ho; cases ho
  one := fun j _ T _ o _ hT _ hb _ hop _ ho _ => by rw [hnone j T o hT hb hop] at ho; cases ho
  after := fun _ _ j T o _ _ hT hb hop ho => by rw [hnone j T o hT hb hop] at ho; cases ho

/-- With no jump pending, none is in flight. -/
theorem not_isJump_of_not_pending {s : State} (hs : JumpInFlight s) (h : s.jumpPending = false) {j : Nat} {T : Station}
    {o : OpCode} (hT : s.holds j T) (hb : T.busy = true) (hop : T.op = some o) : isJump o = false := by
  by_contra ho
  rw [hs.only j T o hT hb hop (by simpa using ho)] at h
  cases h

/-- A jump that issues is younger than the branch in flight, since it takes the next number. -/
theorem jumpInFlight_issuedInto {i : Instr} {k : Nat} {S : Station} {s : State} (hs : JumpInFlight s)
    (hfree : firstFree (unitKind i.opcode) s.stations = some (k, S)) (hj : s.jumpPending = false)
    (hseq : SequenceUnique s) (hbranch : BranchInFlight s) : JumpInFlight (issuedInto i k S s) := by
  obtain ⟨-, hbusy, hop, -, hnew, -⟩ := issueFill_fields i S s
  -- The only jump that can be in flight after the issue is the one that issues.
  have self : ∀ j T o, (issuedInto i k S s).holds j T → T.busy = true → T.op = some o → isJump o = true →
      j = k ∧ T = issueFill i s (S.occupied s i) ∧ isJump i.opcode = true := by
    intro j T o hT hb ho hjump
    obtain ⟨rfl, rfl⟩ | ⟨-, hT⟩ := (issuedInto_holds hfree j T).1 hT
    · obtain rfl : i.opcode = o := Option.some.inj (hop.symm.trans ho)
      exact ⟨rfl, rfl, hjump⟩
    · rw [not_isJump_of_not_pending hs hj hT hb ho] at hjump
      cases hjump
  refine ⟨?held, ?only, ?one, ?after⟩
  case held =>
    intro hpend
    rw [issuedInto_jumpPending, hj, Bool.or_false] at hpend
    exact ⟨k, _, i.opcode, issuedInto_holds_self hfree, hbusy, hop, hpend⟩
  case only =>
    intro j T o hT hb ho hjump
    obtain ⟨-, -, hi⟩ := self j T o hT hb ho hjump
    rw [issuedInto_jumpPending, hi, Bool.true_or]
  case one =>
    intro j j' T T' o o' hT hT' hb hb' ho ho' hjump hjump'
    exact (self j T o hT hb ho hjump).1.trans (self j' T' o' hT' hb' ho' hjump').1.symm
  case after =>
    intro b B j T o hpend hB hT hb ho hjump
    obtain ⟨-, rfl, hi⟩ := self j T o hT hb ho hjump
    rw [issuedInto_pendingBranch, if_neg fun hbeq => by rw [hbeq] at hi; cases hi] at hpend
    obtain ⟨B₀, hB₀, hbusy₀, -⟩ := hbranch.held b hpend
    obtain rfl := holds_unique hB (issuedInto_holds_busy hfree hB₀ hbusy₀)
    rw [hnew]
    exact hseq.below B (holds_mem hB₀) hbusy₀

/-! ## The engine's invariant, phase by phase -/

theorem engineCoherent_of_same {s u : State} (hs : EngineCoherent s) (hstations : StationsCoherent u)
    (hseq : SequenceUnique u) (hd : Descends s u) (hkept : ∀ j, KeptAt s u j)
    (hpending : u.pendingBranch = s.pendingBranch) (hbranch : u.branchPending = s.branchPending)
    (hcheck : u.checkpoint = s.checkpoint) (hjump : u.jumpPending = s.jumpPending) : EngineCoherent u where
  stations := hstations
  sequence := hseq
  flags := by rw [BranchFlagsCoherent, hpending, hbranch, hcheck]; exact hs.flags
  branch := branchInFlight_of_kept hs.branch hd hpending fun b _ => hkept b
  jump := jumpInFlight_of_kept hs.jump hd hjump (fun j _ _ _ _ _ _ => hkept j) fun b B' hb hB' => by
    rw [hpending] at hb
    obtain ⟨B, hB, -⟩ := hs.branch.held b hb
    obtain ⟨B₁, hB₁, hsame⟩ := hkept b B hB
    rw [holds_unique hB' hB₁]
    exact ⟨B, hb, hB, hsame.seq⟩

theorem engineCoherent_begin {s : State} (hs : EngineCoherent s) : EngineCoherent (beginCycle s) :=
  engineCoherent_of_same hs (stationsCoherent_begin hs.stations) (sequenceUnique_begin hs.sequence) (begin_descends s)
    (begin_keptAt s) rfl rfl rfl rfl

theorem engineCoherent_withTurn {s : State} (hs : EngineCoherent s) (x : Turn) : EngineCoherent (s.withTurn x) :=
  engineCoherent_of_same hs hs.stations
    (sequenceUnique_of_descends hs.sequence (withTurn_descends s x) rfl (.refl _)) (withTurn_descends s x)
    (fun _ T hT => ⟨T, hT, .refl T⟩) rfl rfl rfl rfl

/-- No branch is pending exactly when no station is named as one (R36). -/
theorem pendingBranch_eq_none {s : State} (hs : BranchFlagsCoherent s) (h : s.branchPending = false) :
    s.pendingBranch = none := by
  simpa [h] using hs.1

theorem engineCoherent_issuedInto {i : Instr} {k : Nat} {S : Station} {s : State} (hs : EngineCoherent s)
    (hfree : firstFree (unitKind i.opcode) s.stations = some (k, S)) (hj : s.jumpPending = false)
    (hb : i.opcode = .beq → s.branchPending = false) : EngineCoherent (issuedInto i k S s) where
  stations := stationsCoherent_issuedInto hs.stations hfree
  sequence := sequenceUnique_issuedInto hfree hs.sequence
  flags := by
    rw [BranchFlagsCoherent, issuedInto_pendingBranch, issuedInto_branchPending, issuedInto_checkpoint]
    by_cases hbeq : i.opcode = .beq
    · simp [hbeq]
    · simpa [hbeq] using hs.flags
  branch := branchInFlight_issuedInto hs.branch hfree fun hbeq => pendingBranch_eq_none hs.flags (hb hbeq)
  jump := jumpInFlight_issuedInto hs.jump hfree hj hs.sequence hs.branch

theorem engineCoherent_of_executes {i : Instr} {k : Nat} {S : Station} {s u : State} (hs : EngineCoherent s)
    (hS : s.holds k S) (hb : S.busy = true) (hi : S.instr = some i) (hex : Executes i k S s u) :
    EngineCoherent u := by
  have hop : S.op = some i.opcode := op_of_coherent hs.stations hS hb hi
  have hd : Descends s u := execute_descends hS hex
  have hstations : StationsCoherent u := stationsCoherent_of_executes hs.stations hS hb hi hex
  have hseq : SequenceUnique u := sequenceUnique_of_executes hS hex hs.sequence
  -- A station that holds another opcode is another station.
  have ne_of_op : ∀ {j T o}, s.holds j T → T.op = some o → o ≠ i.opcode → j ≠ k := by
    rintro j T o hT ho hne rfl
    rw [holds_unique hT hS, hop] at ho
    exact hne (Option.some.inj ho).symm
  cases execute_effect hS hex with
  | stay hsame hflags =>
    obtain ⟨hbranch, hpending, hcheck, hjump, -⟩ := hflags
    exact engineCoherent_of_same hs hstations hseq hd (keptAt_of_same (length_stations_of_executes hex) hsame)
      hpending hbranch hcheck hjump
  | store hstore hrel hother hflags =>
    obtain ⟨hbranch, hpending, hcheck, hjump, -⟩ := hflags
    have hne : ∀ b, s.pendingBranch = some b → b ≠ k := fun b hb' =>
      have ⟨B, hB, _, ho⟩ := hs.branch.held b hb'
      ne_of_op hB ho (by rw [hstore]; decide)
    refine ⟨hstations, hseq, by rw [BranchFlagsCoherent, hpending, hbranch, hcheck]; exact hs.flags,
      branchInFlight_of_kept hs.branch hd hpending fun b hb' => keptAt_of_other hother (hne b hb'),
      jumpInFlight_of_kept hs.jump hd hjump (fun j T o hT _ ho hj => keptAt_of_other hother
        (ne_of_op hT ho fun h => by rw [h, hstore] at hj; cases hj)) fun b B' hb' hB' => ?_⟩
    rw [hpending] at hb'
    exact ⟨B', hb', (hother b B' (hne b hb')).1 hB', rfl⟩
  | jump hjump hrel hother hflags =>
    obtain ⟨hbranch, hpending, hcheck, hnone, -⟩ := hflags
    have hne : ∀ b, s.pendingBranch = some b → b ≠ k := fun b hb' =>
      have ⟨B, hB, _, ho⟩ := hs.branch.held b hb'
      ne_of_op hB ho fun h => by rw [← h] at hjump; cases hjump
    refine ⟨hstations, hseq, by rw [BranchFlagsCoherent, hpending, hbranch, hcheck]; exact hs.flags,
      branchInFlight_of_kept hs.branch hd hpending fun b hb' => keptAt_of_other hother (hne b hb'),
      jumpInFlight_of_none hnone fun j T o hT hbT ho => ?_⟩
    have hj := ne_of_busy_of_released hrel hT hbT
    by_contra hjo
    exact hj (hs.jump.one j k T S o i.opcode ((hother j T hj).1 hT) hS hbT hb ho hop (by simpa using hjo) hjump)
  | notTaken hbeq hrel hother hflags =>
    obtain ⟨hbranch, hpending, hcheck, hjump, -⟩ := hflags
    have hk : s.pendingBranch = some k := hs.branch.only k S hS hb (hop.trans (congrArg some hbeq))
    refine ⟨hstations, hseq, by simp [BranchFlagsCoherent, hpending, hbranch, hcheck],
      branchInFlight_of_closed hs.branch hk hpending fun j T hT hbT =>
        have hj := ne_of_busy_of_released hrel hT hbT
        ⟨hj, (hother j T hj).1 hT⟩,
      jumpInFlight_of_kept hs.jump hd hjump (fun j T o hT _ ho hj => keptAt_of_other hother
        (ne_of_op hT ho fun h => by rw [h, hbeq] at hj; cases hj)) fun b B' hb' => absurd hb' (by simp [hpending])⟩
  | taken hbeq hrel hother _ hflags =>
    obtain ⟨hbranch, hpending, hcheck, hnone, -⟩ := hflags
    have hk : s.pendingBranch = some k := hs.branch.only k S hS hb (hop.trans (congrArg some hbeq))
    have hold : ∀ j T, u.holds j T → T.busy = true → j ≠ k ∧ s.holds j T ∧ T.seq ≤ S.seq := by
      intro j T hT hbT
      have hj := ne_of_busy_of_released hrel hT hbT
      obtain hfree | ⟨hT', hle⟩ := hother j T hj hT
      · rw [hfree] at hbT
        cases hbT
      · exact ⟨hj, hT', hle hbT⟩
    refine ⟨hstations, hseq, by simp [BranchFlagsCoherent, hpending, hbranch, hcheck],
      branchInFlight_of_closed hs.branch hk hpending fun j T hT hbT =>
        have ⟨hj, hT', _⟩ := hold j T hT hbT
        ⟨hj, hT'⟩,
      jumpInFlight_of_none hnone fun j T o hT hbT ho => ?_⟩
    obtain ⟨-, hT', hle⟩ := hold j T hT hbT
    by_contra hjo
    have hlt := hs.jump.after k S j T o hk hS hT' hbT ho (by simpa using hjo)
    omega

theorem isJump_of_isProducer {o : OpCode} (h : isProducer o = true) : isJump o = false := by
  cases o with
  | load | add | sub | nor | mul => rfl
  | store | beq | call | ret => cases h

/-- The station of a broadcast holds a producer (R130). -/
theorem isProducer_of_cdb {s : State} (hs : StationsCoherent s) {b : Broadcast} (hb : cdb s = some b) :
    ∃ S i, s.holds b.entry.station S ∧ S.busy = true ∧ S.instr = some i ∧ S.op = some i.opcode ∧
      isProducer i.opcode = true := by
  obtain ⟨-, -, S, hS, hbusy, -, -, hr⟩ := cdb_some hb
  obtain ⟨i, hi, hop, -, -, -, hprod⟩ := coherent_of_busy (hs S (holds_mem hS)) hbusy
  exact ⟨S, i, hS, hbusy, hi, hop, hprod.resolve_left fun h => by rw [h] at hr; cases hr⟩

theorem engineCoherent_broadcast {s : State} {b : Broadcast} (hs : EngineCoherent s) (hb : cdb s = some b) :
    EngineCoherent (s.broadcast b) := by
  obtain ⟨S, i, hS, -, -, hop, hprod⟩ := isProducer_of_cdb hs.stations hb
  obtain ⟨hpend, -⟩ := cdb_some hb
  have hnone := pendingBranch_eq_none hs.flags hpend
  refine ⟨stationsCoherent_broadcast hs.stations b, sequenceUnique_broadcast b hs.sequence, hs.flags,
    branchInFlight_of_kept hs.branch (broadcast_descends s b) rfl fun c hc => absurd hc (by simp [hnone]),
    jumpInFlight_of_kept hs.jump (broadcast_descends s b) rfl (fun j T o hT _ ho hj => broadcast_keptAt ?_)
      fun c B' hc => absurd hc (by simp [hnone])⟩
  rintro rfl
  rw [holds_unique hT hS, hop] at ho
  obtain rfl : i.opcode = o := Option.some.inj ho
  rw [isJump_of_isProducer hprod] at hj
  cases hj

/-- Settles O43: each phase keeps the engine's invariant. -/
theorem stepKeepsEngineCoherent : Obligations.StepKeepsEngineCoherent := fun _ _ hs h =>
  step_induct_of_turn (P := EngineCoherent) (fun _ hs => engineCoherent_withTurn hs _) (fun _ => engineCoherent_begin)
    (fun _ _ _ _ hs hj hfree hb => engineCoherent_issuedInto hs hfree hj hb)
    (fun _ _ _ _ _ hs hS hbusy _ _ hi hex => engineCoherent_of_executes hs hS hbusy hi hex)
    (fun _ _ hs hb => engineCoherent_broadcast hs hb) h hs

end Sys2Proof.Proofs.PendingFlags

/-! SUPPORT. Tags and register-status entries name live producers, phase by phase (10_state.md R23, R24;
43_control_instructions.md R195, R196). -/

namespace Sys2Proof.Proofs.Tags

open Machine Phases LocalInvariants EngineInvariants PendingFlags

/-- An instruction with a destination sends its result over the bus (R22, R130). -/
theorem isProducer_of_destOf {i : Instr} {r : RegIdx} (h : destOf i = some r) : isProducer i.opcode = true := by
  cases i with
  | load | add | sub | nor | mul => rfl
  | store | beq | call | ret => cases h

/-- Station `p` holds the busy producer `P` of instruction `i`. -/
structure Produces (s : State) (p : Nat) (P : Station) (i : Instr) : Prop where
  held : s.holds p P
  busy : P.busy = true
  instr : P.instr = some i
  producer : isProducer i.opcode = true

/-- A producer is in no station that holds another kind of instruction. -/
theorem ne_of_produces {s : State} {p k : Nat} {P S : Station} {i i' : Instr} (hp : Produces s p P i')
    (hS : s.holds k S) (hi : S.instr = some i) (hnot : isProducer i.opcode = false) : p ≠ k := by
  rintro rfl
  obtain rfl := holds_unique hp.held hS
  obtain rfl : i' = i := Option.some.inj (hp.instr.symm.trans hi)
  rw [hp.producer] at hnot
  cases hnot

/-- How a phase keeps the tags live: the producers that `kept` holds of are kept, and every tag, entry and saved entry
that is left names one of them. -/
theorem tagsLive_of_kept {s u : State} (hs : TagsLive s) (kept : Nat → Station → Prop)
    (hkept : ∀ p P i, Produces s p P i → kept p P → ∃ P', u.holds p P' ∧ SameHolder P P')
    (hslots : ∀ j T' p, u.holds j T' → T'.busy = true → T'.qj = some p ∨ T'.qk = some p →
      ∃ T, s.holds j T ∧ T.busy = true ∧ T'.seq = T.seq ∧ (T.qj = some p ∨ T.qk = some p) ∧
        ∀ P, P.seq < T.seq → kept p P)
    (htable : ∀ r p, u.status r = some p →
      ∃ P i, Produces s p P i ∧ destOf i = some r ∧ kept p P)
    (hsaved : u.checkpoint = none ∨ u.checkpoint = s.checkpoint ∧ (∀ p P i, Produces s p P i → kept p P) ∧
      ∀ b B', u.pendingBranch = some b → u.holds b B' →
        ∃ B, s.pendingBranch = some b ∧ s.holds b B ∧ B'.seq = B.seq) : TagsLive u where
  slots := by
    intro j T' p hT' hb hq
    obtain ⟨T, hT, hbT, hseq, hq, hk⟩ := hslots j T' p hT' hb hq
    obtain ⟨P, i, hP, hbP, hi, hprod, hlt⟩ := hs.slots j T p hT hbT hq
    obtain ⟨P', hP', hsame⟩ := hkept p P i ⟨hP, hbP, hi, hprod⟩ (hk P hlt)
    exact ⟨P', i, hP', hsame.busy.trans hbP, hsame.instr.trans hi, hprod, by rw [hsame.seq, hseq]; exact hlt⟩
  table := by
    intro r p hr
    obtain ⟨P, i, hP, hd, hk⟩ := htable r p hr
    obtain ⟨P', hP', hsame⟩ := hkept p P i hP hk
    exact ⟨P', i, hP', hsame.busy.trans hP.busy, hsame.instr.trans hP.instr, hd⟩
  saved := by
    intro c hc r p hr
    obtain hnone | ⟨hsame, hall, hbranch⟩ := hsaved
    · rw [hnone] at hc
      cases hc
    · rw [hsame] at hc
      obtain ⟨P, i, hP, hbP, hi, hd, hlt⟩ := hs.saved c hc r p hr
      have hprod : Produces s p P i := ⟨hP, hbP, hi, isProducer_of_destOf hd⟩
      obtain ⟨P', hP', hsame⟩ := hkept p P i hprod (hall p P i hprod)
      refine ⟨P', i, hP', hsame.busy.trans hbP, hsame.instr.trans hi, hd, fun b B' hb hB' => ?_⟩
      obtain ⟨B, hb, hB, hseq⟩ := hbranch b B' hb hB'
      rw [hsame.seq, hseq]
      exact hlt b B hb hB

/-- The producers behind a live table. -/
theorem produces_of_status {s : State} (hs : TagsLive s) {r : RegIdx} {p : Nat} (h : s.status r = some p) :
    ∃ P i, Produces s p P i ∧ destOf i = some r :=
  have ⟨P, i, hP, hb, hi, hd⟩ := hs.table r p h
  ⟨P, i, ⟨hP, hb, hi, isProducer_of_destOf hd⟩, hd⟩

/-- A phase that keeps every station but for `A`, results and counters, with the table and the flags. -/
theorem tagsLive_of_same {s u : State} (hs : TagsLive s) (hlen : u.stations.length = s.stations.length)
    (hsame : ∀ j T', u.holds j T' → ∃ T, s.holds j T ∧ SameStation T T') (htable : u.regStat = s.regStat)
    (hcheck : u.checkpoint = s.checkpoint) (hpending : u.pendingBranch = s.pendingBranch) : TagsLive u := by
  refine tagsLive_of_kept hs (fun _ _ => True) (fun p P i hP _ => keptAt_of_same hlen hsame p P hP.held) ?slots ?table
    (.inr ⟨hcheck, fun _ _ _ _ => trivial, fun b B' hb hB' => ?saved⟩)
  case slots =>
    intro j T' p hT' hb hq
    obtain ⟨T, hT, h⟩ := hsame j T' hT'
    exact ⟨T, hT, h.busy ▸ hb, h.seq, by rwa [← h.qj, ← h.qk], fun _ _ => trivial⟩
  case table =>
    intro r p hr
    rw [State.status, htable] at hr
    obtain ⟨P, i, hP, hd⟩ := produces_of_status hs hr
    exact ⟨P, i, hP, hd, trivial⟩
  case saved =>
    obtain ⟨B, hB, h⟩ := hsame b B' hB'
    exact ⟨B, hpending ▸ hb, hB, h.seq⟩

theorem tagsLive_begin {s : State} (hs : TagsLive s) : TagsLive (beginCycle s) :=
  tagsLive_of_same hs (by simp) (fun j T' hT' =>
    have ⟨T, hT, h⟩ := (beginCycle_holds j T').1 hT'
    ⟨T, hT, h ▸ advanced_sameStation T⟩) rfl rfl rfl

theorem tagsLive_withTurn {s : State} (hs : TagsLive s) (x : Turn) : TagsLive (s.withTurn x) :=
  tagsLive_of_same hs rfl (fun _ T' hT' => ⟨T', hT', .refl T'⟩) rfl rfl rfl

/-! ## Issue -/

theorem status_of_capture {s : State} {r : RegIdx} {p : Nat} (h : (capture s r).2 = some p) : s.status r = some p := by
  unfold capture at h
  split at h
  next => cases h
  next q hq => rw [hq]; exact h

/-- The tags that an issue captures come from the register-status table (R120). -/
theorem exists_status_of_issueFill {i : Instr} {s : State} {S : Station} {p : Nat}
    (h : (issueFill i s S).qj = some p ∨ (issueFill i s S).qk = some p) : ∃ r, s.status r = some p := by
  cases i with
  | load rA rB o => exact ⟨rB, status_of_capture (h.resolve_right fun h => by cases h)⟩
  | store rA rB o => exact h.elim (fun h => ⟨rB, status_of_capture h⟩) fun h => ⟨rA, status_of_capture h⟩
  | beq rA rB o => exact h.elim (fun h => ⟨rA, status_of_capture h⟩) fun h => ⟨rB, status_of_capture h⟩
  | call | ret => obtain h | h := h <;> cases h
  | add rA rB rC | sub rA rB rC | nor rA rB rC | mul rA rB rC =>
    exact h.elim (fun h => ⟨rB, status_of_capture h⟩) fun h => ⟨rC, status_of_capture h⟩

theorem tagsLive_issuedInto {i : Instr} {k : Nat} {S : Station} {s : State} (hs : TagsLive s)
    (hfree : firstFree (unitKind i.opcode) s.stations = some (k, S)) (hc : EngineCoherent s) :
    TagsLive (issuedInto i k S s) := by
  obtain ⟨-, hbusy, -, hinstr, hseq, -⟩ := issueFill_fields i S s
  have kept : ∀ {p P}, s.holds p P → P.busy = true → (issuedInto i k S s).holds p P := issuedInto_holds_busy hfree
  refine ⟨?slots, ?table, ?saved⟩
  case slots =>
    intro j T p hT hb hq
    obtain ⟨rfl, rfl⟩ | ⟨-, hT⟩ := (issuedInto_holds hfree j T).1 hT
    · obtain ⟨r, hr⟩ := exists_status_of_issueFill hq
      obtain ⟨P, i', hP, -⟩ := produces_of_status hs hr
      exact ⟨P, i', kept hP.held hP.busy, hP.busy, hP.instr, hP.producer,
        hseq ▸ hc.sequence.below P (holds_mem hP.held) hP.busy⟩
    · obtain ⟨P, i', hP, hbP, h⟩ := hs.slots j T p hT hb hq
      exact ⟨P, i', kept hP hbP, hbP, h⟩
  case table =>
    intro r p hr
    rw [Pipeline.issuedInto_status] at hr
    split at hr
    next hd =>
      obtain rfl : k = p := Option.some.inj hr
      exact ⟨_, i, issuedInto_holds_self hfree, hbusy, hinstr, hd.1⟩
    next =>
      obtain ⟨P, i', hP, hbP, h⟩ := hs.table r p hr
      exact ⟨P, i', kept hP hbP, hbP, h⟩
  case saved =>
    intro c hc' r p hr
    rw [issuedInto_checkpoint] at hc'
    rw [issuedInto_pendingBranch]
    split at hc'
    next hbeq =>
      obtain rfl : s.regStat = c := Option.some.inj hc'
      obtain ⟨P, i', hP, hbP, hi, hd⟩ := hs.table r p hr
      refine ⟨P, i', kept hP hbP, hbP, hi, hd, fun b B hb hB => ?_⟩
      obtain rfl : k = b := by simpa [hbeq] using hb
      rw [holds_unique hB (issuedInto_holds_self hfree), hseq]
      exact hc.sequence.below P (holds_mem hP) hbP
    next hbeq =>
      obtain ⟨P, i', hP, hbP, hi, hd, hlt⟩ := hs.saved c hc' r p hr
      refine ⟨P, i', kept hP hbP, hbP, hi, hd, fun b B hb hB => ?_⟩
      rw [if_neg hbeq] at hb
      obtain ⟨B₀, hB₀, hbB, -⟩ := hc.branch.held b hb
      obtain rfl := holds_unique hB (kept hB₀ hbB)
      exact hlt b B hb hB₀

/-! ## Execute and Writeback -/

/-- An Execute part that releases station `k`, which held no producer, and keeps the others and the table. -/
theorem tagsLive_of_other {i : Instr} {k : Nat} {S : Station} {s u : State} (hs : TagsLive s) (hS : s.holds k S)
    (hi : S.instr = some i) (hnot : isProducer i.opcode = false) (hrel : u.holds k (Station.released S.desc))
    (hother : ∀ j T', j ≠ k → (u.holds j T' ↔ s.holds j T')) (htable : u.regStat = s.regStat)
    (hsaved : u.checkpoint = none ∨ u.checkpoint = s.checkpoint ∧ u.pendingBranch = s.pendingBranch ∧
      s.pendingBranch ≠ some k) : TagsLive u := by
  refine tagsLive_of_kept hs (fun _ _ => True) ?kept ?slots ?table (hsaved.imp_right fun ⟨hcheck, hpending, hne⟩ =>
    ⟨hcheck, fun _ _ _ _ => trivial, fun b B' hb hB' => ?saved⟩)
  case kept => exact fun p P i' hP _ => keptAt_of_other hother (ne_of_produces hP hS hi hnot) P hP.held
  case slots =>
    intro j T' p hT' hb hq
    exact ⟨T', (hother j T' (ne_of_busy_of_released hrel hT' hb)).1 hT', hb, rfl, hq, fun _ _ => trivial⟩
  case table =>
    intro r p hr
    rw [State.status, htable] at hr
    obtain ⟨P, i, hP, hd⟩ := produces_of_status hs hr
    exact ⟨P, i, hP, hd, trivial⟩
  case saved =>
    rw [hpending] at hb
    exact ⟨B', hb, (hother b B' (by rintro rfl; exact hne hb)).1 hB', rfl⟩

/-- A squash releases no producer that is older than the branch, and the checkpoint names only such (R195, R196). -/
theorem tagsLive_of_taken {i : Instr} {k : Nat} {S : Station} {s u : State} (hs : TagsLive s) (hS : s.holds k S)
    (hi : S.instr = some i) (hnot : isProducer i.opcode = false) (hk : s.pendingBranch = some k)
    (hrel : u.holds k (Station.released S.desc))
    (hother : ∀ j T', j ≠ k → u.holds j T' → T'.busy = false ∨ (s.holds j T' ∧ (T'.busy = true → T'.seq ≤ S.seq)))
    (hkeep : ∀ j T, j ≠ k → s.holds j T → T.seq ≤ S.seq → u.holds j T) (hnone : u.checkpoint = none)
    (hrestore : s.checkpoint = some u.regStat) : TagsLive u := by
  refine tagsLive_of_kept hs (fun _ P => P.seq ≤ S.seq) ?kept ?slots ?table (.inl hnone)
  case kept =>
    exact fun p P i' hP hle => ⟨P, hkeep p P (ne_of_produces hP hS hi hnot) hP.held hle, .refl P⟩
  case slots =>
    intro j T' p hT' hb hq
    obtain hfree | ⟨hT, hle⟩ := hother j T' (ne_of_busy_of_released hrel hT' hb) hT'
    · rw [hfree] at hb
      cases hb
    · exact ⟨T', hT, hb, rfl, hq, fun P hlt => (hlt.trans_le (hle hb)).le⟩
  case table =>
    intro r p hr
    obtain ⟨P, i', hP, hb, hi', hd, hlt⟩ := hs.saved _ hrestore r p hr
    exact ⟨P, i', ⟨hP, hb, hi', isProducer_of_destOf hd⟩, hd, (hlt k S hk hS).le⟩

theorem tagsLive_of_executes {i : Instr} {k : Nat} {S : Station} {s u : State} (hs : TagsLive s)
    (hc : EngineCoherent s) (hpolicy : s.params.squashRegStatPolicy = .restore) (hS : s.holds k S)
    (hb : S.busy = true) (hi : S.instr = some i) (hex : Executes i k S s u) : TagsLive u := by
  have hop : S.op = some i.opcode := op_of_coherent hc.stations hS hb hi
  have hne : i.opcode ≠ .beq → s.pendingBranch ≠ some k := by
    intro hbeq hk
    obtain ⟨B, hB, -, ho⟩ := hc.branch.held k hk
    rw [holds_unique hB hS, hop] at ho
    exact hbeq (Option.some.inj ho)
  cases execute_effect hS hex with
  | stay hsame hflags =>
    obtain ⟨-, hpending, hcheck, -, htable, -⟩ := hflags
    exact tagsLive_of_same hs (length_stations_of_executes hex) hsame htable hcheck hpending
  | store hstore hrel hother hflags =>
    obtain ⟨-, hpending, hcheck, -, htable, -⟩ := hflags
    exact tagsLive_of_other hs hS hi (by rw [hstore]; rfl) hrel hother htable
      (.inr ⟨hcheck, hpending, hne (by rw [hstore]; decide)⟩)
  | jump hjump hrel hother hflags =>
    obtain ⟨-, hpending, hcheck, -, htable, -⟩ := hflags
    have hnot : isProducer i.opcode = false := by
      by_contra h
      rw [isJump_of_isProducer (by simpa using h)] at hjump
      cases hjump
    exact tagsLive_of_other hs hS hi hnot hrel hother htable
      (.inr ⟨hcheck, hpending, hne fun h => by rw [h] at hjump; cases hjump⟩)
  | notTaken hbeq hrel hother hflags =>
    obtain ⟨-, -, hcheck, -, htable, -⟩ := hflags
    exact tagsLive_of_other hs hS hi (by rw [hbeq]; rfl) hrel hother htable (.inl hcheck)
  | taken hbeq hrel hother hkeep hflags _ hrestore =>
    obtain ⟨-, -, hcheck, -⟩ := hflags
    have hk : s.pendingBranch = some k := hc.branch.only k S hS hb (hop.trans (congrArg some hbeq))
    exact tagsLive_of_taken hs hS hi (by rw [hbeq]; rfl) hk hrel hother hkeep hcheck (hrestore hpolicy)

/-- A slot of a woken station waits on another station than the producer, as it did before (R134). -/
theorem tag_of_woken {k p : Nat} {v : Word} {T : Station} (hb : T.busy = true)
    (h : (T.woken k v).qj = some p ∨ (T.woken k v).qk = some p) : p ≠ k ∧ (T.qj = some p ∨ T.qk = some p) := by
  have slot : ∀ {w q}, (wokenSlot k v (w, q)).2 = some p → p ≠ k ∧ q = some p := by
    intro w q hq
    unfold wokenSlot at hq
    split at hq
    next => cases hq
    next hne => exact ⟨by rintro rfl; exact hne hq, hq⟩
  rw [Station.woken, if_pos hb] at h
  obtain h | h := h
  · exact (slot h).imp_right .inl
  · exact (slot h).imp_right .inr

theorem tagsLive_broadcast {s : State} {b : Broadcast} (hs : TagsLive s) (hc : EngineCoherent s)
    (hb : cdb s = some b) : TagsLive (s.broadcast b) := by
  obtain ⟨hpend, -⟩ := cdb_some hb
  refine tagsLive_of_kept hs (fun p _ => p ≠ b.entry.station) ?kept ?slots ?table (.inl ?saved)
  case kept => exact fun p P i hP hne => broadcast_keptAt hne P hP.held
  case slots =>
    intro j T' p hT' hbT' hq
    obtain hfree | ⟨-, T, hT, rfl⟩ := broadcast_holds hT'
    · rw [hfree] at hbT'
      cases hbT'
    · have hsame := woken_sameHolder b.entry.station b.value T
      obtain ⟨hne, hq⟩ := tag_of_woken (hsame.busy ▸ hbT') hq
      exact ⟨T, hT, hsame.busy ▸ hbT', hsame.seq, hq, fun _ _ => hne⟩
  case table =>
    intro r p hr
    rw [broadcast_status] at hr
    split at hr
    next => cases hr
    next hne =>
      obtain ⟨P, i, hP, hd⟩ := produces_of_status hs hr
      exact ⟨P, i, hP, hd, fun h => hne (h ▸ hr)⟩
  case saved => simpa [hpend] using hc.flags.2

/-- No two registers wait on one station: its instruction has one destination. -/
theorem status_injective {s : State} (hs : TagsLive s) {r r' : RegIdx} {p : Nat} (hr : s.status r = some p)
    (hr' : s.status r' = some p) : r = r' := by
  obtain ⟨P, i, hP, -, hi, hd⟩ := hs.table r p hr
  obtain ⟨P', i', hP', -, hi', hd'⟩ := hs.table r' p hr'
  obtain rfl := holds_unique hP hP'
  obtain rfl : i = i' := Option.some.inj (hi.symm.trans hi')
  exact Option.some.inj (hd.symm.trans hd')

/-- Settles O44: the checkpoint names only producers older than the branch, which no squash releases. -/
theorem stepKeepsTagsLive : Obligations.StepKeepsTagsLive := by
  intro s t hpolicy hc hs h
  have hall : t.params.squashRegStatPolicy = .restore ∧ EngineCoherent t ∧ TagsLive t := by
    refine step_induct_of_turn
      (P := fun s => s.params.squashRegStatPolicy = .restore ∧ EngineCoherent s ∧ TagsLive s)
      ?turns ?begins ?issues ?executes ?broadcasts h ⟨hpolicy, hc, hs⟩
    case turns => exact fun s ⟨hp, hc, hs⟩ => ⟨hp, engineCoherent_withTurn hc _, tagsLive_withTurn hs _⟩
    case begins => exact fun s ⟨hp, hc, hs⟩ => ⟨hp, engineCoherent_begin hc, tagsLive_begin hs⟩
    case issues =>
      exact fun s i k S ⟨hp, hc, hs⟩ hj hfree hb =>
        ⟨by rwa [issuedInto_params], engineCoherent_issuedInto hc hfree hj hb, tagsLive_issuedInto hs hfree hc⟩
    case executes =>
      exact fun s i k S u ⟨hp, hc, hs⟩ hS hb _ _ hi hex =>
        ⟨by rwa [(fixed_of_executes hex).1], engineCoherent_of_executes hc hS hb hi hex,
          tagsLive_of_executes hs hc hp hS hb hi hex⟩
    case broadcasts =>
      exact fun s b ⟨hp, hc, hs⟩ hb => ⟨hp, engineCoherent_broadcast hc hb, tagsLive_broadcast hs hc hb⟩
  obtain ⟨-, -, ht⟩ := hall
  exact ⟨ht, fun r r' p => status_injective ht⟩

end Sys2Proof.Proofs.Tags

/-! SUPPORT. Where an Execute part, a visit and a step stop: which refusals and which faults they can answer, and why
(40_pipeline.md R125, R126; 60_exceptions.md R221). -/

namespace Sys2Proof.Proofs.Stops

open Machine

/-! ## One station's part -/

theorem onStation_of_holds {k : Nat} {s : State} {S : Station} (h : s.holds k S)
    (f : Station → Result State Fault Refusal) : onStation k s f = f S := by
  rw [State.holds] at h
  rw [onStation, h]

/-- Only a missing base stops an address phase (R150). -/
theorem vj_of_addressPhase_none {S : Station} (h : addressPhase S = none) : S.vj = none := by
  unfold addressPhase at h
  split at h
  next =>
    split at h
    next => cases h
    next hv => exact hv
  next => cases h

/-! ## Refusals of an Execute part -/

theorem squashRegStat_refused {k : Nat} {s : State} {S : Station} {r : Refusal}
    {f : RegStat → Result State Fault Refusal} (h : squashRegStat s k S f = .refused r)
    (hf : ∀ c, f c ≠ .refused r) : s.checkpoint = none := by
  unfold squashRegStat at h
  split at h
  next =>
    split at h
    next => exact absurd h (hf _)
    next hnone => exact hnone
  next => exact absurd h (hf _)
  next =>
    split at h
    next => cases h
    next => exact absurd h (hf _)

theorem branchTaken_refused {k : Nat} {s : State} {S : Station} {r : Refusal} (h : branchTaken s k S = .refused r) :
    s.checkpoint = none := by
  rw [branchTaken] at h
  exact squashRegStat_refused h fun _ => nofun

section Refused

variable {i : Instr} {k : Nat} {s : State} {S : Station} {r : Refusal} (hS : s.holds k S)

include hS

theorem completeAlu_refused {f : Word → Word → Word} (h : completeAlu i f k s = .refused r) :
    S.vj = none ∨ S.vk = none := by
  rw [completeAlu, onStation_of_holds hS] at h
  split at h
  next =>
    split at h
    next => cases h
    next hnone =>
      by_contra hsome
      obtain ⟨hj, hk⟩ := not_or.1 hsome
      obtain ⟨x, hx⟩ := Option.ne_none_iff_exists'.1 hj
      obtain ⟨y, hy⟩ := Option.ne_none_iff_exists'.1 hk
      exact hnone x y hx hy
  next => cases h

theorem completeLoad_refused (h : completeLoad i k s = .refused r) : S.vj = none := by
  rw [completeLoad, onStation_of_holds hS] at h
  split at h
  next hnone => exact vj_of_addressPhase_none hnone
  next =>
    dsimp only at h
    split at h
    next =>
      split at h
      next => cases h
      next => split at h <;> cases h
    next => cases h

theorem completeStore_refused (h : completeStore i k s = .refused r) : S.vj = none ∨ S.vk = none := by
  rw [completeStore, onStation_of_holds hS] at h
  split at h
  next hnone => exact .inl (vj_of_addressPhase_none hnone)
  next T hT =>
    dsimp only at h
    split at h
    next =>
      split at h
      next => cases h
      next =>
        split at h
        next hv =>
          obtain ⟨-, -, -, -, -, -, -, -, hvk, -⟩ := addressPhase_fields hT
          exact .inr (hvk ▸ hv)
        next => split at h <;> cases h
    next => cases h

theorem completeBeq_refused (h : completeBeq i k s = .refused r) :
    S.vj = none ∨ S.vk = none ∨ s.checkpoint = none := by
  rw [completeBeq, onStation_of_holds hS] at h
  split at h
  next =>
    split at h
    next =>
      dsimp only at h
      split at h
      next =>
        obtain h | ⟨u, -, h⟩ := andThen_eq_refused.1 h
        · exact .inr (.inr (branchTaken_refused (s := s.logCompleted k S i) h))
        · cases h
      next => cases h
    next hnone =>
      by_contra hsome
      obtain ⟨hj, hk⟩ := not_or.1 hsome
      obtain ⟨x, hx⟩ := Option.ne_none_iff_exists'.1 hj
      obtain ⟨y, hy⟩ := Option.ne_none_iff_exists'.1 (not_or.1 hk).1
      exact hnone x y hx hy
  next => cases h

theorem completeCall_ne_refused : completeCall i k s ≠ .refused r := by
  rw [completeCall, onStation_of_holds hS]
  split <;> nofun

theorem completeRet_ne_refused : completeRet i k s ≠ .refused r := by
  rw [completeRet, onStation_of_holds hS]
  split <;> nofun

/-- An Execute part is refused only where a used operand or a BEQ's checkpoint is missing (log entry 8). -/
theorem exec_execute_refused (hturn : s.turn = .execute k) (h : exec i s = .refused r) :
    usesJ i.opcode = true ∧ S.vj = none ∨ usesK i.opcode = true ∧ S.vk = none ∨
      i.opcode = .beq ∧ s.checkpoint = none := by
  cases i with
  | load rA rB o =>
    simp only [exec, execLoad, hturn] at h
    exact .inl ⟨rfl, completeLoad_refused hS h⟩
  | store rA rB o =>
    simp only [exec, execStore, hturn] at h
    exact (completeStore_refused hS h).imp (⟨rfl, ·⟩) fun hk => .inl ⟨rfl, hk⟩
  | beq rA rB o =>
    simp only [exec, execBeq, hturn] at h
    exact (completeBeq_refused hS h).imp (⟨rfl, ·⟩) (Or.imp (⟨rfl, ·⟩) (⟨rfl, ·⟩))
  | call l =>
    simp only [exec, execCall, hturn] at h
    exact absurd h (completeCall_ne_refused hS)
  | ret =>
    simp only [exec, execRet, hturn] at h
    exact absurd h (completeRet_ne_refused hS)
  | add | sub | nor | mul =>
    simp only [exec, execAdd, execSub, execNor, execMul, hturn] at h
    exact (completeAlu_refused hS h).imp (⟨rfl, ·⟩) fun hk => .inl ⟨rfl, hk⟩

end Refused

/-! ## Faults of an Execute part -/

/-- A fault that names an address outside memory (R62, R221). -/
def IsBoundsFault (f : Fault) : Prop := ∃ a, f = .boundsError a ∧ inBounds a = false

theorem isBoundsFault_of_memRead {m : Memory} {a : Int} {f : Fault} (h : memRead m a = .error f) : IsBoundsFault f := by
  unfold memRead at h
  split at h
  next => cases h
  next hb => cases h; exact ⟨a, rfl, by simpa using hb⟩

theorem isBoundsFault_of_memWrite {m : Memory} {a : Int} {v : Word} {f : Fault} (h : memWrite m a v = .error f) :
    IsBoundsFault f := by
  unfold memWrite at h
  split at h
  next => cases h
  next hb => cases h; exact ⟨a, rfl, by simpa using hb⟩

section Faults

variable {i : Instr} {k : Nat} {s : State} {f : Fault}

/-- A part that runs on no station does not fault, so a fault comes from a station held. -/
theorem onStation_fault {g : Station → Result State Fault Refusal} (h : onStation k s g = .fault f) :
    ∃ S, s.holds k S ∧ g S = .fault f := by
  unfold onStation at h
  split at h
  next S hS => exact ⟨S, hS, h⟩
  next => cases h

theorem completeAlu_ne_fault {g : Word → Word → Word} : completeAlu i g k s ≠ .fault f := by
  intro h
  obtain ⟨S, -, h⟩ := onStation_fault h
  split at h
  next => split at h <;> cases h
  next => cases h

theorem completeLoad_fault (h : completeLoad i k s = .fault f) : IsBoundsFault f := by
  obtain ⟨S, -, h⟩ := onStation_fault h
  split at h
  next => cases h
  next =>
    dsimp only at h
    split at h
    next =>
      split at h
      next => cases h
      next =>
        split at h
        next hr => cases h; exact isBoundsFault_of_memRead hr
        next => cases h
    next => cases h

theorem completeStore_fault (h : completeStore i k s = .fault f) : IsBoundsFault f := by
  obtain ⟨S, -, h⟩ := onStation_fault h
  split at h
  next => cases h
  next =>
    dsimp only at h
    split at h
    next =>
      split at h
      next => cases h
      next =>
        split at h
        next => cases h
        next =>
          split at h
          next hw => cases h; exact isBoundsFault_of_memWrite hw
          next => cases h
    next => cases h

theorem squashRegStat_fault {S : Station} {g : RegStat → Result State Fault Refusal}
    (h : squashRegStat s k S g = .fault f)
    (hg : ∀ c, g c ≠ .fault f) : s.params.squashRegStatPolicy = .fault := by
  unfold squashRegStat at h
  split at h
  next =>
    split at h
    next => exact absurd h (hg _)
    next => cases h
  next => exact absurd h (hg _)
  next hpolicy => exact hpolicy

theorem branchTaken_fault {S : Station} (h : branchTaken s k S = .fault f) :
    s.params.squashRegStatPolicy = .fault := by
  rw [branchTaken] at h
  exact squashRegStat_fault h fun _ => nofun

theorem completeBeq_fault (h : completeBeq i k s = .fault f) : s.params.squashRegStatPolicy = .fault := by
  obtain ⟨S, -, h⟩ := onStation_fault h
  split at h
  next =>
    split at h
    next =>
      dsimp only at h
      split at h
      next =>
        obtain h | ⟨u, -, h⟩ := andThen_eq_fault.1 h
        · exact branchTaken_fault (s := s.logCompleted k S i) h
        · cases h
      next => cases h
    next => cases h
  next => cases h

theorem completeCall_ne_fault : completeCall i k s ≠ .fault f := by
  intro h
  obtain ⟨S, -, h⟩ := onStation_fault h
  split at h <;> cases h

theorem completeRet_ne_fault : completeRet i k s ≠ .fault f := by
  intro h
  obtain ⟨S, -, h⟩ := onStation_fault h
  split at h <;> cases h

/-- An Execute part faults at an access outside memory, or by the squash policy `fault` (R153, R156, R196). -/
theorem exec_execute_fault (hturn : s.turn = .execute k) (h : exec i s = .fault f) :
    IsBoundsFault f ∨ s.params.squashRegStatPolicy = .fault := by
  cases i with
  | load => exact .inl (completeLoad_fault (by simpa only [exec, execLoad, hturn] using h))
  | store => exact .inl (completeStore_fault (by simpa only [exec, execStore, hturn] using h))
  | beq => exact .inr (completeBeq_fault (by simpa only [exec, execBeq, hturn] using h))
  | call => exact absurd (by simpa only [exec, execCall, hturn] using h) completeCall_ne_fault
  | ret => exact absurd (by simpa only [exec, execRet, hturn] using h) completeRet_ne_fault
  | add | sub | nor | mul =>
    simp only [exec, execAdd, execSub, execNor, execMul, hturn] at h
    exact absurd h completeAlu_ne_fault

end Faults

/-! ## Stops of an Issue part -/

/-- Issue itself always answers: an instruction issues, or stalls (R118). -/
theorem exists_issueWith_eq (i : Instr) (fill : Station → Station) (flag : Nat → State → State) (s : State) :
    ∃ t, issueWith i fill flag s = .next t := by
  unfold issueWith
  split <;> exact ⟨_, rfl⟩

theorem issueWith_ne_refused {i : Instr} {fill : Station → Station} {flag : Nat → State → State} {s : State}
    {r : Refusal} : issueWith i fill flag s ≠ .refused r := by
  obtain ⟨t, ht⟩ := exists_issueWith_eq i fill flag s
  rw [ht]
  nofun

theorem issueWith_ne_fault {i : Instr} {fill : Station → Station} {flag : Nat → State → State} {s : State}
    {f : Fault} : issueWith i fill flag s ≠ .fault f := by
  obtain ⟨t, ht⟩ := exists_issueWith_eq i fill flag s
  rw [ht]
  nofun

theorem exec_issue_ne_refused {i : Instr} {s : State} {r : Refusal} (hturn : s.turn = .issue) :
    exec i s ≠ .refused r := by
  intro h
  cases i with
  | load | store | call | add | sub | nor | mul =>
    simp only [exec, execLoad, execStore, execCall, execAdd, execSub, execNor, execMul, hturn] at h
    exact issueWith_ne_refused h
  | beq =>
    simp only [exec, execBeq, hturn] at h
    split at h
    next => split at h <;> cases h
    next => exact issueWith_ne_refused h
  | ret =>
    simp only [exec, execRet, hturn] at h
    split at h
    next => cases h
    next => exact issueWith_ne_refused h

/-- An Issue part faults by the two policies only (R191, R202). -/
theorem exec_issue_fault {i : Instr} {s : State} {f : Fault} (hturn : s.turn = .issue) (h : exec i s = .fault f) :
    s.params.nestedBranchPolicy = .fault ∨ s.params.retLinkPolicy = .faultIfPending := by
  cases i with
  | load | store | call | add | sub | nor | mul =>
    simp only [exec, execLoad, execStore, execCall, execAdd, execSub, execNor, execMul, hturn] at h
    exact absurd h issueWith_ne_fault
  | beq =>
    simp only [exec, execBeq, hturn] at h
    split at h
    next =>
      split at h
      next => cases h
      next hpolicy => exact .inl hpolicy
    next => exact absurd h issueWith_ne_fault
  | ret =>
    simp only [exec, execRet, hturn] at h
    split at h
    next hpolicy => exact .inr hpolicy.1
    next => exact absurd h issueWith_ne_fault

theorem issuePhase_ne_refused {s : State} {r : Refusal} (hturn : s.turn = .issue) : issuePhase s ≠ .refused r := by
  intro h
  unfold issuePhase at h
  split at h
  next => cases h
  next =>
    split at h
    next => cases h
    next => cases h
    next => exact exec_issue_ne_refused hturn h

/-- A fetch faults at a PC outside memory or at a word that names no opcode (R115, R117). -/
theorem fetch_fault {s : State} {f : Fault} (h : fetch s = .fault f) :
    IsBoundsFault f ∨ ∃ w, f = .illegalInstruction w s.pc ∧ decode s.params.opcodes w = .invalid := by
  unfold fetch at h
  split at h
  next hr => cases h; exact .inl (isBoundsFault_of_memRead hr)
  next w _ =>
    split at h
    next => cases h
    next =>
      split at h
      next hd => cases h; exact .inr ⟨w, rfl, hd⟩
      next => cases h

theorem issuePhase_fault {s : State} {f : Fault} (hturn : s.turn = .issue) (h : issuePhase s = .fault f) :
    (IsBoundsFault f ∨ ∃ w, f = .illegalInstruction w s.pc ∧ decode s.params.opcodes w = .invalid) ∨
      s.params.nestedBranchPolicy = .fault ∨ s.params.retLinkPolicy = .faultIfPending := by
  unfold issuePhase at h
  split at h
  next => cases h
  next =>
    split at h
    next => cases h
    next f' hf => cases h; exact .inl (fetch_fault hf)
    next => exact .inr (exec_issue_fault hturn h)

/-! ## Visits -/

/-- A visit that answers a next state skipped the station, or ran the Execute part of the instruction it holds; the
turn aside, that is one `Executes` step (R126). -/
theorem visit_executes {q k : Nat} {s t : State} (h : visit q k s = .next t) :
    t = s ∨ ∃ S i, s.holds k S ∧ S.busy = true ∧ S.ready = true ∧ blocked s k S = false ∧ S.instr = some i ∧
      Executes i k S (s.withTurn .issue) t := by
  obtain rfl | ⟨S, i, u, hS, hb, -, hready, hblock, hi, hx, rfl⟩ := visit_cases h
  · exact .inl rfl
  · obtain ⟨S', hS', hex⟩ := exec_execute_cases (k := k) rfl hx
    obtain rfl := holds_unique hS hS'
    exact .inr ⟨S, i, hS, hb, hready, hblock, hi, Phases.executes_withTurn hex .issue⟩

/-- A visit that does not skip its station runs the instruction it holds, so a stop is that instruction's. -/
theorem visit_stop {q k : Nat} {s : State} (h : ∀ t, visit q k s ≠ .next t) :
    ∃ S, s.holds k S ∧ S.busy = true ∧ S.ready = true ∧ (S.instr = none ∨ ∃ i, S.instr = some i ∧
      visit q k s = andThen (exec i (s.withTurn (.execute k))) fun t => .next (t.withTurn .issue)) := by
  unfold visit at h ⊢
  split at h
  next => exact absurd rfl (h _)
  next S hS =>
    split at h
    next => exact absurd rfl (h _)
    next hbusy =>
      split at h
      next => exact absurd rfl (h _)
      next hblock =>
        split at h
        next => exact absurd rfl (h _)
        next hready =>
          simp only [Bool.or_eq_true, Bool.not_eq_true', not_or, Bool.not_eq_false] at hbusy hready
          refine ⟨S, hS, hbusy.1, hready, ?_⟩
          cases hi : S.instr with
          | none => exact .inl rfl
          | some i => exact .inr ⟨i, rfl, by simp [hbusy, hblock, hready]⟩

theorem visit_refused {q k : Nat} {s : State} {r : Refusal} (h : visit q k s = .refused r) :
    ∃ S, s.holds k S ∧ S.busy = true ∧ S.ready = true ∧
      (S.instr = none ∨ ∃ i, S.instr = some i ∧ exec i (s.withTurn (.execute k)) = .refused r) := by
  obtain ⟨S, hS, hb, hready, hi⟩ := visit_stop (q := q) (k := k) (s := s) (by simp [h])
  refine ⟨S, hS, hb, hready, hi.imp_right fun ⟨i, hi, hx⟩ => ⟨i, hi, ?_⟩⟩
  obtain hx | ⟨u, -, hu⟩ := andThen_eq_refused.1 (hx.symm.trans h)
  · exact hx
  · cases hu

theorem visit_fault {q k : Nat} {s : State} {f : Fault} (h : visit q k s = .fault f) :
    ∃ i, exec i (s.withTurn (.execute k)) = .fault f := by
  obtain ⟨S, hS, -, -, hi | ⟨i, -, hx⟩⟩ := visit_stop (q := q) (k := k) (s := s) (by simp [h])
  · rw [State.holds] at hS
    simp only [visit, hS, hi] at h
    split_ifs at h
  · obtain hx | ⟨u, -, hu⟩ := andThen_eq_fault.1 (hx.symm.trans h)
    · exact ⟨i, hx⟩
    · cases hu

/-- A stop among the visits is the stop of one of them, in a state that has what the visits before it keep. -/
theorem visitAll_refused {P : State → Prop} (hvisit : ∀ q k s t, P s → visit q k s = .next t → P t)
    {l : List (Nat × Nat)} {s : State} {r : Refusal} (hs : P s) (h : visitAll l s = .refused r) :
    ∃ q k u, P u ∧ visit q k u = .refused r := by
  induction l generalizing s with
  | nil => cases h
  | cons x rest ih =>
    obtain ⟨q, k⟩ := x
    obtain h | ⟨u, hu, h⟩ := andThen_eq_refused.1 h
    · exact ⟨q, k, s, hs, h⟩
    · exact ih (hvisit q k s u hs hu) h

theorem visitAll_fault {P : State → Prop} (hvisit : ∀ q k s t, P s → visit q k s = .next t → P t)
    {l : List (Nat × Nat)} {s : State} {f : Fault} (hs : P s) (h : visitAll l s = .fault f) :
    ∃ q k u, P u ∧ visit q k u = .fault f := by
  induction l generalizing s with
  | nil => cases h
  | cons x rest ih =>
    obtain ⟨q, k⟩ := x
    obtain h | ⟨u, hu, h⟩ := andThen_eq_fault.1 h
    · exact ⟨q, k, s, hs, h⟩
    · exact ih (hvisit q k s u hs hu) h

end Sys2Proof.Proofs.Stops

/-! SUPPORT. The frame of an Execute part: what each instruction's part leaves unchanged (10_state.md R22, R39;
40_pipeline.md R127), and the frame of a step that follows from it. -/

namespace Sys2Proof.Proofs.Frames

open Machine Phases

/-! ## The memory word by word (R60, R62) -/

/-- A word read after a word written, by integer address. -/
theorem wordAt_of_memWrite {s t : State} {a : Int} {v : Word} (hs : MemoryCanonical s)
    (h : memWrite s.mem a v = .ok t.mem) (b : Int) : t.wordAt b = if b = a then v else s.wordAt b := by
  obtain ⟨hb, hm⟩ := memWrite_ok h
  rw [State.wordAt, State.wordAt, hm, Memory.get_set hs]
  by_cases hba : b = a
  · simp [hba, hb]
  · rw [if_neg hba]
    split
    next hin =>
      obtain ⟨h0, -⟩ := inBounds_iff.1 hb
      obtain ⟨h1, -⟩ := inBounds_iff.1 hin
      rw [if_neg (by omega)]
    next => rfl

theorem wordAt_congr {s t : State} (h : t.mem = s.mem) (a : Int) : t.wordAt a = s.wordAt a := by
  rw [State.wordAt, State.wordAt, h]

/-- The address of a station once its address phase has run is the one its access goes to (R150). -/
theorem addressed_a (S : Station) (base : Word) : (addressed S base).a = accessAddress S base := by
  unfold addressed accessAddress
  split <;> rfl

/-- Settles O28: each clause reads off `Executes`, constructor by constructor. -/
theorem executeFrame : Obligations.ExecuteFrame := by
  intro i s t k S hcanon hturn hS hexec
  obtain ⟨S', hS', h⟩ := exec_execute_cases hturn hexec
  obtain rfl := holds_unique hS hS'
  refine ⟨fun r hr => ?reg, fun hop a => ?mem, fun hop base hbase a ha => ?word, fun hop => ?branch,
    fun hop hjump => pc_of_executes h hop hjump, fun hprod => writtenBack_of_executes h hprod,
    length_stations_of_executes h, fixed_of_executes h⟩
  case reg =>
    obtain hreg | ⟨hop, hreg⟩ := reg_of_executes h
    · rw [State.readReg, State.readReg, hreg]
    · rw [State.readReg, State.readReg, hreg, Bank.get_set_ne _ _ (hr hop)]
  case mem =>
    obtain hmem | ⟨hop', -⟩ := mem_of_executes h
    · exact wordAt_congr hmem a
    · exact absurd hop' hop
  case word =>
    obtain hmem | ⟨-, T, v, hT, hw⟩ := mem_of_executes h
    · exact wordAt_congr hmem a
    · obtain rfl : addressed S base = T := Option.some.inj ((addressPhase_eq hbase).symm.trans hT)
      rw [addressed_a] at hw
      rw [wordAt_of_memWrite hcanon hw, if_neg ha]
  case branch =>
    obtain ⟨htable, hissued, hmiss, hafter, hbranch, hpending, hcheck⟩ := branchState_of_executes h hop
    exact ⟨fun r => by rw [State.status, State.status, htable], hissued,
      fun j hj => stations_of_executes_ne h hop hj, hmiss, hafter, hbranch, hpending, hcheck⟩

/-! ## The step -/

/-- What no phase after Cycle-advance changes, and the logs that only grow. -/
structure FixedPart (s u : State) : Prop where
  params : u.params = s.params
  descs : u.stations.map Station.desc = s.stations.map Station.desc
  cycle : u.cycle = s.cycle
  started : u.started = s.started
  fault : u.fault = s.fault
  executed : s.executed <+: u.executed
  writtenBack : s.writtenBack <+: u.writtenBack

theorem FixedPart.refl (s : State) : FixedPart s s := ⟨rfl, rfl, rfl, rfl, rfl, List.prefix_rfl, List.prefix_rfl⟩

theorem FixedPart.trans {s u v : State} (h : FixedPart s u) (h' : FixedPart u v) : FixedPart s v :=
  ⟨h'.params.trans h.params, h'.descs.trans h.descs, h'.cycle.trans h.cycle, h'.started.trans h.started,
    h'.fault.trans h.fault, h.executed.trans h'.executed, h.writtenBack.trans h'.writtenBack⟩

theorem descs_issuedInto {i : Instr} {k : Nat} {S : Station} {s : State}
    (hfree : firstFree (unitKind i.opcode) s.stations = some (k, S)) :
    (issuedInto i k S s).stations.map Station.desc = s.stations.map Station.desc := by
  obtain ⟨hS, -⟩ := firstFree_some hfree
  obtain ⟨hk, rfl⟩ := List.getElem?_eq_some_iff.1 hS
  obtain ⟨hdesc, -⟩ := issueFill_fields i s.stations[k] s
  rw [issuedInto_stations, List.map_set, hdesc, ← List.getElem_map (f := Station.desc) (h := by simpa using hk),
    List.set_getElem_self]

/-- The Issue phase keeps the fixed part and takes at most one number (R124). -/
theorem issuePhase_fixed {s u : State} (hturn : s.turn = .issue) (h : issuePhase s = .next u) :
    FixedPart s u ∧ u.turn = .issue ∧ s.nextSeq ≤ u.nextSeq ∧ u.nextSeq ≤ s.nextSeq + 1 := by
  obtain rfl | ⟨i, -, -, hx⟩ := issuePhase_cases h
  · exact ⟨.refl _, hturn, le_rfl, Nat.le_succ _⟩
  · obtain rfl | ⟨k, S, hfree, rfl, -⟩ := exec_issue_cases hturn hx
    · exact ⟨.refl _, hturn, le_rfl, Nat.le_succ _⟩
    · exact ⟨⟨by simp, descs_issuedInto hfree, by simp, by simp, by simp, by simp, by simp⟩, by simp [hturn], by simp,
        by simp⟩

/-- The Execute phase keeps the fixed part and the numbers (R127). -/
theorem executePhase_fixed {s u : State} (hturn : s.turn = .issue) (h : executePhase s = .next u) :
    FixedPart s u ∧ u.turn = .issue ∧ u.nextSeq = s.nextSeq := by
  refine visitAll_induct (P := fun u => FixedPart s u ∧ u.turn = .issue ∧ u.nextSeq = s.nextSeq) ?_ h
    ⟨.refl s, hturn, rfl⟩
  intro q k u v ⟨hfix, hturn, hseq⟩ hvisit
  obtain rfl | ⟨S, i, hS, -, -, -, -, hex⟩ := Stops.visit_executes hvisit
  · exact ⟨hfix, hturn, hseq⟩
  · obtain ⟨hparams, -, hseq', hcycle, hstarted, hfault, hturn'⟩ := fixed_of_executes hex
    obtain ⟨hexec, hback⟩ := logs_of_executes hex
    exact ⟨hfix.trans ⟨hparams, descs_of_executes (s := u.withTurn .issue) hex hS, hcycle, hstarted, hfault, hexec,
      hback⟩, hturn', hseq'.trans hseq⟩

theorem descs_releasedAt (k : Nat) (l : List Station) :
    (releasedAt k l).map Station.desc = l.map Station.desc := by
  unfold releasedAt
  split
  next S hS =>
    obtain ⟨hk, rfl⟩ := List.getElem?_eq_some_iff.1 hS
    rw [List.map_set, Station.released, ← List.getElem_map (f := Station.desc) (h := by simpa using hk),
      List.set_getElem_self]
  next => rfl

/-- Writeback keeps the fixed part, the turn and the numbers. -/
theorem writeback_fixed (s : State) :
    FixedPart s (writeback s) ∧ (writeback s).turn = s.turn ∧ (writeback s).nextSeq = s.nextSeq := by
  obtain h | ⟨b, -, h⟩ := writeback_cases s
  · rw [h]
    exact ⟨.refl s, rfl, rfl⟩
  · rw [h]
    refine ⟨⟨rfl, ?_, rfl, rfl, rfl, List.prefix_rfl, List.prefix_append ..⟩, rfl, rfl⟩
    rw [broadcast_stations, descs_releasedAt, List.map_map]
    exact List.map_congr_left fun T _ => (woken_fields ..).1

/-- Settles O45: the cycle's start advances the counter, and every phase after it keeps the fixed part. -/
theorem stepKeepsConfigurationAndLogs : Obligations.StepKeepsConfigurationAndLogs := by
  intro s t h
  obtain ⟨hfault, u, v, hu, hv, rfl⟩ := step_next h
  obtain ⟨hissue, hturn, hle, hlt⟩ := issuePhase_fixed rfl hu
  obtain ⟨hexec, hturn', hseq⟩ := executePhase_fixed hturn hv
  obtain ⟨hback, hturn'', hseq'⟩ := writeback_fixed v
  have hfix := (hissue.trans hexec).trans hback
  have hdescs : (beginCycle s).stations.map Station.desc = s.stations.map Station.desc := by
    rw [beginCycle_stations, List.map_map]
    exact List.map_congr_left fun T _ => (advanced_fields T).1
  have hnext : (writeback v).nextSeq = u.nextSeq := hseq'.trans hseq
  exact ⟨hfix.params, hfix.descs.trans hdescs, hfix.cycle, hfix.started, hfix.fault.trans hfault,
    hturn''.trans hturn', hnext ▸ hle, hnext ▸ hlt, hfix.executed, hfix.writtenBack⟩

end Sys2Proof.Proofs.Frames

/-! SUPPORT. The rules of the whole machine: reset, refusals and faults of a step, the halted engine, the recovery
machine, and a branch that waits (43_control_instructions.md R190, R198; 60_exceptions.md R221; 70_reset_and_hazards.md
R240, R247, R249). -/

namespace Sys2Proof.Proofs.WholeMachine

open Machine Phases LocalInvariants EngineInvariants PendingFlags Stops Frames

/-! ## Reset (R240) -/

/-- Settles O36: every field of `State.reset` is written out. -/
theorem resetLeavesZeroState : Obligations.ResetLeavesZeroState := by
  refine ⟨fun a => ?_, by decide, by decide, rfl, rfl, rfl, rfl, rfl, rfl, rfl, rfl, rfl, rfl, rfl, rfl, rfl, rfl, rfl, rfl,
    rfl⟩
  exact ite_self (c := inBounds a = true) unlistedWord

/-- At reset no station is held. -/
theorem not_holds_reset (k : Nat) (S : Station) : ¬ State.reset.holds k S := by
  simp [State.holds, State.reset]

theorem engineCoherent_reset : EngineCoherent State.reset where
  stations := by decide
  sequence := ⟨by simp [State.reset], fun k _ S _ hS => absurd hS (not_holds_reset k S), .nil, by simp [State.reset]⟩
  flags := ⟨rfl, rfl⟩
  branch := ⟨nofun, fun k S hS => absurd hS (not_holds_reset k S)⟩
  jump := ⟨nofun, fun k S _ hS => absurd hS (not_holds_reset k S), fun k _ S _ _ _ hS => absurd hS (not_holds_reset k S),
    fun _ _ _ _ _ hb => nomatch hb⟩

theorem tagsLive_reset : TagsLive State.reset where
  slots := fun k S _ hS => absurd hS (not_holds_reset k S)
  table := fun r p hr => by
    have hnone : ∀ r, State.reset.status r = none := by decide
    rw [hnone r] at hr
    cases hr
  saved := nofun

/-- Settles O37: at reset there is no station, no log entry and no flag. -/
theorem resetMeetsTheInvariants : Obligations.ResetMeetsTheInvariants :=
  ⟨by decide, by decide, by decide, by decide, fun k S hS => absurd hS (not_holds_reset k S), engineCoherent_reset,
    tagsLive_reset, by decide⟩

/-! ## Refusals and faults of a step -/

theorem step_of_unfaulted {s : State} (h : s.fault = none) : step s = runCycle s := by
  rw [step, h]

theorem engineCoherent_issuePhase {s u : State} (hs : EngineCoherent s) (hturn : s.turn = .issue)
    (h : issuePhase s = .next u) : EngineCoherent u := by
  obtain rfl | ⟨i, hj, -, hx⟩ := issuePhase_cases h
  · exact hs
  · obtain rfl | ⟨k, S, hfree, rfl, hb⟩ := exec_issue_cases hturn hx
    · exact hs
    · exact engineCoherent_issuedInto hs hfree hj hb

theorem engineCoherent_visit {q k : Nat} {s t : State} (hs : EngineCoherent s) (h : visit q k s = .next t) :
    EngineCoherent t := by
  obtain rfl | ⟨S, i, hS, hb, -, -, hi, hex⟩ := visit_executes h
  · exact hs
  · exact engineCoherent_of_executes (engineCoherent_withTurn hs .issue) hS hb hi hex

theorem ready_iff (S : Station) : S.ready = true ↔ S.qj = none ∧ S.qk = none := by
  simp [Station.ready]

/-- A used slot that waits on no tag holds a value (R28). -/
theorem ne_none_of_slotOk {v : Option Word} (h : slotOk true v none = true) : v ≠ none := by
  rintro rfl
  cases h

/-- A ready station of a coherent engine has the operands that its instruction reads (R28, R30), and a BEQ's visit
finds the checkpoint (R36). -/
theorem visit_ne_refused {s : State} (hs : EngineCoherent s) (q k : Nat) (r : Refusal) : visit q k s ≠ .refused r := by
  intro h
  obtain ⟨S, hS, hb, hready, hi⟩ := visit_refused h
  obtain ⟨i, hinstr, hop, -, hj, hk, -⟩ := coherent_of_busy (hs.stations S (holds_mem hS)) hb
  obtain ⟨hqj, hqk⟩ := (ready_iff S).1 hready
  rw [hqj] at hj
  rw [hqk] at hk
  obtain hnone | ⟨i', hi', hx⟩ := hi
  · rw [hinstr] at hnone
    cases hnone
  · obtain rfl : i = i' := Option.some.inj (hinstr.symm.trans hi')
    obtain ⟨huse, hv⟩ | ⟨huse, hv⟩ | ⟨hbeq, hcheck⟩ := exec_execute_refused (s := s.withTurn (.execute k)) hS rfl hx
    · exact ne_none_of_slotOk (huse ▸ hj) hv
    · exact ne_none_of_slotOk (huse ▸ hk) hv
    · obtain ⟨hpending, hsaved⟩ := hs.flags
      rw [hs.branch.only k S hS hb (hop.trans (congrArg some hbeq))] at hpending
      rw [show s.checkpoint = none from hcheck, ← hpending] at hsaved
      cases hsaved

/-- Settles O46: the engine stays coherent through the visits of a cycle, and no visit of a coherent engine is refused. -/
theorem coherentEngineIsNeverRefused : Obligations.CoherentEngineIsNeverRefused := by
  intro s r hs hfault h
  rw [step_of_unfaulted hfault] at h
  obtain h | ⟨u, hu, h⟩ := andThen_eq_refused.1 h
  · exact issuePhase_ne_refused rfl h
  · obtain h | ⟨v, -, h⟩ := andThen_eq_refused.1 h
    · have hcoh : EngineCoherent u := engineCoherent_issuePhase (engineCoherent_begin hs) rfl hu
      obtain ⟨q, k, v, hv, hvisit⟩ :=
        visitAll_refused (P := EngineCoherent) (fun _ _ _ _ hs h => engineCoherent_visit hs h) hcoh h
      exact visit_ne_refused hv q k r hvisit
    · cases h

theorem params_visit {q k : Nat} {s t : State} (h : visit q k s = .next t) : t.params = s.params := by
  obtain rfl | ⟨S, i, -, -, -, -, -, hex⟩ := visit_executes h
  · rfl
  · exact (fixed_of_executes hex).1

/-- Settles O50: each other fault is raised under a policy that is not the default. -/
theorem defaultPoliciesFaultOnlyOnBoundsOrOpcode : Obligations.DefaultPoliciesFaultOnlyOnBoundsOrOpcode := by
  intro s f hnested hret hsquash h
  have hfault : s.fault = none := by
    unfold step at h
    split at h
    next => cases h
    next hf => exact hf
  rw [step_of_unfaulted hfault] at h
  obtain h | ⟨u, hu, h⟩ := andThen_eq_fault.1 h
  · obtain h | h | h := issuePhase_fault rfl h
    · exact h
    · rw [beginCycle_params, hnested] at h
      cases h
    · rw [beginCycle_params, hret] at h
      cases h
  · obtain h | ⟨v, -, h⟩ := andThen_eq_fault.1 h
    · obtain ⟨hfix, -⟩ := issuePhase_fixed rfl hu
      obtain ⟨q, k, v, hv, hvisit⟩ := visitAll_fault (P := fun v => v.params = s.params)
        (fun _ _ _ _ hs h => (params_visit h).trans hs) hfix.params h
      obtain ⟨i, hx⟩ := visit_fault hvisit
      obtain h | h := exec_execute_fault (s := v.withTurn (.execute k)) rfl hx
      · exact .inl h
      · rw [withTurn_params, hv, hsquash] at h
        cases h
    · cases h

/-- Settles O51: `settle` records the fault, and `step` refuses a state that has one. -/
theorem faultLeavesTheEngineAsItWas : Obligations.FaultLeavesTheEngineAsItWas := by
  intro s f h
  rw [h]
  exact ⟨rfl, rfl⟩

/-! ## The halted engine (R247) -/

/-- The condition of R247. -/
theorem halted_iff (s : State) : halted s = true ↔
    ((∀ S ∈ s.stations, S.busy = false) ∧ s.branchPending = false ∧ s.jumpPending = false) ∧
      inBounds s.pc = true ∧ s.mem.get s.pc.toNat = 0 := by
  simp [halted, quiescent, and_assoc]

/-- Cycle-advance changes no free station (R112). -/
theorem beginCycle_of_free {s : State} (h : ∀ S ∈ s.stations, S.busy = false) :
    beginCycle s = { s with started := true, cycle := s.cycle + 1, turn := .issue } := by
  have hsame : s.stations.map Station.advanced = s.stations :=
    (List.map_congr_left fun S hS => advanced_of_free (h S hS)).trans (List.map_id _)
  rw [beginCycle, cycleAdvance]
  simp only [hsame]

/-- The empty word stalls Issue (R116). -/
theorem issuePhase_of_empty {s : State} (hb : inBounds s.pc = true) (hw : s.mem.get s.pc.toNat = 0) :
    issuePhase s = .next s := by
  have hf : fetch s = .empty := by simp [fetch, memRead, hb, hw]
  rw [issuePhase, hf]
  exact ite_self _

theorem busyFrom_of_free {l : List Station} (h : ∀ S ∈ l, S.busy = false) (n : Nat) : busyFrom n l = [] := by
  induction l generalizing n with
  | nil => rfl
  | cons S rest ih =>
    obtain ⟨hS, hrest⟩ := List.forall_mem_cons.1 h
    rw [busyFrom, hS]
    exact ih hrest (n + 1)

/-- With no station busy, nothing is broadcast. -/
theorem writeback_of_free {s : State} (h : ∀ S ∈ s.stations, S.busy = false) : writeback s = s := by
  obtain hw | ⟨b, hb, -⟩ := writeback_cases s
  · exact hw
  · obtain ⟨-, -, S, hS, hbusy, -⟩ := cdb_some hb
    rw [h S (holds_mem hS)] at hbusy
    cases hbusy

/-- With no station busy, nothing is visited either. -/
theorem finishCycle_of_free {s : State} (h : ∀ S ∈ s.stations, S.busy = false) : finishCycle s = .next s := by
  have hexec : executePhase s = .next s := by rw [executePhase, visitOrder, busyFrom_of_free h]; rfl
  rw [finishCycle, hexec, andThen_next, writeback_of_free h]

/-- Settles O48: with no station busy and the empty word at the PC, every phase but the cycle's start does nothing. -/
theorem haltedStepOnlyAdvancesTheCycle : Obligations.HaltedStepOnlyAdvancesTheCycle := by
  intro s hfault hhalt
  obtain ⟨⟨hfree, hbranch, hjump⟩, hpc, hword⟩ := (halted_iff s).1 hhalt
  refine ⟨?_, (halted_iff _).2 ⟨⟨hfree, hbranch, hjump⟩, hpc, hword⟩⟩
  have hissue : issuePhase { s with started := true, cycle := s.cycle + 1, turn := .issue } = .next _ :=
    issuePhase_of_empty hpc hword
  rw [step_of_unfaulted hfault, runCycle, beginCycle_of_free hfree, hissue, andThen_next]
  exact finishCycle_of_free hfree

/-! ## The recovery machine (R198) -/

/-- The table of R198 in the two flags. -/
theorem recoveryStep_iff (s t : State) : recoveryStep s.recovery t.recovery = true ↔
    (s.jumpPending = true → t.branchPending = true → s.branchPending = true ∧ t.jumpPending = true) ∧
      (t.branchPending = true → t.jumpPending = true → s.branchPending = true ∨ s.jumpPending = true) := by
  unfold State.recovery
  cases s.branchPending <;> cases s.jumpPending <;> cases t.branchPending <;> cases t.jumpPending <;> decide

/-- The flags only fall, and a pending jump does not fall while the branch stays pending. -/
structure FlagsFall (s u : State) : Prop where
  branch : u.branchPending = true → s.branchPending = true
  jump : u.jumpPending = true → s.jumpPending = true
  stays : s.jumpPending = true → u.branchPending = true → u.jumpPending = true

theorem FlagsFall.refl (s : State) : FlagsFall s s := ⟨id, id, fun h _ => h⟩

theorem FlagsFall.trans {s u v : State} (h : FlagsFall s u) (h' : FlagsFall u v) : FlagsFall s v :=
  ⟨h.branch ∘ h'.branch, h.jump ∘ h'.jump, fun hj hb => h'.stays (h.stays hj (h'.branch hb)) hb⟩

/-- A jump in flight behind a pending branch is blocked by it, under both policies (R190, R197). -/
theorem blocked_of_jump {s : State} (hs : EngineCoherent s) (hb : s.branchPending = true) {k : Nat} {S : Station}
    {o : OpCode} (hS : s.holds k S) (hbusy : S.busy = true) (hop : S.op = some o) (hjump : isJump o = true) :
    blocked s k S = true := by
  obtain ⟨b, hpend⟩ := Option.isSome_iff_exists.1 (hs.flags.1.trans hb)
  obtain ⟨B, hB, -, hBop⟩ := hs.branch.held b hpend
  unfold blocked
  split
  next =>
    rw [State.holds] at hB
    simp [speculative, hb, hpend, hB, hs.jump.after b B k S o hpend hB hS hbusy hop hjump]
  next =>
    have hne : b ≠ k := by
      rintro rfl
      rw [holds_unique hB hS, hop] at hBop
      rw [Option.some.inj hBop] at hjump
      cases hjump
    simp [hb, hpend, hne]

theorem flagsFall_of_executes {i : Instr} {k : Nat} {S : Station} {s u : State} (hs : EngineCoherent s)
    (hS : s.holds k S) (hb : S.busy = true) (hblock : blocked s k S = false) (hi : S.instr = some i)
    (hex : Executes i k S s u) : FlagsFall s u := by
  cases execute_effect hS hex with
  | stay _ hflags | store _ _ _ hflags =>
    obtain ⟨hbranch, -, -, hjump, -⟩ := hflags
    exact ⟨hbranch ▸ id, hjump ▸ id, fun h _ => hjump.trans h⟩
  | jump hjump _ _ hflags =>
    obtain ⟨hbranch, -, -, hnone, -⟩ := hflags
    refine ⟨hbranch ▸ id, fun h => absurd h (by simp [hnone]), fun _ h => ?_⟩
    rw [hbranch] at h
    rw [blocked_of_jump hs h hS hb (op_of_coherent hs.stations hS hb hi) hjump] at hblock
    cases hblock
  | notTaken _ _ _ hflags =>
    obtain ⟨hbranch, -, -, hjump, -⟩ := hflags
    exact ⟨fun h => absurd h (by simp [hbranch]), hjump ▸ id, fun _ h => absurd h (by simp [hbranch])⟩
  | taken _ _ _ _ hflags =>
    obtain ⟨hbranch, -, -, hnone, -⟩ := hflags
    exact ⟨fun h => absurd h (by simp [hbranch]), fun h => absurd h (by simp [hnone]),
      fun _ h => absurd h (by simp [hbranch])⟩

theorem flagsFall_executePhase {s u : State} (hs : EngineCoherent s) (h : executePhase s = .next u) :
    FlagsFall s u := by
  have hall : EngineCoherent u ∧ FlagsFall s u := by
    refine visitAll_induct (P := fun u => EngineCoherent u ∧ FlagsFall s u) ?_ h ⟨hs, .refl s⟩
    intro q k u v ⟨hcoh, hfall⟩ hvisit
    refine ⟨engineCoherent_visit hcoh hvisit, ?_⟩
    obtain rfl | ⟨S, i, hS, hb, -, hblock, hi, hex⟩ := visit_executes hvisit
    · exact hfall
    · obtain ⟨hbranch, hjump, hstays⟩ :=
        flagsFall_of_executes (engineCoherent_withTurn hcoh .issue) hS hb hblock hi hex
      exact hfall.trans ⟨hbranch, hjump, hstays⟩
  exact hall.2

theorem flags_writeback (s : State) :
    (writeback s).branchPending = s.branchPending ∧ (writeback s).jumpPending = s.jumpPending := by
  obtain h | ⟨b, -, h⟩ := writeback_cases s <;> rw [h] <;> exact ⟨rfl, rfl⟩

/-- Settles O47: Issue raises at most one flag, and only with no jump pending; after it the flags only fall. -/
theorem recoveryMachineTransitions : Obligations.RecoveryMachineTransitions := by
  intro s t hs h
  obtain ⟨-, u, v, hu, hv, rfl⟩ := step_next h
  have hbegin := engineCoherent_begin hs
  have hfall := flagsFall_executePhase (engineCoherent_issuePhase hbegin rfl hu) hv
  rw [recoveryStep_iff]
  obtain ⟨hb, hj⟩ := flags_writeback v
  rw [hb, hj]
  -- The issue of nothing leaves the flags to Execute.
  have still : u = beginCycle s →
      (s.jumpPending = true → v.branchPending = true → s.branchPending = true ∧ v.jumpPending = true) ∧
      (v.branchPending = true → v.jumpPending = true → s.branchPending = true ∨ s.jumpPending = true) := by
    rintro rfl
    exact ⟨fun hj hb => ⟨hfall.branch hb, hfall.stays hj hb⟩, fun hb _ => .inl (hfall.branch hb)⟩
  obtain rfl | ⟨i, hnone, -, hx⟩ := issuePhase_cases hu
  · exact still rfl
  · obtain rfl | ⟨k, S, -, rfl, -⟩ := exec_issue_cases rfl hx
    · exact still rfl
    · rw [beginCycle_jumpPending] at hnone
      refine ⟨fun h => absurd h (by simp [hnone]), fun hb hj => .inl ?_⟩
      have hjump := hfall.jump hj
      have hbranch := hfall.branch hb
      rw [issuedInto_jumpPending, beginCycle_jumpPending, hnone, Bool.or_false] at hjump
      have hbeq : i.opcode ≠ .beq := fun h => by
        rw [h] at hjump
        cases hjump
      rw [issuedInto_branchPending, decide_eq_false hbeq, Bool.false_or] at hbranch
      exact hbranch

/-! ## A branch that waits (R249) -/

/-- A waiting station is not ready. -/
theorem ready_of_waits {s : State} {b : Nat} {B : Station} (h : BranchWaits s b B) : B.ready = false := by
  obtain ⟨-, -, -, hj | hk⟩ := h
  · simp [Station.ready, Option.isNone_eq_false_iff.2 hj]
  · simp [Station.ready, Option.isNone_eq_false_iff.2 hk]

theorem branchPending_of_waits {s : State} (hs : EngineCoherent s) {b : Nat} {B : Station} (h : BranchWaits s b B) :
    s.branchPending = true := by
  rw [← hs.flags.1, h.1]
  rfl

/-- No other part touches the waiting station: the one BEQ in flight is the waiting one, and a jump is blocked. -/
theorem waits_of_executes {i : Instr} {k : Nat} {S : Station} {s u : State} (hs : EngineCoherent s) {b : Nat}
    {B : Station} (hwait : BranchWaits s b B) (hS : s.holds k S) (hb : S.busy = true) (hready : S.ready = true)
    (hblock : blocked s k S = false) (hi : S.instr = some i) (hex : Executes i k S s u) :
    BranchWaits u b B ∧ u.reg = s.reg := by
  have hop := op_of_coherent hs.stations hS hb hi
  obtain ⟨hpend, hB, hbB, hq⟩ := id hwait
  have hk : k ≠ b := by
    rintro rfl
    rw [holds_unique hS hB, ready_of_waits hwait] at hready
    cases hready
  have hbeq : i.opcode ≠ .beq := by
    intro hbeq
    have heq := hs.branch.only k S hS hb (hop.trans (congrArg some hbeq))
    rw [hpend] at heq
    exact hk (Option.some.inj heq).symm
  have hcall : i.opcode ≠ .call := by
    intro hcall
    rw [blocked_of_jump hs (branchPending_of_waits hs hwait) hS hb hop (by rw [hcall]; rfl)] at hblock
    cases hblock
  obtain ⟨-, -, -, -, -, hpending, -⟩ := branchState_of_executes hex hbeq
  refine ⟨⟨hpending.trans hpend, (stations_of_executes_ne hex hbeq hk.symm).trans hB, hbB, hq⟩, ?_⟩
  exact (reg_of_executes hex).resolve_right fun h => hcall h.1

theorem waits_step {s t : State} (hs : EngineCoherent s) {b : Nat} {B : Station} (hwait : BranchWaits s b B)
    (h : step s = .next t) : EngineCoherent t ∧ BranchWaits t b B ∧ t.reg = s.reg := by
  refine step_induct_of_turn (P := fun u => EngineCoherent u ∧ BranchWaits u b B ∧ u.reg = s.reg)
    ?turns ?begins ?issues ?executes ?broadcasts h ⟨hs, hwait, rfl⟩
  case turns => exact fun u ⟨hu, hwait, hreg⟩ => ⟨engineCoherent_withTurn hu _, hwait, hreg⟩
  case begins =>
    intro u ⟨hu, hwait, hreg⟩
    obtain ⟨hpend, hB, hbB, hq⟩ := id hwait
    have hadv : B.advanced = B := by simp [Station.advanced, Station.counts, ready_of_waits hwait]
    exact ⟨engineCoherent_begin hu, ⟨hpend, (beginCycle_holds b B).2 ⟨B, hB, hadv.symm⟩, hbB, hq⟩, hreg⟩
  case issues =>
    intro u i k S ⟨hu, hwait, hreg⟩ hj hfree hbeq
    obtain ⟨hpend, hB, hbB, hq⟩ := id hwait
    have hne : i.opcode ≠ .beq := fun h => by
      have hopen := hbeq h
      rw [branchPending_of_waits hu hwait] at hopen
      cases hopen
    refine ⟨engineCoherent_issuedInto hu hfree hj hbeq, ⟨?_, issuedInto_holds_busy hfree hB hbB, hbB, hq⟩, ?_⟩
    · rw [issuedInto_pendingBranch, if_neg hne, hpend]
    · rw [issuedInto_reg, hreg]
  case executes =>
    intro u i k S v ⟨hu, hwait, hreg⟩ hS hb hready hblock hi hex
    obtain ⟨hwait', hreg'⟩ := waits_of_executes hu hwait hS hb hready hblock hi hex
    exact ⟨engineCoherent_of_executes hu hS hb hi hex, hwait', hreg'.trans hreg⟩
  case broadcasts =>
    intro u c ⟨hu, hwait, _⟩ hc
    obtain ⟨hnone, -⟩ := cdb_some hc
    rw [branchPending_of_waits hu hwait] at hnone
    cases hnone

/-- Settles O49: each step keeps the branch waiting, so any number of them does. -/
theorem waitingBranchNeverResolves : Obligations.WaitingBranchNeverResolves := by
  intro n
  induction n with
  | zero =>
    intro s t b B hs hwait h
    obtain rfl : s = t := by simpa [stepN] using h
    exact ⟨branchPending_of_waits hs hwait, hwait, rfl⟩
  | succ n ih =>
    intro s t b B hs hwait h
    obtain ⟨u, hu, h⟩ := andThen_eq_next.1 h
    obtain ⟨hu', hwait', hreg⟩ := waits_step hs hwait hu
    obtain ⟨hpend, hwait'', hreg'⟩ := ih u t b B hu' hwait' h
    exact ⟨hpend, hwait'', hreg'.trans hreg⟩

end Sys2Proof.Proofs.WholeMachine

/-! SUPPORT. The Issue part, instruction by instruction: allocation (40_pipeline.md R118), operand capture (R120), and the
state that an issue leaves (R121 to R125). -/

namespace Sys2Proof.Proofs.IssueParts

open Machine

/-! ## Allocation (R118) -/

/-- The scan from index `n` finds the station `k` places on exactly when that is the first free one. -/
theorem firstFreeFrom_eq_some_iff {kind : UnitKind} {l : List Station} {n k : Nat} {S : Station} :
    firstFreeFrom kind n l = some (n + k, S) ↔
      l[k]? = some S ∧ freeOf kind S ∧ ∀ j T, j < k → l[j]? = some T → ¬ freeOf kind T := by
  induction l generalizing n k with
  | nil => simp [firstFreeFrom]
  | cons U rest ih =>
    unfold firstFreeFrom
    cases k with
    | zero =>
      split
      next hU =>
        simp only [Nat.add_zero, Option.some.injEq, Prod.mk.injEq, true_and, List.getElem?_cons_zero, Nat.not_lt_zero,
          false_implies, implies_true, and_true]
        exact ⟨fun h => ⟨h, h ▸ hU⟩, And.left⟩
      next hU =>
        constructor
        · intro h
          obtain ⟨hle, -⟩ := firstFreeFrom_some h
          omega
        · rintro ⟨hS, hfree, -⟩
          obtain rfl : U = S := by simpa using hS
          exact absurd hfree hU
    | succ k =>
      split
      next hU =>
        constructor
        · intro h
          have hn : n = n + (k + 1) := congrArg Prod.fst (Option.some.inj h)
          omega
        · rintro ⟨-, -, hfirst⟩
          exact absurd hU (hfirst 0 U (Nat.succ_pos k) rfl)
      next hU =>
        rw [show n + (k + 1) = n + 1 + k by omega, ih, List.getElem?_cons_succ]
        refine and_congr_right fun _ => and_congr_right fun _ => ⟨fun h j T hj hT => ?_, fun h j T hj hT => ?_⟩
        · cases j with
          | zero =>
            obtain rfl : U = T := by simpa using hT
            exact hU
          | succ j => exact h j T (by omega) (by simpa using hT)
        · exact h (j + 1) T (by omega) (by simpa using hT)

theorem firstFreeFrom_eq_none_iff {kind : UnitKind} {l : List Station} {n : Nat} :
    firstFreeFrom kind n l = none ↔ ∀ S ∈ l, ¬ freeOf kind S := by
  induction l generalizing n with
  | nil => simp [firstFreeFrom]
  | cons U rest ih =>
    rw [List.forall_mem_cons, firstFreeFrom]
    split
    next hU => simp [hU]
    next hU => rw [ih]; exact ⟨fun h => ⟨hU, h⟩, And.right⟩

/-- Settles O9: `firstFree` scans the list from its start. -/
theorem allocationTakesTheFirstFreeStation : Obligations.AllocationTakesTheFirstFreeStation := by
  intro kind s
  refine ⟨fun k S => ?_, firstFreeFrom_eq_none_iff⟩
  have h := firstFreeFrom_eq_some_iff (kind := kind) (l := s.stations) (n := 0) (k := k) (S := S)
  rwa [Nat.zero_add] at h

/-! ## Capture (R120) -/

theorem capture_of_committed {s : State} {r : RegIdx} (h : s.status r = none) :
    capture s r = (some (s.readReg r), none) := by
  rw [capture, h]

theorem capture_of_renamed {s : State} {r : RegIdx} {p : Nat} (h : s.status r = some p) :
    capture s r = (none, some p) := by
  rw [capture, h]

/-- Settles O10: `capture` splits on the status entry, and R0 reads 0. -/
theorem captureTakesValueOrTag : Obligations.CaptureTakesValueOrTag := fun _ _ =>
  ⟨capture_of_committed, fun _ => capture_of_renamed, capture_of_committed⟩

/-! ## The checks before allocation, and the issue itself (R118, R125, R191, R202) -/

/-- An instruction passes its checks before allocation: a BEQ while no branch is pending, a RET unless the link policy
finds a pending writer of R1. -/
def PassesChecks (i : Instr) (s : State) : Prop :=
  (i.opcode = .beq → s.branchPending = false) ∧
    (i = .ret → s.params.retLinkPolicy = .readFile ∨ s.status 1 = none)

/-- Past its checks, an instruction's Issue part is `issueWith` of its own fill and flags. -/
theorem exec_issue_eq_issueWith {i : Instr} {s : State} (hturn : s.turn = .issue) (h : PassesChecks i s) :
    exec i s = issueWith i (issueFill i s) (issueFlag i) s := by
  obtain ⟨hbeq, hret⟩ := h
  cases i with
  | load | store | call | add | sub | nor | mul =>
    simp only [exec, execLoad, execStore, execCall, execAdd, execSub, execNor, execMul, hturn]
    rfl
  | beq =>
    simp only [exec, execBeq, hturn, hbeq rfl]
    rfl
  | ret =>
    have hlink : ¬ (s.params.retLinkPolicy = .faultIfPending ∧ s.status 1 ≠ none) := by
      rintro ⟨hpolicy, hstat⟩
      obtain h | h := hret rfl
      · rw [hpolicy] at h
        cases h
      · exact hstat h
    simp only [exec, execRet, hturn, if_neg hlink]
    rfl

/-- An instruction past its checks that finds a free station issues into it. -/
theorem exec_issue_eq {i : Instr} {s : State} {k : Nat} {S : Station} (hturn : s.turn = .issue)
    (h : PassesChecks i s) (hfree : firstFree (unitKind i.opcode) s.stations = some (k, S)) :
    exec i s = .next (issuedInto i k S s) := by
  rw [exec_issue_eq_issueWith hturn h, issueWith, hfree]
  rfl

/-- An instruction past its checks that finds none stalls (R119). -/
theorem exec_issue_stall {i : Instr} {s : State} (hturn : s.turn = .issue) (h : PassesChecks i s)
    (hfree : firstFree (unitKind i.opcode) s.stations = none) : exec i s = .next s := by
  rw [exec_issue_eq_issueWith hturn h, issueWith, hfree]

/-! ## The obligations -/

/-- Settles O12: `issuedInto` written out for the four ALU instructions. -/
theorem aluIssueCapturesAndRenames : Obligations.AluIssueCapturesAndRenames := by
  intro i rA rB rC s k S hfields hturn hfree
  cases i with
  | add | sub | nor | mul =>
    cases hfields
    exact exec_issue_eq hturn ⟨nofun, nofun⟩ hfree
  | load | store | beq | call | ret => cases hfields

/-- Settles O13: `issuedInto` written out for LOAD and STORE. -/
theorem loadAndStoreIssueCaptureOperands : Obligations.LoadAndStoreIssueCaptureOperands :=
  ⟨fun rA rB o _ _ _ hturn hfree =>
      exec_issue_eq (i := .load rA rB o) hturn ⟨nofun, nofun⟩ hfree,
    fun rA rB o _ _ _ hturn hfree =>
      exec_issue_eq (i := .store rA rB o) hturn ⟨nofun, nofun⟩ hfree⟩

/-- Settles O14: `issuedInto` written out for a BEQ, which does not count itself as issued after a branch. -/
theorem beqIssueOpensTheBranch : Obligations.BeqIssueOpensTheBranch := by
  intro rA rB o s k S hturn hpend hfree
  rw [exec_issue_eq (i := .beq rA rB o) hturn ⟨fun _ => hpend, nofun⟩ hfree, issuedInto, hpend]
  rfl

/-- The target of a CALL by mode (R199). -/
theorem callTarget_eq (s : State) (l : Int) :
    callTarget s l = if s.params.callTargetMode = .absolute then l else s.pc + 1 + l := by
  rw [callTarget]
  cases s.params.callTargetMode <;> rfl

/-- Settles O15: `issuedInto` written out for CALL, by target mode, and for RET. -/
theorem callAndRetIssueSetTheTarget : Obligations.CallAndRetIssueSetTheTarget := by
  refine ⟨fun l s k S hturn hfree => ?_, fun s k S hturn hpolicy hfree => ?_⟩
  · rw [exec_issue_eq (i := .call l) hturn ⟨nofun, nofun⟩ hfree, ← callTarget_eq s l]
    rfl
  · exact exec_issue_eq (i := .ret) hturn ⟨nofun, fun _ => hpolicy⟩ hfree

/-- Settles O16: past the checks only the lack of a station stalls; the two checks that can fail are read off `exec`. -/
theorem issueChecksThenStallsWithoutStation : Obligations.IssueChecksThenStallsWithoutStation := by
  refine ⟨fun i s hturn hfree hbeq hret => exec_issue_stall hturn ⟨hbeq, hret⟩ hfree,
    fun rA rB o s hturn hpend => ⟨fun hpolicy => ?_, fun hpolicy => ?_⟩, fun s p hturn hstat hpolicy => ?_⟩
  · simp [exec, execBeq, hturn, hpend, hpolicy]
  · simp [exec, execBeq, hturn, hpend, hpolicy, raise]
  · simp [exec, execRet, hturn, hstat, hpolicy, raise]

end Sys2Proof.Proofs.IssueParts

/-! SUPPORT. The Execute part, instruction by instruction (41_memory_instructions.md, 42_alu_instructions.md,
43_control_instructions.md): for each completion, one equation per case. -/

namespace Sys2Proof.Proofs.ExecuteParts

open Machine Stops Frames Phases

/-! ## ADD, SUB, NOR, MUL (R170, R175) -/

/-- The Execute part of an ALU instruction is `completeAlu` with its 16-bit result. -/
theorem exec_alu_eq {i : Instr} {s : State} {k : Nat} (halu : (aluFields i).isSome = true)
    (hturn : s.turn = .execute k) : exec i s = completeAlu i (aluResult i) k s := by
  cases i with
  | add => simp only [exec, execAdd, hturn]; exact congrArg (completeAlu _ · k s) (funext₂ aluAdd_eq)
  | sub => simp only [exec, execSub, hturn]; exact congrArg (completeAlu _ · k s) (funext₂ aluSub_eq)
  | nor => simp only [exec, execNor, hturn]; exact congrArg (completeAlu _ · k s) (funext₂ aluNor_eq)
  | mul => simp only [exec, execMul, hturn]; exact congrArg (completeAlu _ · k s) (funext₂ aluMul_eq)
  | load | store | beq | call | ret => cases halu

section Alu

variable {i : Instr} {f : Word → Word → Word} {k : Nat} {s : State} {S : Station} (hS : s.holds k S)

include hS

theorem completeAlu_of_due {x y : Word} (hresult : S.result = none) (hdue : S.cyclesPassed = S.desc.cyclesNeeded)
    (hx : S.vj = some x) (hy : S.vk = some y) :
    completeAlu i f k s = .next ((s.setStation k { S with result := some (f x y) }).logExecuted k S i) := by
  rw [completeAlu, onStation_of_holds hS, if_pos ⟨hresult, hdue⟩, hx, hy]

theorem completeAlu_of_not_due (h : ¬ (S.result = none ∧ S.cyclesPassed = S.desc.cyclesNeeded)) :
    completeAlu i f k s = .next s := by
  rw [completeAlu, onStation_of_holds hS, if_neg h]

end Alu

/-- Settles O17: the due case of `completeAlu`. -/
theorem aluCompletesWithItsResult : Obligations.AluCompletesWithItsResult := by
  intro i s k S x y halu hturn hS hresult hdue hx hy
  rw [exec_alu_eq halu hturn, completeAlu_of_due hS hresult hdue hx hy]
  rfl

/-! ## LOAD and STORE (R150 to R156) -/

/-- The address phase changes `A` and `addrReady` only. -/
theorem addressed_fields {S : Station} {base : Word} (hbase : S.vj = some base) :
    (addressed S base).desc = S.desc ∧ (addressed S base).seq = S.seq ∧ (addressed S base).result = S.result ∧
      (addressed S base).cyclesPassed = S.cyclesPassed ∧ (addressed S base).vk = S.vk := by
  obtain ⟨hdesc, -, -, -, hseq, hresult, hcycles, -, hvk, -⟩ := addressPhase_fields (addressPhase_eq hbase)
  exact ⟨hdesc, hseq, hresult, hcycles, hvk⟩

section Access

variable {i : Instr} {k : Nat} {s : State} {S : Station} {base : Word} (hS : s.holds k S) (hbase : S.vj = some base)

include hS hbase

theorem completeLoad_of_not_due (h : ¬ (S.result = none ∧ S.cyclesPassed = S.desc.cyclesNeeded)) :
    completeLoad i k s = .next (s.setStation k (addressed S base)) := by
  obtain ⟨hdesc, -, hresult, hcycles, -⟩ := addressed_fields hbase
  rw [completeLoad, onStation_of_holds hS, addressPhase_eq hbase]
  dsimp only
  rw [if_neg (by rwa [hresult, hcycles, hdesc])]

theorem completeLoad_of_conflict
    (h : OlderConflict (s.setStation k (addressed S base)) (addressed S base) [.store]) :
    completeLoad i k s = .next (s.setStation k (addressed S base)) := by
  rw [completeLoad, onStation_of_holds hS, addressPhase_eq hbase]
  dsimp only
  split
  next => rw [if_pos ((olderConflict_iff ..).2 h)]
  next => rfl

/-- A LOAD due and free of hazards takes the word read, or faults as the read does. -/
theorem completeLoad_of_free (hresult : S.result = none) (hdue : S.cyclesPassed = S.desc.cyclesNeeded)
    (h : ¬ OlderConflict (s.setStation k (addressed S base)) (addressed S base) [.store]) :
    (∀ w, memRead s.mem (accessAddress S base) = .ok w →
      completeLoad i k s = .next (((s.setStation k (addressed S base)).setStation k
        { addressed S base with result := some w }).logExecuted k (addressed S base) i)) ∧
    (∀ f, memRead s.mem (accessAddress S base) = .error f → completeLoad i k s = .fault f) := by
  obtain ⟨hdesc, -, hresult', hcycles, -⟩ := addressed_fields hbase
  rw [completeLoad, onStation_of_holds hS, addressPhase_eq hbase]
  dsimp only
  rw [if_pos ⟨hresult'.trans hresult, by rwa [hcycles, hdesc]⟩, if_neg (mt (olderConflict_iff ..).1 h),
    setStation_mem, addressed_a]
  exact ⟨fun w hw => by rw [hw], fun f hf => by rw [hf]; rfl⟩

theorem completeStore_of_not_due (h : S.cyclesPassed ≠ S.desc.cyclesNeeded) :
    completeStore i k s = .next (s.setStation k (addressed S base)) := by
  obtain ⟨hdesc, -, -, hcycles, -⟩ := addressed_fields hbase
  rw [completeStore, onStation_of_holds hS, addressPhase_eq hbase]
  dsimp only
  rw [if_neg (by rwa [hcycles, hdesc])]

theorem completeStore_of_conflict
    (h : OlderConflict (s.setStation k (addressed S base)) (addressed S base) [.load, .store]) :
    completeStore i k s = .next (s.setStation k (addressed S base)) := by
  rw [completeStore, onStation_of_holds hS, addressPhase_eq hbase]
  dsimp only
  split
  next => rw [if_pos ((olderConflict_iff ..).2 h)]
  next => rfl

/-- A STORE due and free of hazards leaves the memory written, or faults as the write does. -/
theorem completeStore_of_free {v : Word} (hv : S.vk = some v) (hdue : S.cyclesPassed = S.desc.cyclesNeeded)
    (h : ¬ OlderConflict (s.setStation k (addressed S base)) (addressed S base) [.load, .store]) :
    (∀ m, memWrite s.mem (accessAddress S base) v = .ok m →
      completeStore i k s = .next ((({ s.setStation k (addressed S base) with mem := m }).logCompleted k
        (addressed S base) i).release k (addressed S base))) ∧
    (∀ f, memWrite s.mem (accessAddress S base) v = .error f → completeStore i k s = .fault f) := by
  obtain ⟨hdesc, -, -, hcycles, hvk⟩ := addressed_fields hbase
  rw [completeStore, onStation_of_holds hS, addressPhase_eq hbase]
  dsimp only
  rw [if_pos (by rwa [hcycles, hdesc]), if_neg (mt (olderConflict_iff ..).1 h), hvk, hv, setStation_mem, addressed_a]
  dsimp only
  exact ⟨fun m hm => by rw [hm], fun f hf => by rw [hf]; rfl⟩

end Access

theorem exec_load_eq {rA rB : RegIdx} {o : Int} {s : State} {k : Nat} (hturn : s.turn = .execute k) :
    exec (.load rA rB o) s = completeLoad (.load rA rB o) k s := by
  simp only [exec, execLoad, hturn]

theorem exec_store_eq {rA rB : RegIdx} {o : Int} {s : State} {k : Nat} (hturn : s.turn = .execute k) :
    exec (.store rA rB o) s = completeStore (.store rA rB o) k s := by
  simp only [exec, execStore, hturn]

theorem memRead_of_inBounds (m : Memory) {a : Int} (h : inBounds a = true) : memRead m a = .ok (m.get a.toNat) := by
  rw [memRead, if_pos h]

theorem memWrite_of_inBounds (m : Memory) {a : Int} (v : Word) (h : inBounds a = true) :
    memWrite m a v = .ok (m.set a.toNat v) := by
  rw [memWrite, if_pos h]

/-- Settles O19: the read of `completeLoad_of_free`, inside memory. -/
theorem loadReadsItsEffectiveAddress : Obligations.LoadReadsItsEffectiveAddress := by
  intro rA rB o s k S base hturn hS hbase hresult hdue hfree hin
  obtain ⟨-, hseq, -⟩ := addressed_fields hbase
  rw [exec_load_eq hturn, (completeLoad_of_free hS hbase hresult hdue hfree).1 _ (memRead_of_inBounds _ hin)]
  simp only [State.setStation, State.logExecuted, State.entryOf, List.set_set, hseq]

/-- Settles O20: the write of `completeStore_of_free`, inside memory. -/
theorem storeWritesItsEffectiveAddress : Obligations.StoreWritesItsEffectiveAddress := by
  intro rA rB o s k S base v hcanon hturn hS hbase hv hdue hfree hin
  obtain ⟨hdesc, hseq, -⟩ := addressed_fields hbase
  obtain ⟨h0, h1⟩ := inBounds_iff.1 hin
  refine ⟨s.mem.set (accessAddress S base).toNat v, ?_, Memory.wf_set (by omega) hcanon, fun a => ?_⟩
  · rw [exec_store_eq hturn, (completeStore_of_free hS hbase hv hdue hfree).1 _ (memWrite_of_inBounds _ v hin)]
    simp only [State.setStation, State.logCompleted, State.entryOf, State.release, List.set_set, hdesc, hseq]
  · rw [Memory.get_set hcanon]
    exact if_congr (by omega) rfl rfl

/-- Settles O21: the hazard cases of the two completions; before the access is due the same state is left. -/
theorem accessStallsBehindOlderConflict : Obligations.AccessStallsBehindOlderConflict := by
  intro rA rB o s k S base hturn hS hbase
  rw [exec_load_eq hturn, exec_store_eq hturn]
  exact ⟨completeLoad_of_conflict hS hbase, completeStore_of_conflict hS hbase⟩

/-- Settles O22: the two accesses outside memory. -/
theorem accessOutsideMemoryFaults : Obligations.AccessOutsideMemoryFaults := by
  intro rA rB o s k S base hturn hS hbase hdue hout
  refine ⟨fun hresult hfree => ?_, fun v hv hfree => ?_⟩
  · rw [exec_load_eq hturn, (completeLoad_of_free hS hbase hresult hdue hfree).2 _ (memRead_error hout)]
  · rw [exec_store_eq hturn, (completeStore_of_free hS hbase hv hdue hfree).2 _ (memWrite_error hout)]

/-! ## BEQ (R191 to R197) -/

/-- The registers in ascending order, by position. -/
theorem allRegs_getElem (r : RegIdx) (h : r.val < allRegs.length) : allRegs[r.val] = r := by
  fin_cases r <;> rfl

/-- The first register of the list with a property is the lowest one. -/
theorem find?_allRegs_eq_some {p : RegIdx → Bool} {r : RegIdx} (hr : p r = true) (hlow : ∀ q, q < r → p q = false) :
    allRegs.find? p = some r := by
  have hlt : ∀ {j}, j ≤ r.val → j < allRegs.length := fun h => h.trans_lt r.isLt
  refine List.find?_eq_some_iff_getElem.2 ⟨hr, r.val, hlt le_rfl, allRegs_getElem r _, fun j hj => ?_⟩
  rw [allRegs_getElem ⟨j, hj.trans r.isLt⟩ (hlt hj.le), hlow _ hj]
  rfl

/-- A status entry is stale when it names a station that the squash releases (R196). -/
theorem namesSquashed_iff (s : State) (B : Station) (q : Option Nat) :
    namesSquashed s B q = true ↔ ∃ p T, q = some p ∧ s.holds p T ∧ T.busy = true ∧ B.seq < T.seq := by
  unfold namesSquashed
  cases q with
  | none => simp
  | some p =>
    cases hT : s.stations[p]? with
    | none => simp [State.holds, hT]
    | some T => simp [State.holds, hT, issuedAfter]

/-- With no stale entry, or under another policy, the squash goes on with the table that the policy names (R196). -/
theorem squashRegStat_eq {s : State} {k : Nat} {B : Station} {c : RegStat} (hc : s.checkpoint = some c)
    (hstale : s.params.squashRegStatPolicy = .fault → ∀ r, namesSquashed s B (s.status r) = false)
    (f : RegStat → Result State Fault Refusal) :
    squashRegStat s k B f = f (if s.params.squashRegStatPolicy = .restore then c else s.regStat) := by
  unfold squashRegStat
  split
  next hp => rw [hc, hp, if_pos rfl]
  next hp => rw [hp, if_neg (by decide)]
  next hp =>
    have hnone : lowestStale s B = none := by
      rw [lowestStale, List.find?_eq_none]
      exact fun r _ => by simp [hstale hp r]
    rw [hnone, hp, if_neg (by decide)]

theorem exec_beq_eq {rA rB : RegIdx} {o : Int} {s : State} {k : Nat} (hturn : s.turn = .execute k) :
    exec (.beq rA rB o) s = completeBeq (.beq rA rB o) k s := by
  simp only [exec, execBeq, hturn]

section Beq

variable {i : Instr} {k : Nat} {s : State} {B : Station} (hB : s.holds k B)
  (hdue : B.cyclesPassed = B.desc.cyclesNeeded)

include hB hdue

theorem completeBeq_of_eq {x : Word} (hx : B.vj = some x) (hy : B.vk = some x) :
    completeBeq i k s = andThen (branchTaken (s.logCompleted k B i) k B) fun t => .next (t.release k B) := by
  rw [completeBeq, onStation_of_holds hB, if_pos hdue, hx, hy]
  exact if_pos rfl

theorem completeBeq_of_ne {x y : Word} (hx : B.vj = some x) (hy : B.vk = some y) (hne : x ≠ y) :
    completeBeq i k s = .next ((branchNotTaken (s.logCompleted k B i) B).release k B) := by
  rw [completeBeq, onStation_of_holds hB, if_pos hdue, hx, hy]
  exact if_neg hne

end Beq

/-- The state that a taken BEQ leaves, before the release of its own station (R192). -/
def takenState (s : State) (B : Station) (table : RegStat) : State :=
  { s.closeBranch with
    pc := branchTarget B
    mispredictions := s.mispredictions + 1
    issued := truncatedIssued B s.issued
    issuedAfterBranch := 0
    regStat := table
    stations := squashed B s.stations
    jumpPending := false }

theorem branchTaken_eq {s : State} {k : Nat} {B : Station} {c : RegStat} (hc : s.checkpoint = some c)
    (hstale : s.params.squashRegStatPolicy = .fault → ∀ r, namesSquashed s B (s.status r) = false) :
    branchTaken s k B =
      .next (takenState s B (if s.params.squashRegStatPolicy = .restore then c else s.regStat)) := by
  rw [branchTaken, squashRegStat_eq hc hstale]
  rfl

/-- Every other station after a squash (R195). -/
theorem getElem?_squashed_set {s : State} {k j : Nat} {B X T : Station} (hj : j ≠ k) (hT : s.holds j T) :
    ((squashed B s.stations).set k X)[j]? =
      some (if T.busy = true ∧ B.seq < T.seq then Station.released T.desc else T) := by
  rw [State.holds] at hT
  simp [List.getElem?_set_ne hj.symm, squashed, hT, issuedAfter]

/-- Settles O23: the state of `takenState`, with the BEQ's own station released. -/
theorem takenBeqRedirectsAndSquashes : Obligations.TakenBeqRedirectsAndSquashes := by
  intro rA rB o s k B x c hturn hB hdue hx hy hc hstale
  have hfresh : s.params.squashRegStatPolicy = .fault → ∀ r, namesSquashed s B (s.status r) = false := by
    intro hp r
    by_contra h
    obtain ⟨p, T, hr, hT, hyoung⟩ := (namesSquashed_iff s B _).1 (by simpa using h)
    exact hstale hp r p T hr hT hyoung
  have hlt := holds_lt hB
  refine ⟨State.release (takenState (s.logCompleted k B (.beq rA rB o)) B
    (if s.params.squashRegStatPolicy = .restore then c else s.regStat)) k B, ?_, rfl, rfl, rfl, rfl, rfl, rfl, rfl, rfl,
    rfl, rfl, rfl, ?_, fun j T hj hT => getElem?_squashed_set hj hT, ?_, fun _ => rfl, fun _ => rfl, rfl, rfl⟩
  · rw [exec_beq_eq hturn, completeBeq_of_eq hB hdue hx hy,
      branchTaken_eq (s := s.logCompleted k B (.beq rA rB o)) hc hfresh]
    rfl
  · simp [State.holds, takenState, squashed, hlt]
  · simp [takenState, squashed]

/-- Settles O24: the search for a stale entry goes by ascending register. -/
theorem takenBeqFaultsOnStaleTag : Obligations.TakenBeqFaultsOnStaleTag := by
  intro rA rB o s k B x r p T hturn hB hdue hx hy hpolicy hr hT hbusy hyoung hlow
  have hlowest : lowestStale s B = some r := by
    refine find?_allRegs_eq_some ((namesSquashed_iff s B _).2 ⟨p, T, hr, hT, hbusy, hyoung⟩) fun q hq => ?_
    by_contra h
    obtain ⟨p', T', hr', hT', hyoung'⟩ := (namesSquashed_iff s B _).1 (by simpa using h)
    exact hlow q p' T' hq hr' hT' hyoung'
  have htaken : branchTaken (s.logCompleted k B (.beq rA rB o)) k B = .fault (.squashStaleTag r) := by
    rw [branchTaken, squashRegStat, logCompleted_params, hpolicy]
    simp only [show lowestStale (s.logCompleted k B (.beq rA rB o)) B = some r from hlowest]
    rfl
  rw [exec_beq_eq hturn, completeBeq_of_eq hB hdue hx hy, htaken, andThen_fault]

/-- Settles O25: `branchNotTaken` by policy. -/
theorem notTakenBeqClosesTheBranch : Obligations.NotTakenBeqClosesTheBranch := by
  intro rA rB o s k B x y hturn hB hdue hx hy hne
  rw [exec_beq_eq hturn, completeBeq_of_ne hB hdue hx hy hne, branchNotTaken, logCompleted_params]
  cases s.params.notTakenPcPolicy <;> rfl

/-! ## CALL and RET (R199 to R203) -/

theorem exec_call_eq {l : Int} {s : State} {k : Nat} (hturn : s.turn = .execute k) :
    exec (.call l) s = completeCall (.call l) k s := by
  simp only [exec, execCall, hturn]

theorem exec_ret_eq {s : State} {k : Nat} (hturn : s.turn = .execute k) : exec .ret s = completeRet .ret k s := by
  simp only [exec, execRet, hturn]

/-- Reduction modulo 2^16, as a number (R16). -/
theorem toNat_bv16 (n : Int) : ((bv16 n).toNat : Int) = n % 65536 := by
  rw [bv16, BitVec.toNat_ofInt, Int.toNat_of_nonneg (Int.emod_nonneg _ (by decide))]
  rfl

/-- Settles O26: the link is written to R1 of the register file. -/
theorem callLinksAndJumps : Obligations.CallLinksAndJumps := by
  intro l s k S hturn hS hdue
  refine ⟨s.reg.set 1 (bv16 (S.originalPC + 1)), ?_, ?_, fun r hr => Bank.get_set_ne _ _ hr⟩
  · rw [exec_call_eq hturn, completeCall, onStation_of_holds hS, if_pos hdue]
    rfl
  · rw [Bank.get_set_self, toNat_bv16]

/-- Settles O27: the due case of `completeRet`. -/
theorem retJumpsToItsTarget : Obligations.RetJumpsToItsTarget := by
  intro s k S hturn hS hdue
  rw [exec_ret_eq hturn, completeRet, onStation_of_holds hS, if_pos hdue]
  rfl

/-! ## Before the threshold (R127, R128) -/

/-- Below its threshold an instruction without an address phase does nothing. -/
theorem exec_of_not_due {i : Instr} {s : State} {k : Nat} {S : Station} (hturn : s.turn = .execute k)
    (hS : s.holds k S) (hload : i.opcode ≠ .load) (hstore : i.opcode ≠ .store)
    (h : S.cyclesPassed ≠ S.desc.cyclesNeeded) : exec i s = .next s := by
  cases i with
  | load => exact absurd rfl hload
  | store => exact absurd rfl hstore
  | beq => rw [exec_beq_eq hturn, completeBeq, onStation_of_holds hS, if_neg h]
  | call => rw [exec_call_eq hturn, completeCall, onStation_of_holds hS, if_neg h]
  | ret => rw [exec_ret_eq hturn, completeRet, onStation_of_holds hS, if_neg h]
  | add | sub | nor | mul =>
    rw [exec_alu_eq rfl hturn, completeAlu_of_not_due hS fun hdue => h hdue.2]

/-- Settles O18: the cases of the completions that are not due. -/
theorem executeWaitsUntilDue : Obligations.ExecuteWaitsUntilDue := by
  intro i s k S hturn hS
  refine ⟨exec_of_not_due hturn hS, fun halu hresult => ?_, fun base hbase hop h => ?_, fun base hbase hop hresult => ?_⟩
  · rw [exec_alu_eq halu hturn, completeAlu_of_not_due hS fun hdue => hresult hdue.1]
  · cases i with
    | load => rw [exec_load_eq hturn, completeLoad_of_not_due hS hbase fun hdue => h hdue.2]
    | store => rw [exec_store_eq hturn, completeStore_of_not_due hS hbase h]
    | beq | call | ret | add | sub | nor | mul => obtain hop | hop := hop <;> cases hop
  · cases i with
    | load => rw [exec_load_eq hturn, completeLoad_of_not_due hS hbase fun hdue => hresult hdue.1]
    | store | beq | call | ret | add | sub | nor | mul => cases hop

end Sys2Proof.Proofs.ExecuteParts

/-! SUPPORT. The phases of a cycle: fetch (40_pipeline.md R114 to R117), the order of visits (R126), what a pending branch
blocks (43_control_instructions.md R190), and the bus (40_pipeline.md R130 to R136). -/

namespace Sys2Proof.Proofs.CycleParts

open Machine Phases WholeMachine

/-! ## Fetch and Issue (R114 to R117) -/

theorem fetch_of_invalid {s : State} {w : Word} (hread : memRead s.mem s.pc = .ok w) (hw : w ≠ 0)
    (hdec : decode s.params.opcodes w = .invalid) : fetch s = .fault (.illegalInstruction w s.pc) := by
  simp only [fetch, hread, if_neg hw, hdec]

theorem fetch_of_valid {s : State} {w : Word} {i : Instr} (hread : memRead s.mem s.pc = .ok w) (hw : w ≠ 0)
    (hdec : decode s.params.opcodes w = .valid i) : fetch s = .instr i := by
  simp only [fetch, hread, if_neg hw, hdec]

theorem issuePhase_of_fetch_fault {s : State} {f : Fault} (hjump : s.jumpPending = false) (hf : fetch s = .fault f) :
    issuePhase s = .fault f := by
  simp [issuePhase, hjump, hf, raise]

theorem issuePhase_of_fetch_instr {s : State} {i : Instr} (hjump : s.jumpPending = false) (hf : fetch s = .instr i) :
    issuePhase s = exec i s := by
  simp [issuePhase, hjump, hf]

theorem issuePhase_of_jumpPending {s : State} (hjump : s.jumpPending = true) : issuePhase s = .next s := by
  rw [issuePhase, if_pos hjump]

/-- A step whose Issue phase changes nothing goes on with Execute and Writeback. -/
theorem step_of_stall {s : State} (hfault : s.fault = none) (h : issuePhase (beginCycle s) = .next (beginCycle s)) :
    step s = finishCycle (beginCycle s) := by
  rw [step_of_unfaulted hfault, runCycle, h, andThen_next]

theorem step_of_issue_fault {s : State} {f : Fault} (hfault : s.fault = none)
    (h : issuePhase (beginCycle s) = .fault f) : step s = .fault f := by
  rw [step_of_unfaulted hfault, runCycle, h, andThen_fault]

/-- Settles O29: the middle of `runCycle` and of `visit`. -/
theorem stepRunsTheDecodedInstruction : Obligations.StepRunsTheDecodedInstruction := by
  refine ⟨fun s w i hfault hjump hread hw hdec => ?_, fun s k S i hS hbusy hi _ hqj hqk hblock => ?_⟩
  · rw [step_of_unfaulted hfault, runCycle,
      issuePhase_of_fetch_instr (s := beginCycle s) hjump (fetch_of_valid (s := beginCycle s) hread hw hdec)]
  · rw [State.holds] at hS
    simp [visit, hS, hbusy, hblock, (ready_iff S).2 ⟨hqj, hqk⟩, hi, State.withTurn]

/-- Settles O30: Cycle-advance changes nothing that Issue's fetch reads. -/
theorem fetchStallsOrFaultsAtOnce : Obligations.FetchStallsOrFaultsAtOnce := by
  refine ⟨fun s hfault => ⟨fun hjump => ?_, fun hpc hword => ?_⟩,
    fun s hfault hjump => ⟨fun hpc => ?_, fun w hread hw hdec => ?_⟩⟩
  · exact step_of_stall hfault (issuePhase_of_jumpPending hjump)
  · exact step_of_stall hfault (issuePhase_of_empty hpc hword)
  · have hf : fetch (beginCycle s) = .fault (.boundsError s.pc) := by
      simp only [fetch, beginCycle_mem, beginCycle_pc, memRead_error hpc]
    exact step_of_issue_fault hfault (issuePhase_of_fetch_fault hjump hf)
  · exact step_of_issue_fault hfault
      (issuePhase_of_fetch_fault hjump (fetch_of_invalid (s := beginCycle s) hread hw hdec))

/-! ## The order of visits (R126) -/

/-- Older or as old, by sequence number. -/
def SeqLE (x y : Nat × Nat) : Prop := x.1 ≤ y.1

theorem seqLE_total : Std.Total SeqLE := ⟨fun x y => Nat.le_total x.1 y.1⟩

theorem seqLE_trans : IsTrans (Nat × Nat) SeqLE := ⟨fun _ _ _ => Nat.le_trans⟩

/-- Insertion and sorting by sequence number are the library's ordered insertion and insertion sort. -/
theorem insertBySeq_eq [DecidableRel SeqLE] (x : Nat × Nat) (l : List (Nat × Nat)) :
    insertBySeq x l = l.orderedInsert SeqLE x := by
  induction l with
  | nil => rfl
  | cons y ys ih => rw [insertBySeq, List.orderedInsert_cons, ih]; exact if_congr Iff.rfl rfl rfl

theorem sortBySeq_eq [DecidableRel SeqLE] (l : List (Nat × Nat)) : sortBySeq l = l.insertionSort SeqLE := by
  induction l with
  | nil => rfl
  | cons x xs ih => rw [sortBySeq, ih, insertBySeq_eq, List.insertionSort_cons]

/-- What is visited: the busy stations, each with its number. -/
theorem mem_busyFrom {l : List Station} {n q k : Nat} :
    (q, k) ∈ busyFrom n l ↔ n ≤ k ∧ ∃ S, l[k - n]? = some S ∧ S.busy = true ∧ S.seq = q := by
  induction l generalizing n with
  | nil => simp [busyFrom]
  | cons T rest ih =>
    have hrest : (q, k) ∈ busyFrom (n + 1) rest ↔
        n < k ∧ ∃ S, (T :: rest)[k - n]? = some S ∧ S.busy = true ∧ S.seq = q := by
      rw [ih]
      refine and_congr_right fun hlt => ?_
      rw [show k - n = k - (n + 1) + 1 by omega, List.getElem?_cons_succ]
    have hself : (∃ S, (T :: rest)[n - n]? = some S ∧ S.busy = true ∧ S.seq = q) ↔ T.busy = true ∧ T.seq = q := by
      simp
    rw [busyFrom]
    split
    next hb =>
      rw [List.mem_cons, hrest, Prod.mk.injEq]
      constructor
      · rintro (⟨rfl, rfl⟩ | ⟨hlt, h⟩)
        · exact ⟨le_rfl, hself.2 ⟨hb, rfl⟩⟩
        · exact ⟨hlt.le, h⟩
      · rintro ⟨hle, h⟩
        obtain rfl | hlt := hle.eq_or_lt
        · exact .inl ⟨(hself.1 h).2.symm, rfl⟩
        · exact .inr ⟨hlt, h⟩
    next hb =>
      rw [hrest]
      refine ⟨And.imp_left le_of_lt, fun ⟨hle, h⟩ => ⟨hle.lt_of_ne ?_, h⟩⟩
      rintro rfl
      exact hb (hself.1 h).1

/-- The scan lists the stations by rising index, so none twice. -/
theorem nodup_busyFrom (l : List Station) (n : Nat) : ((busyFrom n l).map Prod.snd).Nodup := by
  induction l generalizing n with
  | nil => exact .nil
  | cons T rest ih =>
    rw [busyFrom]
    split
    next =>
      refine List.nodup_cons.2 ⟨fun h => ?_, ih (n + 1)⟩
      obtain ⟨⟨q, k⟩, hmem, rfl⟩ := List.mem_map.1 h
      obtain ⟨hle, -⟩ := mem_busyFrom.1 hmem
      omega
    next => exact ih (n + 1)

/-- Settles O32: the visits are the scan of the busy stations, sorted by sequence number. -/
theorem executeVisitsInIssueOrder : Obligations.ExecuteVisitsInIssueOrder := by
  intro s
  classical
  have := seqLE_total
  have := seqLE_trans
  have hsort : visitOrder s = (busyFrom 0 s.stations).insertionSort SeqLE := by rw [visitOrder, sortBySeq_eq]
  refine ⟨?_, fun q k => ?_, ?_⟩
  · rw [hsort]
    exact List.pairwise_insertionSort SeqLE _
  · rw [hsort, List.mem_insertionSort, mem_busyFrom]
    exact ⟨And.right, fun h => ⟨Nat.zero_le k, h⟩⟩
  · rw [hsort]
    exact ((List.perm_insertionSort SeqLE _).map Prod.snd).nodup_iff.2 (nodup_busyFrom _ _)

/-! ## What a pending branch blocks (R190) -/

theorem speculative_iff (s : State) (S : Station) :
    speculative s S = true ↔ s.branchPending = true ∧ ∃ b B, s.pendingBranch = some b ∧ s.holds b B ∧ B.seq < S.seq := by
  rw [speculative, Bool.and_eq_true]
  refine and_congr_right fun _ => ?_
  cases s.pendingBranch with
  | none => simp
  | some b =>
    cases hB : s.stations[b]? with
    | none => simp [State.holds, hB]
    | some B => simp [State.holds, hB]

/-- Settles O33: the two policies of `blocked`, and the branches of `visit` that skip. -/
theorem pendingBranchBlocksByPolicy : Obligations.PendingBranchBlocksByPolicy := by
  intro s k S hS
  rw [State.holds] at hS
  refine ⟨fun hpolicy => ?_, fun hpolicy => ?_, fun hskip => ?_, fun q hskip => ?_⟩
  · rw [blocked, hpolicy]
    exact speculative_iff s S
  · simp [blocked, hpolicy]
  · simp only [visit, hS]
    split
    next => rfl
    next =>
      split
      next => rfl
      next hfree =>
        have hready : S.ready = false := by
          rw [← Bool.not_eq_true, ready_iff, not_and_or]
          exact hskip.resolve_left hfree
        simp [hready]
  · have hgone : (!S.busy || S.seq != q) = true := by simpa using hskip
    simp [visit, hS, hgone]

/-! ## The bus (R130 to R132) -/

theorem ready?_eq_some_iff (s : State) (e : Entry) (v : Word) : ready? s e = some v ↔ EntryReady s e v := by
  unfold ready? EntryReady
  cases hS : s.stations[e.station]? with
  | none => simp [State.holds, hS]
  | some S =>
    simp only [State.holds, hS, Option.some.injEq, exists_eq_left']
    split
    next h => exact ⟨fun hv => ⟨h.1, h.2.1, hv, h.2.2⟩, fun ⟨_, _, hv, _⟩ => hv⟩
    next h => exact ⟨nofun, fun ⟨hb, hq, _, hc⟩ => absurd ⟨hb, hq, hc⟩ h⟩

/-- The search of the log is the library's search. -/
theorem firstReady_eq_findSome? (s : State) (l : List Entry) :
    firstReady s l = l.findSome? fun e => (ready? s e).map (Broadcast.mk e) := by
  induction l with
  | nil => rfl
  | cons e rest ih =>
    rw [firstReady, List.findSome?_cons, ih]
    cases ready? s e <;> rfl

/-- The bus carries the first entry of the log that is ready. -/
theorem firstReady_eq_some_iff (s : State) (l : List Entry) (b : Broadcast) :
    firstReady s l = some b ↔ ∃ l₁ l₂, l = l₁ ++ b.entry :: l₂ ∧ EntryReady s b.entry b.value ∧
      ∀ e ∈ l₁, ∀ v, ¬ EntryReady s e v := by
  simp only [firstReady_eq_findSome?, List.findSome?_eq_some_iff, Option.map_eq_some_iff,
    Option.eq_none_iff_forall_ne_some, ne_eq, ready?_eq_some_iff]
  constructor
  · rintro ⟨l₁, e, l₂, rfl, ⟨v, hv, rfl⟩, hnone⟩
    exact ⟨l₁, l₂, rfl, hv, fun e he w hw => hnone e he _ ⟨w, hw, rfl⟩⟩
  · rintro ⟨l₁, l₂, rfl, hv, hnone⟩
    exact ⟨l₁, b.entry, l₂, rfl, ⟨b.value, hv, rfl⟩, fun e he _ ⟨w, hw, _⟩ => hnone e he w hw⟩

theorem writeback_of_cdb_none {s : State} (h : cdb s = none) : writeback s = s := by
  rw [writeback, h]

theorem writeback_of_cdb_some {s : State} {b : Broadcast} (h : cdb s = some b) : writeback s = s.broadcast b := by
  rw [writeback, h]

/-- Settles O34: `cdb` is `firstReady` of the log while no branch is pending. -/
theorem oldestReadyResultWinsTheBus : Obligations.OldestReadyResultWinsTheBus := by
  intro s
  refine ⟨fun hpend => writeback_of_cdb_none (by rw [cdb, if_pos hpend]), fun b => ?_, writeback_of_cdb_none⟩
  rw [cdb, ← firstReady_eq_some_iff]
  cases s.branchPending <;> simp

/-! ## The broadcast (R133 to R136) -/

theorem readReg_broadcast (s : State) (b : Broadcast) (r : RegIdx) :
    (s.broadcast b).readReg r =
      if s.status r = some b.entry.station ∧ r ≠ 0 then b.value else s.readReg r := by
  rw [State.readReg, broadcast_reg, get_broadcastRegs, State.readReg]
  by_cases hr : r = 0 <;> simp [hr]

/-- A woken station, slot by slot (R134). -/
theorem woken_eq (k : Nat) (v : Word) (T : Station) :
    T.woken k v =
      { T with
        vj := if T.busy = true ∧ T.qj = some k then some v else T.vj
        qj := if T.busy = true ∧ T.qj = some k then none else T.qj
        vk := if T.busy = true ∧ T.qk = some k then some v else T.vk
        qk := if T.busy = true ∧ T.qk = some k then none else T.qk } := by
  unfold Station.woken wokenSlot Station.withSlots
  by_cases hb : T.busy = true
  · by_cases hj : T.qj = some k <;> by_cases hk : T.qk = some k <;> simp [hb, hj, hk]
  · have hno : ∀ q, ¬ (T.busy = true ∧ q = some k) := fun _ h => hb h.1
    simp only [if_neg hb, if_neg (hno _)]

/-- Settles O35: `State.broadcast`, field by field. -/
theorem broadcastWritesAndWakes : Obligations.BroadcastWritesAndWakes := by
  intro s b hb
  rw [writeback_of_cdb_some hb]
  refine ⟨readReg_broadcast s b, broadcast_status s b, fun k T hk hT => ?_, fun S => broadcast_holds_released, rfl,
    fun _ => rfl, rfl, rfl, rfl, rfl, rfl, rfl, rfl, rfl, rfl, rfl, rfl, rfl, rfl, rfl, rfl, rfl, by simp⟩
  rw [← woken_eq]
  exact broadcast_holds_woken hk hT

end Sys2Proof.Proofs.CycleParts

/-! SUPPORT. Invalid words (30_encoding.md R90, R91), and the validation of instruction records (R82, R85 to R87). -/

namespace Sys2Proof.Proofs.Records

open Machine Codec CycleParts

/-! ## Invalid words (R90) -/

theorem decode_eq_invalid_iff (m : OpcodeMap) (w : Word) : decode m w = .invalid ↔ ∀ o, m.code o ≠ opcodeField w := by
  have hnone : decode m w = .invalid ↔ m.opOf (opcodeField w) = none := by
    unfold decode
    split <;> simp_all
  rw [hnone, OpcodeMap.opOf, List.find?_eq_none]
  exact ⟨fun h o hc => h o (mem_opCode_all o) (beq_iff_eq.2 hc), fun h o _ hc => h o (beq_iff_eq.1 hc)⟩

/-- Under the default map the codes are 0 to 8 (R84). -/
theorem default_code_ne_iff (c : BitVec 4) : (∀ o, OpcodeMap.default.code o ≠ c) ↔ 9 ≤ c.toNat := by
  have hall : ∀ c : BitVec 4, (∀ o ∈ OpCode.all, OpcodeMap.default.code o ≠ c) ↔ 9 ≤ c.toNat := by decide
  rw [← hall c]
  exact ⟨fun h o _ => h o, fun h o => h o (mem_opCode_all o)⟩

theorem toNat_opcodeField (w : Word) : (opcodeField w).toNat = w.toNat / 4096 := by
  have hlt := w.isLt
  rw [opcodeField, BitVec.extractLsb'_toNat, Nat.shiftRight_eq_div_pow]
  omega

/-- Settles O3: `decode` finds no opcode exactly when none has the code, and Issue raises the fault of the fetch. -/
theorem invalidExactlyWithoutOpcode : Obligations.InvalidExactlyWithoutOpcode := by
  refine ⟨decode_eq_invalid_iff, fun w => ?_, fun s w hjump hread hw hdec => ?_⟩
  · rw [decode_eq_invalid_iff, default_code_ne_iff, toNat_opcodeField]
    omega
  · exact issuePhase_of_fetch_fault hjump (fetch_of_invalid hread hw hdec)

/-- Settles O4: the zero word is the empty word of a fetch, and 0x0020 is not. -/
theorem zeroWordNeverIssues : Obligations.ZeroWordNeverIssues := by
  refine ⟨by decide, rfl, fun s hread => ?_, fun s hmap hjump hread => ?_⟩
  · obtain ⟨hpc, hword⟩ := memRead_ok hread
    exact WholeMachine.issuePhase_of_empty hpc hword.symm
  · have hdec : decode s.params.opcodes 0x0020 = .valid (.load 0 0 0) := by rw [hmap]; decide
    exact issuePhase_of_fetch_instr hjump (fetch_of_valid hread (by decide) hdec)

/-- Settles O8: six fixed words. -/
theorem sourceExampleWordsDecode : Obligations.SourceExampleWordsDecode := by
  unfold Obligations.SourceExampleWordsDecode
  decide

/-! ## The checks of one field (R86, R87) -/

section Checks

variable {ε α β : Type}

theorem bind_eq_ok {x : Except ε α} {f : α → Except ε β} {b : β} :
    x >>= f = .ok b ↔ ∃ a, x = .ok a ∧ f a = .ok b := by
  cases x <;> simp [bind, Except.bind]

theorem bind_of_ok {x : Except ε α} {a : α} (h : x = .ok a) (f : α → Except ε β) : x >>= f = f a := by
  rw [h]
  rfl

theorem bind_of_error {x : Except ε α} {e : ε} (h : x = .error e) (f : α → Except ε β) : x >>= f = .error e := by
  rw [h]
  rfl

end Checks

/-- A register field is accepted exactly as the number of a register. -/
theorem needReg_eq_ok_iff {n : FieldName} {o : Option Int} {r : RegIdx} :
    needReg n o = .ok r ↔ o = some (r.val : Int) := by
  cases o with
  | none => simp [needReg, needField, bind, Except.bind]
  | some v =>
    simp only [needReg, needField, bind, Except.bind, Option.some.injEq]
    split
    next hv =>
      rw [Except.ok.injEq, Fin.ext_iff, Fin.val_ofNat]
      omega
    next hv =>
      refine ⟨nofun, fun h => ?_⟩
      have hr := r.isLt
      omega

theorem needReg_val (n : FieldName) (r : RegIdx) : needReg n (some (r.val : Int)) = .ok r := needReg_eq_ok_iff.2 rfl

theorem needReg_of_outside (n : FieldName) {v : Int} (h : ¬ (0 ≤ v ∧ v ≤ 7)) :
    needReg n (some v) = .error (.rangeError n v) := by
  simp only [needReg, needField, bind, Except.bind, if_neg h]

theorem needOffset_eq_ok_iff {c : Bool} {o : Option Int} {v : Int} :
    needOffset c o = .ok v ↔ o = some v ∧ (!c || offsetInRange v) = true := by
  cases o with
  | none => simp [needOffset, needField, bind, Except.bind]
  | some u =>
    simp only [needOffset, needField, bind, Except.bind, Option.some.injEq]
    split
    next h => exact ⟨fun heq => by cases heq; exact ⟨rfl, h⟩, fun heq => by rw [heq.1]⟩
    next h => exact ⟨nofun, fun ⟨heq, hv⟩ => absurd (heq ▸ hv) h⟩

theorem needOffset_of_outside {v : Int} (h : offsetInRange v = false) :
    needOffset true (some v) = .error (.rangeError .offset v) := by
  simp [needOffset, needField, bind, Except.bind, h]

theorem needLabel_eq_ok_iff {o : Option Int} {v : Int} : needLabel o = .ok v ↔ o = some v ∧ labelInRange v = true := by
  cases o with
  | none => simp [needLabel, needField, bind, Except.bind]
  | some u =>
    simp only [needLabel, needField, bind, Except.bind, Option.some.injEq]
    split
    next h => exact ⟨fun heq => by cases heq; exact ⟨rfl, h⟩, fun heq => by rw [heq.1]⟩
    next h => exact ⟨nofun, fun ⟨heq, hv⟩ => absurd (heq ▸ hv) h⟩

theorem needLabel_of_outside {v : Int} (h : labelInRange v = false) :
    needLabel (some v) = .error (.rangeError .label v) := by
  simp [needLabel, needField, bind, Except.bind, h]

/-! ## The field set (R82) -/

/-- The fields of a record, in the order of the check. -/
def fieldsOf (r : Record) : List (FieldName × Option Int) :=
  [(.rA, r.rA), (.rB, r.rB), (.rC, r.rC), (.offset, r.offset), (.label, r.label)]

/-- The check of the field set is a search of the fields. -/
theorem fieldProblem_eq_find? (r : Record) :
    r.fieldProblem = ((fieldsOf r).find? fun x => r.opcode.format.carries x.1 != x.2.isSome).map Prod.fst := by
  simp only [Record.fieldProblem, fieldsOf, List.find?_cons, List.find?_nil]
  split_ifs <;> simp [*]

/-- A record passes the check exactly when it has the fields of its format. -/
theorem fieldProblem_eq_none_iff (r : Record) :
    r.fieldProblem = none ↔ ∀ x ∈ fieldsOf r, x.2.isSome = r.opcode.format.carries x.1 := by
  rw [fieldProblem_eq_find?, Option.map_eq_none_iff, List.find?_eq_none]
  exact forall₂_congr fun x _ => by rw [bne_iff_ne, not_not, eq_comm]

theorem eq_none_of_isSome {o : Option Int} (h : o.isSome = false) : o = none := by simpa using h

/-- The field that the check names is a wrong one. -/
theorem exists_of_fieldProblem {r : Record} {n : FieldName} (h : r.fieldProblem = some n) :
    ∃ x ∈ fieldsOf r, r.opcode.format.carries x.1 ≠ x.2.isSome ∧ x.1 = n := by
  rw [fieldProblem_eq_find?, Option.map_eq_some_iff] at h
  obtain ⟨x, hx, rfl⟩ := h
  exact ⟨x, List.mem_of_find?_eq_some hx, bne_iff_ne.1 (List.find?_some hx :), rfl⟩

theorem fieldProblem_record (i : Instr) : i.record.fieldProblem = none := by cases i <;> rfl

/-! ## Construction (R82, R86) -/

theorem construct_of_fieldProblem {c : Bool} {r : Record} {n : FieldName} (h : r.fieldProblem = some n) :
    r.construct c = .error (.fieldError n) := by
  rw [Record.construct, h]

theorem constructRRI_eq_ok_iff {c : Bool} {r : Record} {mk : RegIdx → RegIdx → Int → Instr} {i : Instr} :
    constructRRI c r mk = .ok i ↔ ∃ a b o, r.rA = some (a.val : Int) ∧ r.rB = some (b.val : Int) ∧ r.offset = some o ∧
      (!c || offsetInRange o) = true ∧ i = mk a b o := by
  simp only [constructRRI, bind_eq_ok, needReg_eq_ok_iff, needOffset_eq_ok_iff, Except.ok.injEq, and_assoc,
    exists_and_left, eq_comm (a := i)]

theorem constructRRR_eq_ok_iff {r : Record} {mk : RegIdx → RegIdx → RegIdx → Instr} {i : Instr} :
    constructRRR r mk = .ok i ↔ ∃ a b c : RegIdx, r.rA = some (a.val : Int) ∧ r.rB = some (b.val : Int) ∧
      r.rC = some (c.val : Int) ∧ i = mk a b c := by
  simp only [constructRRR, bind_eq_ok, needReg_eq_ok_iff, Except.ok.injEq, exists_and_left, eq_comm (a := i)]

/-- A record constructs an instruction exactly when it spells it and the instruction is well formed. -/
theorem construct_eq_ok_iff {c : Bool} {r : Record} {i : Instr} :
    r.construct c = .ok i ↔ i.record = r ∧ i.wf c = true := by
  constructor
  · intro h
    unfold Record.construct at h
    split at h
    next => cases h
    next hnone =>
      rw [fieldProblem_eq_none_iff] at hnone
      obtain ⟨op, rA, rB, rC, offset, label⟩ := r
      simp only [fieldsOf, List.forall_mem_cons] at hnone
      obtain ⟨hA, hB, hC, hO, hL, -⟩ := hnone
      cases op with
      | load | store | beq =>
        obtain ⟨a, b, o, hrA, hrB, hoff, hwf, rfl⟩ := constructRRI_eq_ok_iff.1 h
        cases hrA; cases hrB; cases hoff
        obtain rfl : rC = none := eq_none_of_isSome hC
        obtain rfl : label = none := eq_none_of_isSome hL
        exact ⟨rfl, hwf⟩
      | call =>
        obtain ⟨l, hl, hi⟩ := bind_eq_ok.1 h
        obtain ⟨hlab, hwf⟩ := needLabel_eq_ok_iff.1 hl
        cases hi; cases hlab
        obtain rfl : rA = none := eq_none_of_isSome hA
        obtain rfl : rB = none := eq_none_of_isSome hB
        obtain rfl : rC = none := eq_none_of_isSome hC
        obtain rfl : offset = none := eq_none_of_isSome hO
        exact ⟨rfl, hwf⟩
      | ret =>
        cases h
        obtain rfl : rA = none := eq_none_of_isSome hA
        obtain rfl : rB = none := eq_none_of_isSome hB
        obtain rfl : rC = none := eq_none_of_isSome hC
        obtain rfl : offset = none := eq_none_of_isSome hO
        obtain rfl : label = none := eq_none_of_isSome hL
        exact ⟨rfl, rfl⟩
      | add | sub | nor | mul =>
        obtain ⟨a, b, c', hrA, hrB, hrC, rfl⟩ := constructRRR_eq_ok_iff.1 h
        cases hrA; cases hrB; cases hrC
        obtain rfl : offset = none := eq_none_of_isSome hO
        obtain rfl : label = none := eq_none_of_isSome hL
        exact ⟨rfl, rfl⟩
  · rintro ⟨rfl, hwf⟩
    rw [Record.construct, fieldProblem_record]
    cases i with
    | load a b o | store a b o | beq a b o => exact constructRRI_eq_ok_iff.2 ⟨a, b, o, rfl, rfl, rfl, hwf, rfl⟩
    | call l => exact bind_eq_ok.2 ⟨l, needLabel_eq_ok_iff.2 ⟨rfl, hwf⟩, rfl⟩
    | ret => rfl
    | add a b c | sub a b c | nor a b c | mul a b c => exact constructRRR_eq_ok_iff.2 ⟨a, b, c, rfl, rfl, rfl, rfl⟩

theorem encodeRecord_of_error {p : Params} {r : Record} {e : ValidationError}
    (h : r.construct p.checkOffsetRange = .error e) : encodeRecord p r = .error e := bind_of_error h _

theorem encodeRecord_record {p : Params} {i : Instr} (h : i.wf p.checkOffsetRange = true) :
    encodeRecord p i.record = .ok (encode p.opcodes i) := bind_of_ok (construct_eq_ok_iff.2 ⟨rfl, h⟩) _

/-- Settles O5: encoding is construction, then the word of the instruction. -/
theorem encodeSucceedsExactlyOnValidRecords : Obligations.EncodeSucceedsExactlyOnValidRecords := by
  intro p r w
  rw [encodeRecord, bind_eq_ok]
  refine exists_congr fun i => ?_
  rw [construct_eq_ok_iff, Except.ok.injEq, and_assoc, eq_comm (a := w)]

/-! ## The error of one bad field (R82, R86) -/

section RRI

variable {c : Bool} {op : OpCode} (hop : op.format = .rri)

include hop

/-- A record of an RRI opcode with its three fields is constructed field by field. -/
theorem construct_rri (x y o : Int) :
    ∃ mk, Record.construct c { opcode := op, rA := some x, rB := some y, offset := some o } =
      constructRRI c { opcode := op, rA := some x, rB := some y, offset := some o } mk := by
  cases op with
  | load | store | beq => exact ⟨_, rfl⟩
  | call | ret | add | sub | nor | mul => cases hop

theorem construct_rri_badA {v : Int} (hv : ¬ (0 ≤ v ∧ v ≤ 7)) (y o : Int) :
    Record.construct c { opcode := op, rA := some v, rB := some y, offset := some o } = .error (.rangeError .rA v) := by
  obtain ⟨mk, h⟩ := construct_rri (c := c) hop v y o
  rw [h]
  exact bind_of_error (needReg_of_outside .rA hv) _

theorem construct_rri_badB (a : RegIdx) {v : Int} (hv : ¬ (0 ≤ v ∧ v ≤ 7)) (o : Int) :
    Record.construct c { opcode := op, rA := some a.val, rB := some v, offset := some o } =
      .error (.rangeError .rB v) := by
  obtain ⟨mk, h⟩ := construct_rri (c := c) hop a.val v o
  rw [h]
  exact (bind_of_ok (needReg_val .rA a) _).trans (bind_of_error (needReg_of_outside .rB hv) _)

theorem construct_rri_badOffset (a b : RegIdx) {o : Int} (ho : offsetInRange o = false) :
    Record.construct true { opcode := op, rA := some a.val, rB := some b.val, offset := some o } =
      .error (.rangeError .offset o) := by
  obtain ⟨mk, h⟩ := construct_rri (c := true) hop a.val b.val o
  rw [h]
  exact (bind_of_ok (needReg_val .rA a) _).trans
    ((bind_of_ok (needReg_val .rB b) _).trans (bind_of_error (needOffset_of_outside ho) _))

end RRI

section RRR

variable {ch : Bool} {op : OpCode} (hop : op.format = .rrr)

include hop

/-- A record of an RRR opcode with its three registers is constructed register by register. -/
theorem construct_rrr (x y z : Int) :
    ∃ mk, Record.construct ch { opcode := op, rA := some x, rB := some y, rC := some z } =
      constructRRR { opcode := op, rA := some x, rB := some y, rC := some z } mk := by
  cases op with
  | add | sub | nor | mul => exact ⟨_, rfl⟩
  | load | store | beq | call | ret => cases hop

theorem construct_rrr_badA {v : Int} (hv : ¬ (0 ≤ v ∧ v ≤ 7)) (y z : Int) :
    Record.construct ch { opcode := op, rA := some v, rB := some y, rC := some z } = .error (.rangeError .rA v) := by
  obtain ⟨mk, h⟩ := construct_rrr (ch := ch) hop v y z
  rw [h]
  exact bind_of_error (needReg_of_outside .rA hv) _

theorem construct_rrr_badB (a : RegIdx) {v : Int} (hv : ¬ (0 ≤ v ∧ v ≤ 7)) (z : Int) :
    Record.construct ch { opcode := op, rA := some a.val, rB := some v, rC := some z } =
      .error (.rangeError .rB v) := by
  obtain ⟨mk, h⟩ := construct_rrr (ch := ch) hop a.val v z
  rw [h]
  exact (bind_of_ok (needReg_val .rA a) _).trans (bind_of_error (needReg_of_outside .rB hv) _)

theorem construct_rrr_badC (a b : RegIdx) {v : Int} (hv : ¬ (0 ≤ v ∧ v ≤ 7)) :
    Record.construct ch { opcode := op, rA := some a.val, rB := some b.val, rC := some v } =
      .error (.rangeError .rC v) := by
  obtain ⟨mk, h⟩ := construct_rrr (ch := ch) hop a.val b.val v
  rw [h]
  exact (bind_of_ok (needReg_val .rA a) _).trans
    ((bind_of_ok (needReg_val .rB b) _).trans (bind_of_error (needReg_of_outside .rC hv) _))

end RRR

theorem encodeRecord_badLabel (p : Params) {l : Int} (h : labelInRange l = false) :
    encodeRecord p { opcode := .call, label := some l } = .error (.rangeError .label l) :=
  encodeRecord_of_error (bind_of_error (needLabel_of_outside h) _)

/-- Settles O6: the field set is checked first, then the fields one by one. -/
theorem encodeNamesTheRejectedField : Obligations.EncodeNamesTheRejectedField := by
  intro p
  refine ⟨fun r ⟨y, hy, hwrong⟩ _ _ _ => ?_,
    fun op b c v hop hv => encodeRecord_of_error (construct_rrr_badA hop hv _ _),
    fun op a c v hop hv => encodeRecord_of_error (construct_rrr_badB hop a hv _),
    fun op a b v hop hv => encodeRecord_of_error (construct_rrr_badC hop a b hv),
    fun op b v o hop _ hv => encodeRecord_of_error (construct_rri_badA hop hv _ _),
    fun op a v o hop _ hv => encodeRecord_of_error (construct_rri_badB hop a hv _),
    fun op a b o hop hcheck ho => encodeRecord_of_error (hcheck ▸ construct_rri_badOffset hop a b ho),
    fun l hl => encodeRecord_badLabel p hl⟩
  cases hproblem : r.fieldProblem with
  | none => exact absurd ((fieldProblem_eq_none_iff r).1 hproblem y hy).symm hwrong
  | some n =>
    obtain ⟨x, hx, hne, rfl⟩ := exists_of_fieldProblem hproblem
    exact ⟨x, hx, hne, encodeRecord_of_error (construct_of_fieldProblem hproblem)⟩

/-! ## Unchecked offsets (R87) -/

/-- The low five bits of a word of format RRI are its offset modulo 32. -/
theorem toNat_offset_encodeRRI (c : BitVec 4) (a b : RegIdx) (o : Int) :
    ((encodeRRI c a b o).extractLsb' 0 5).toNat = (o % 32).toNat := by
  rw [encodeRRI, BitVec.extractLsb'_append_eq_right, off5, BitVec.toNat_ofInt]
  rfl

/-- An unchecked record of format RRI encodes, and decodes to its offset's 5-bit sign extension. -/
theorem encode_unchecked {p : Params} (hcheck : p.checkOffsetRange = false) (hmap : p.opcodes.wf = true)
    {mk : RegIdx → RegIdx → Int → Instr} (a b : RegIdx) (o : Int) (hmk : mk = .load ∨ mk = .store ∨ mk = .beq) :
    ∃ w : Word, encodeRecord p (mk a b o).record = .ok w ∧ (w.extractLsb' 0 5).toNat = (o % 32).toNat ∧
      decode p.opcodes w = .valid (mk a b (o.bmod 32)) := by
  refine ⟨encode p.opcodes (mk a b o), encodeRecord_record ?wf, ?low, ?back⟩
  case wf => obtain rfl | rfl | rfl := hmk <;> simp [Instr.wf, hcheck]
  case low => obtain rfl | rfl | rfl := hmk <;> exact toNat_offset_encodeRRI ..
  case back =>
    rw [decode_encode_eq_instrOf hmap]
    obtain rfl | rfl | rfl := hmk <;> simp [Instr.opcode, instrOf, encode]

/-- Settles O7: an unchecked offset passes construction, and the other checks stay. -/
theorem uncheckedOffsetIsStoredModulo32 : Obligations.UncheckedOffsetIsStoredModulo32 := by
  intro p hcheck hmap
  refine ⟨fun mk a b o hmk => encode_unchecked hcheck hmap a b o hmk,
    fun op b v o hop hv => ⟨encodeRecord_of_error (construct_rri_badA hop hv _ _),
      encodeRecord_of_error (construct_rri_badB hop b hv _)⟩, fun l hl => encodeRecord_badLabel p hl, ?_⟩
  obtain ⟨w, hw, -, hdec⟩ := encode_unchecked hcheck hmap 1 2 16 (.inr (.inr rfl))
  exact ⟨w, hw, hdec⟩

end Sys2Proof.Proofs.Records

/-! SUPPORT. Configuration before the first step (70_reset_and_hazards.md R241, R242, R245): what each operation accepts
and stores, and the invariants that it keeps. -/

namespace Sys2Proof.Proofs.Configuration

open Machine Phases EngineInvariants PendingFlags Tags Records ExecuteParts

/-! ## Register and PC -/

section NotStarted

variable {s : State} (h : s.started = false)

include h

theorem configure_addStation (d : StationSpec) : configure (.addStation d) s = addStation d s := by
  simp [configure, h]

theorem configure_loadInstruction (a : Int) (r : Record) :
    configure (.loadInstruction a r) s = loadInstruction a r s := by
  simp [configure, h]

theorem configure_bulkLoad (a : Int) (rs : List Record) : configure (.bulkLoad a rs) s = bulkLoad a rs s := by
  simp [configure, h]

theorem configure_loadData (a : Int) (vs : List Int) : configure (.loadData a vs) s = loadData a vs s := by
  simp [configure, h]

theorem configure_setPC (a : Int) : configure (.setPC a) s = setPC a s := by
  simp [configure, h]

theorem configure_setRegister (r v : Int) : configure (.setRegister r v) s = setRegister r v s := by
  simp [configure, h]

end NotStarted

theorem configure_of_started {s : State} (h : s.started = true) (op : ConfigOp) :
    configure op s = .error (.configError .afterStart) := by
  simp [configure, h]

theorem started_of_configure_ok {s t : State} {op : ConfigOp} (h : configure op s = .ok t) : s.started = false := by
  by_contra hs
  rw [configure_of_started (by simpa using hs)] at h
  cases h

/-- A register write changes the register file only. -/
theorem writeReg_eq (s : State) (r : RegIdx) (v : Word) : s.writeReg r v = { s with reg := (s.writeReg r v).reg } := by
  unfold State.writeReg
  split <;> rfl

/-- Settles O57: the checks of `setRegister` and `setPC` in order, and R21 for the register write. -/
theorem configurationChecksAndStores : Obligations.ConfigurationChecksAndStores := by
  refine ⟨fun s op => ⟨fun hs => configure_of_started hs op, fun e he => by rw [configured, he]⟩, fun s hs => ?_⟩
  have hreg := configure_setRegister hs
  have hpc := configure_setPC hs
  refine ⟨fun r v h0 h7 hlo hhi => ?_, fun r v hr _ _ => by rw [hreg, setRegister, if_neg hr],
    fun r v h0 h7 hv => ?_, fun a h0 h1 => by rw [hpc, setPC, if_pos (inBounds_iff.2 ⟨h0, h1⟩)],
    fun a ha => by rw [hpc, setPC, if_neg (mt inBounds_iff.1 ha)]⟩
  · refine ⟨s.writeReg (Fin.ofNat 8 r.toNat) (bv16 v), ?_, writeReg_eq .., fun q => ?_⟩
    · rw [hreg, setRegister, if_pos ⟨h0, h7⟩, if_pos ((valueInRange_iff v).2 ⟨hlo, hhi⟩)]
    · have hval : (Fin.ofNat 8 r.toNat).val = r.toNat := Nat.mod_eq_of_lt (by omega)
      rw [readReg_writeReg]
      refine if_congr ?_ rfl rfl
      rw [Fin.ext_iff, ne_eq, Fin.ext_iff, hval, Fin.val_zero]
      omega
  · rw [hreg, setRegister, if_pos ⟨h0, h7⟩, if_neg (mt (valueInRange_iff v).1 hv)]

/-! ## Stations (R241) -/

theorem hasSubLatencies_iff (kind : UnitKind) : kind.hasSubLatencies = false ↔ kind ≠ .load ∧ kind ≠ .store := by
  cases kind <;> decide

theorem ite_some_eq_none_iff {α : Type} {c : Prop} [Decidable c] {x : α} {o : Option α} :
    (if c then some x else o) = none ↔ ¬ c ∧ o = none := by
  split <;> simp [*]

/-- A descriptor breaks no constraint of R241 exactly when it keeps each. -/
theorem specProblem_eq_none_iff (l : List Station) (d : StationSpec) : specProblem l d = none ↔
    d.name ≠ "" ∧ (∀ S ∈ l, S.desc.name ≠ d.name) ∧ 1 ≤ d.cyclesNeeded ∧
      (d.kind ≠ .load → d.kind ≠ .store → d.addrCycles = none ∧ d.memCycles = none) ∧
      (∀ n, d.addrCycles = some n → 1 ≤ n ∧ n ≤ d.cyclesNeeded) ∧ (∀ n, d.memCycles = some n → 0 ≤ n) := by
  have hdup : l.any (fun S => S.desc.name == d.name) = true ↔ ¬ ∀ S ∈ l, S.desc.name ≠ d.name := by simp
  have hkind : (d.kind.hasSubLatencies = false ∧ (d.addrCycles.isSome ∨ d.memCycles.isSome)) ↔
      ¬ (d.kind ≠ .load → d.kind ≠ .store → d.addrCycles = none ∧ d.memCycles = none) := by
    rw [hasSubLatencies_iff, ← Option.ne_none_iff_isSome, ← Option.ne_none_iff_isSome]
    tauto
  have haddr : d.addrCycles.any (fun n => decide (n < 1) || decide (d.cyclesNeeded < n)) = true ↔
      ¬ ∀ n, d.addrCycles = some n → 1 ≤ n ∧ n ≤ d.cyclesNeeded := by
    cases d.addrCycles with
    | none => simp
    | some n => simp only [Option.any_some, Bool.or_eq_true, decide_eq_true_eq, Option.some.injEq, forall_eq']; omega
  have hmem : d.memCycles.any (fun n => decide (n < 0)) = true ↔ ¬ ∀ n, d.memCycles = some n → 0 ≤ n := by
    cases d.memCycles <;> simp
  simp only [specProblem, ite_some_eq_none_iff, hdup, hkind, haddr, hmem, not_not, not_lt, and_true, ne_eq]

/-- Settles O58: `addStation` accepts what `specProblem` finds nothing wrong with. -/
theorem addStationAcceptsExactlyValidDescriptors : Obligations.AddStationAcceptsExactlyValidDescriptors := by
  intro s t d hs
  rw [configure_addStation hs, ← specProblem_eq_none_iff]
  simp only [addStation]
  split
  next reason hreason => simp [hreason]
  next hnone => rw [Except.ok.injEq, hnone, eq_comm (a := t)]; exact (and_iff_right rfl).symm

/-! ## Blocks (R242, R245) -/

/-- A word read after a block write: the block's word inside the block, the old word elsewhere. -/
theorem get_setBlock {m : Memory} {ws : List Word} {a : Nat} (hm : m.wf = true) (ha : a + ws.length ≤ 65536) (b : Nat) :
    (m.setBlock a ws).get b = if a ≤ b ∧ b < a + ws.length then (ws[b - a]?).getD 0 else m.get b := by
  induction ws generalizing m a with
  | nil => rw [Memory.setBlock, if_neg (by simp)]
  | cons w ws ih =>
    rw [List.length_cons] at ha ⊢
    rw [Memory.setBlock, ih (Memory.wf_set (by omega) hm) (by omega), Memory.get_set hm]
    by_cases hb : b = a
    · subst hb
      rw [if_neg (by omega), if_pos rfl, if_pos (by omega), Nat.sub_self]
      rfl
    · rw [if_neg hb]
      refine ite_congr (by rw [eq_iff_iff]; omega) (fun h => ?_) fun _ => rfl
      rw [show b - a = b - (a + 1) + 1 by omega, List.getElem?_cons_succ]

/-- The same by integer address. -/
theorem wordAt_setBlock {s t : State} (hs : MemoryCanonical s) {a : Int} {ws : List Word} (h0 : 0 ≤ a)
    (h1 : a + ws.length - 1 ≤ 65535) (ht : t.mem = s.mem.setBlock a.toNat ws) (b : Int) :
    t.wordAt b = if a ≤ b ∧ b < a + ws.length then (ws[(b - a).toNat]?).getD 0 else s.wordAt b := by
  rw [State.wordAt, State.wordAt, ht, get_setBlock hs (by omega)]
  by_cases hb : inBounds b = true
  · rw [if_pos hb, if_pos hb]
    obtain ⟨hb0, -⟩ := inBounds_iff.1 hb
    refine ite_congr (by rw [eq_iff_iff]; omega) (fun h => ?_) fun _ => rfl
    rw [show (b - a).toNat = b.toNat - a.toNat by omega]
  · rw [if_neg hb, if_neg hb, if_neg]
    rw [inBounds_iff] at hb
    omega

theorem memoryCanonical_setBlock {s t : State} (hs : MemoryCanonical s) {a : Int} {ws : List Word} (h0 : 0 ≤ a)
    (h1 : a + ws.length - 1 ≤ 65535) (ht : t.mem = s.mem.setBlock a.toNat ws) : MemoryCanonical t := by
  rw [MemoryCanonical, ht]
  exact Memory.wf_setBlock (by omega) hs

/-- A block of records encodes word by word. -/
theorem encodeAll_eq_ok_iff {p : Params} {rs : List Record} {ws : List Word} :
    encodeAll p rs = .ok ws ↔ List.Forall₂ (fun r w => encodeRecord p r = .ok w) rs ws := by
  induction rs generalizing ws with
  | nil => simp [encodeAll, eq_comm]
  | cons r rs ih =>
    simp only [encodeAll, bind_eq_ok, ih, Except.ok.injEq]
    rw [List.forall₂_cons_left_iff]
    simp only [eq_comm (b := ws), exists_and_left]

/-- A block of data is stored word by word, modulo 2^16. -/
theorem dataWords_eq_ok_iff {vs : List Int} {ws : List Word} :
    dataWords vs = .ok ws ↔ (∀ v ∈ vs, valueInRange v = true) ∧ ws = vs.map bv16 := by
  induction vs generalizing ws with
  | nil => exact ⟨fun h => by cases h; exact ⟨fun _ hv => absurd hv List.not_mem_nil, rfl⟩, fun h => by rw [h.2]; rfl⟩
  | cons v vs ih =>
    rw [dataWords, List.forall_mem_cons, List.map_cons]
    split
    next hv =>
      rw [bind_of_ok rfl, bind_eq_ok]
      simp only [ih, Except.ok.injEq, hv, true_and, and_assoc, exists_and_left, exists_eq_left, eq_comm (a := ws)]
    next hv => exact ⟨nofun, fun h => absurd h.1.1 hv⟩

section Loads

variable {s t : State} {a : Int} (hs : s.started = false)

include hs

theorem bulkLoad_eq_ok_iff {rs : List Record} : configure (.bulkLoad a rs) s = .ok t ↔
    (0 ≤ a ∧ a + rs.length - 1 ≤ 65535) ∧
      ∃ ws, encodeAll s.params rs = .ok ws ∧ t = { s with mem := s.mem.setBlock a.toNat ws } := by
  rw [configure_bulkLoad hs, ← blockProblem_eq_none_iff]
  simp only [bulkLoad]
  split
  next h => simp [h]
  next h => simp only [bind_eq_ok, Except.ok.injEq, h, true_and, eq_comm (a := t)]

theorem bulkLoad_eq_bounds {rs : List Record} {b : Int} (h : blockProblem a rs.length = some b) :
    configure (.bulkLoad a rs) s = .error (.boundsError b) := by
  rw [configure_bulkLoad hs]
  simp only [bulkLoad, h]

theorem bulkLoad_eq_error {rs : List Record} {e : ValidationError} (h : 0 ≤ a ∧ a + rs.length - 1 ≤ 65535)
    (he : encodeAll s.params rs = .error e) : configure (.bulkLoad a rs) s = .error e := by
  rw [configure_bulkLoad hs]
  simp only [bulkLoad, (blockProblem_eq_none_iff _ _).2 h]
  exact bind_of_error he _

theorem loadData_eq_ok_iff {vs : List Int} : configure (.loadData a vs) s = .ok t ↔
    (0 ≤ a ∧ a + vs.length - 1 ≤ 65535) ∧ (∀ v ∈ vs, valueInRange v = true) ∧
      t = { s with mem := s.mem.setBlock a.toNat (vs.map bv16) } := by
  rw [configure_loadData hs, ← blockProblem_eq_none_iff]
  simp only [loadData]
  split
  next h => simp [h]
  next h =>
    simp only [bind_eq_ok, dataWords_eq_ok_iff, Except.ok.injEq, h, true_and, and_assoc, exists_and_left, exists_eq_left,
      eq_comm (a := t)]

theorem loadData_eq_bounds {vs : List Int} {b : Int} (h : blockProblem a vs.length = some b) :
    configure (.loadData a vs) s = .error (.boundsError b) := by
  rw [configure_loadData hs]
  simp only [loadData, h]

theorem loadData_eq_error {vs : List Int} {e : ValidationError} (h : 0 ≤ a ∧ a + vs.length - 1 ≤ 65535)
    (he : dataWords vs = .error e) : configure (.loadData a vs) s = .error e := by
  rw [configure_loadData hs]
  simp only [loadData, (blockProblem_eq_none_iff _ _).2 h]
  exact bind_of_error he _

theorem loadInstruction_eq_ok_iff {r : Record} : configure (.loadInstruction a r) s = .ok t ↔
    inBounds a = true ∧ ∃ w, encodeRecord s.params r = .ok w ∧ t = { s with mem := s.mem.set a.toNat w } := by
  rw [configure_loadInstruction hs]
  simp only [loadInstruction]
  split
  next h => simp only [bind_eq_ok, Except.ok.injEq, h, true_and, eq_comm (a := t)]
  next h => simp [h]

theorem loadInstruction_eq_bounds {r : Record} (h : ¬ (0 ≤ a ∧ a ≤ 65535)) :
    configure (.loadInstruction a r) s = .error (.boundsError a) := by
  rw [configure_loadInstruction hs]
  exact if_neg (mt inBounds_iff.1 h)

theorem loadInstruction_eq_error {r : Record} {e : ValidationError} (h : 0 ≤ a ∧ a ≤ 65535)
    (he : encodeRecord s.params r = .error e) : configure (.loadInstruction a r) s = .error e := by
  rw [configure_loadInstruction hs]
  exact (if_pos (inBounds_iff.2 h)).trans (bind_of_error he _)

end Loads

/-- Settles O59, first part: the words that accepted loads store. -/
theorem blockLoads_store (s t : State) (a : Int) (hcanon : MemoryCanonical s) :
    (∀ rs, configure (.bulkLoad a rs) s = .ok t → ∃ ws : List Word,
      rs.length = ws.length ∧ (∀ (n : Nat) r, rs[n]? = some r → ∃ w, ws[n]? = some w ∧ encodeRecord s.params r = .ok w) ∧
      MemoryCanonical t ∧
      ∀ b : Int, t.wordAt b =
        if a ≤ b ∧ b < a + ws.length then (ws[(b - a).toNat]?).getD 0 else s.wordAt b) ∧
    (∀ vs, configure (.loadData a vs) s = .ok t → MemoryCanonical t ∧
      (∀ v ∈ vs, -32768 ≤ v ∧ v ≤ 65535) ∧
      ∀ b : Int, t.wordAt b =
        if a ≤ b ∧ b < a + vs.length then BitVec.ofInt 16 ((vs[(b - a).toNat]?).getD 0) else s.wordAt b) ∧
    (∀ r, configure (.loadInstruction a r) s = .ok t → ∃ w, encodeRecord s.params r = .ok w ∧ MemoryCanonical t ∧
      ∀ b : Int, t.wordAt b = if b = a then w else s.wordAt b) := by
  refine ⟨fun rs h => ?_, fun vs h => ?_, fun r h => ?_⟩
  · obtain ⟨⟨h0, h1⟩, ws, hws, rfl⟩ := (bulkLoad_eq_ok_iff (started_of_configure_ok h)).1 h
    have hall := encodeAll_eq_ok_iff.1 hws
    have hlen := hall.length_eq
    rw [hlen] at h1
    refine ⟨ws, hlen, fun n r hr => ?_, memoryCanonical_setBlock hcanon h0 h1 rfl, wordAt_setBlock hcanon h0 h1 rfl⟩
    obtain ⟨hn, rfl⟩ := List.getElem?_eq_some_iff.1 hr
    exact ⟨ws[n]'(hlen ▸ hn), List.getElem?_eq_getElem _, hall.get hn (hlen ▸ hn)⟩
  · obtain ⟨⟨h0, h1⟩, hrange, rfl⟩ := (loadData_eq_ok_iff (started_of_configure_ok h)).1 h
    have hlen : (vs.map bv16).length = vs.length := List.length_map _
    rw [← hlen] at h1
    refine ⟨memoryCanonical_setBlock hcanon h0 h1 rfl, fun v hv => (valueInRange_iff v).1 (hrange v hv), fun b => ?_⟩
    rw [wordAt_setBlock hcanon h0 h1 rfl, hlen, List.getElem?_map]
    exact if_congr Iff.rfl (Option.getD_map bv16 0 _) rfl
  · obtain ⟨hin, w, hw, rfl⟩ := (loadInstruction_eq_ok_iff (started_of_configure_ok h)).1 h
    have hwrite := memWrite_of_inBounds s.mem w hin
    exact ⟨w, hw, wf_memWrite hwrite hcanon, Frames.wordAt_of_memWrite hcanon hwrite⟩

/-- Settles O59: accepted blocks store their words, and a block is rejected for its range first, then for the first word
that is not valid. -/
theorem blockLoadsStoreEveryWord : Obligations.BlockLoadsStoreEveryWord := by
  refine ⟨blockLoads_store, fun s a hs => ⟨fun rs => ?_, fun vs => ?_, fun r => ?_⟩,
    fun s a hs => ⟨fun rs _ _ => ⟨fun h => ?_, fun h h' => ?_⟩, fun vs _ _ => ⟨fun h => ?_, fun h h' => ?_⟩,
      fun r w _ h => loadInstruction_eq_bounds hs h⟩,
    fun s a hs h0 => ⟨fun rs r rs' e h1 hall he => ?_, fun vs v vs' h1 hall hv => ?_,
      fun r e h1 he => loadInstruction_eq_error hs ⟨h0, h1⟩ he⟩⟩
  · simp only [bulkLoad_eq_ok_iff hs, ← encodeAll_ok_iff, and_assoc]
    exact ⟨fun ⟨_, h0, h1, ws, hws, _⟩ => ⟨h0, h1, ws, hws⟩, fun ⟨h0, h1, ws, hws⟩ => ⟨_, h0, h1, ws, hws, rfl⟩⟩
  · simp only [loadData_eq_ok_iff hs, ← valueInRange_iff, and_assoc]
    exact ⟨fun ⟨_, h0, h1, h, _⟩ => ⟨h0, h1, h⟩, fun ⟨h0, h1, h⟩ => ⟨_, h0, h1, h, rfl⟩⟩
  · simp only [loadInstruction_eq_ok_iff hs, inBounds_iff, and_assoc]
    exact ⟨fun ⟨_, h0, h1, w, hw, _⟩ => ⟨h0, h1, w, hw⟩, fun ⟨h0, h1, w, hw⟩ => ⟨_, h0, h1, w, hw, rfl⟩⟩
  · exact bulkLoad_eq_bounds hs (blockProblem_of_neg _ h)
  · exact bulkLoad_eq_bounds hs (blockProblem_of_above h h')
  · exact loadData_eq_bounds hs (blockProblem_of_neg _ h)
  · exact loadData_eq_bounds hs (blockProblem_of_above h h')
  · exact bulkLoad_eq_error hs ⟨h0, h1⟩ (encodeAll_error rs' (fun q hq => hall q (List.mem_append_left _ hq)) he)
  · have hbad : valueInRange v = false := by
      rw [← Bool.not_eq_true]
      exact mt (valueInRange_iff v).1 hv
    exact loadData_eq_error hs ⟨h0, h1⟩
      (dataWords_error vs' (fun u hu => (valueInRange_iff u).2 (hall u (List.mem_append_left _ hu))) hbad)

/-! ## The invariants (R242, R246) -/

/-- What configuration keeps for the invariants: the flags, the table and the log, and the stations but for released
ones added at the end. -/
structure Extends (s u : State) : Prop where
  stations : ∃ l, u.stations = s.stations ++ l ∧ ∀ T ∈ l, ∃ d, T = Station.released d ∧ 1 ≤ d.cyclesNeeded
  regStat : u.regStat = s.regStat
  branchPending : u.branchPending = s.branchPending
  jumpPending : u.jumpPending = s.jumpPending
  pendingBranch : u.pendingBranch = s.pendingBranch
  checkpoint : u.checkpoint = s.checkpoint
  nextSeq : u.nextSeq = s.nextSeq
  issued : u.issued = s.issued

/-- The station list as it was is an extension by nothing. -/
theorem extends_of_same_stations {s u : State} (h : u.stations = s.stations) :
    ∃ l, u.stations = s.stations ++ l ∧ ∀ T ∈ l, ∃ d, T = Station.released d ∧ 1 ≤ d.cyclesNeeded :=
  ⟨[], by rw [h, List.append_nil], fun _ hT => absurd hT List.not_mem_nil⟩

theorem extends_of_configure {s t : State} {op : ConfigOp} (h : configure op s = .ok t) : Extends s t := by
  obtain ⟨m, rfl⟩ | ⟨r, v, rfl⟩ | ⟨a, -, rfl⟩ | ⟨d, hd, rfl⟩ := configure_ok_cases h
  · exact ⟨extends_of_same_stations rfl, rfl, rfl, rfl, rfl, rfl, rfl, rfl⟩
  · exact ⟨extends_of_same_stations (by simp), by simp, by simp, by simp, by simp, by simp, by simp, by simp⟩
  · exact ⟨extends_of_same_stations rfl, rfl, rfl, rfl, rfl, rfl, rfl, rfl⟩
  · refine ⟨⟨_, rfl, fun T hT => ⟨_, List.mem_singleton.1 hT, ?_⟩⟩, rfl, rfl, rfl, rfl, rfl, rfl, rfl⟩
    obtain ⟨-, -, hcycles, -⟩ := (specProblem_eq_none_iff _ d).1 hd
    show 1 ≤ d.cyclesNeeded.toNat
    omega

section Extends

variable {s u : State} (h : Extends s u)

include h

theorem extends_holds {j : Nat} {T : Station} (hT : s.holds j T) : u.holds j T := by
  obtain ⟨l, hl, -⟩ := h.stations
  rw [State.holds, hl, List.getElem?_append_left (holds_lt hT)]
  exact hT

/-- A station of the extension is one of before, or a released one. -/
theorem extends_holds_cases {j : Nat} {T : Station} (hT : u.holds j T) :
    s.holds j T ∨ ∃ d, T = Station.released d ∧ 1 ≤ d.cyclesNeeded := by
  obtain ⟨l, hl, hrel⟩ := h.stations
  rw [State.holds, hl] at hT
  by_cases hj : j < s.stations.length
  · rw [List.getElem?_append_left hj] at hT
    exact .inl hT
  · rw [List.getElem?_append_right (by omega)] at hT
    exact .inr (hrel T (List.mem_of_getElem? hT))

theorem extends_holds_busy {j : Nat} {T : Station} (hT : u.holds j T) (hb : T.busy = true) : s.holds j T := by
  obtain hT | ⟨d, rfl, -⟩ := extends_holds_cases h hT
  · exact hT
  · cases hb

/-- What holds of every station before and of every released one that configuration adds holds of every station after. -/
theorem extends_keeps_station {p : Station → Prop} (hs : ∀ S ∈ s.stations, p S)
    (hrel : ∀ d : StationDesc, 1 ≤ d.cyclesNeeded → p (Station.released d)) : ∀ S ∈ u.stations, p S := by
  intro S hS
  obtain ⟨j, hS⟩ := List.mem_iff_getElem?.1 hS
  obtain hS | ⟨d, rfl, hd⟩ := extends_holds_cases h hS
  · exact hs S (holds_mem hS)
  · exact hrel d hd

theorem extends_descends : Descends s u := fun _ T hT hb => ⟨T, extends_holds_busy h hT hb, .refl T⟩

theorem extends_keptAt (j : Nat) : KeptAt s u j := fun T hT => ⟨T, extends_holds h hT, .refl T⟩

theorem engineCoherent_of_extends (hs : EngineCoherent s) : EngineCoherent u :=
  engineCoherent_of_same hs
    (extends_keeps_station h (p := fun S => S.coherent = true) hs.stations fun _ _ => rfl)
    (sequenceUnique_of_descends hs.sequence (extends_descends h) h.nextSeq (by rw [h.issued]))
    (extends_descends h) (extends_keptAt h) h.pendingBranch h.branchPending h.checkpoint h.jumpPending

theorem inFlightLogged_of_extends (hs : InFlightLogged s) : InFlightLogged u :=
  inFlightLogged_of_descends hs (extends_descends h) fun _ _ _ _ _ he _ => h.issued ▸ he

theorem tagsLive_of_extends (hs : TagsLive s) (hc : EngineCoherent s) : TagsLive u := by
  refine tagsLive_of_kept hs (fun _ _ => True) (fun p P i hP _ => extends_keptAt h p P hP.held)
    (fun j T' p hT' hb hq => ⟨T', extends_holds_busy h hT' hb, hb, rfl, hq, fun _ _ => trivial⟩)
    (fun r p hr => ?table) (.inr ⟨h.checkpoint, fun _ _ _ _ => trivial, fun b B' hb hB' => ?saved⟩)
  case table =>
    rw [State.status, h.regStat] at hr
    obtain ⟨P, i, hP, hd⟩ := produces_of_status hs hr
    exact ⟨P, i, hP, hd, trivial⟩
  case saved =>
    rw [h.pendingBranch] at hb
    obtain ⟨B, hB, -⟩ := hc.branch.held b hb
    exact ⟨B, hb, hB, congrArg Station.seq (holds_unique hB' (extends_holds h hB))⟩

end Extends

theorem memoryCanonical_configure {s t : State} {op : ConfigOp} (hs : MemoryCanonical s)
    (h : configure op s = .ok t) : MemoryCanonical t := by
  have hstart := started_of_configure_ok h
  cases op with
  | bulkLoad a rs =>
    obtain ⟨ws, -, -, hcanon, -⟩ := (blockLoads_store s t a hs).1 rs h
    exact hcanon
  | loadData a vs => exact ((blockLoads_store s t a hs).2.1 vs h).1
  | loadInstruction a r =>
    obtain ⟨w, -, hcanon, -⟩ := (blockLoads_store s t a hs).2.2 r h
    exact hcanon
  | addStation d =>
    rw [configure_addStation hstart, addStation] at h
    split at h <;> cases h
    exact hs
  | setPC a =>
    rw [configure_setPC hstart, setPC] at h
    split at h <;> cases h
    exact hs
  | setRegister r v =>
    rw [configure_setRegister hstart, setRegister] at h
    split at h
    next =>
      split at h <;> cases h
      rwa [MemoryCanonical, writeReg_mem]
    next => cases h

theorem zeroRegister_configure {s t : State} {op : ConfigOp} (hs : ZeroRegister s) (h : configure op s = .ok t) :
    ZeroRegister t := by
  obtain ⟨hreg, hstat, hsaved⟩ := hs
  have hext := extends_of_configure h
  refine ⟨?_, by rwa [State.status, hext.regStat], by rwa [hext.checkpoint]⟩
  obtain ⟨m, rfl⟩ | ⟨r, v, rfl⟩ | ⟨a, -, rfl⟩ | ⟨d, -, rfl⟩ := configure_ok_cases h
  · exact hreg
  · rw [writeReg_reg]
    split
    next => exact hreg
    next hr => rwa [Bank.get_set_ne _ _ (Ne.symm hr)]
  · exact hreg
  · exact hreg

/-- Settles O60: a refused operation changes nothing, and an accepted one only extends the station list. -/
theorem configurationKeepsTheInvariants : Obligations.ConfigurationKeepsTheInvariants := by
  intro s op hcanon hzero hfree hcoh hlat hcount hlog htags
  unfold configured
  split
  next t h =>
    have hext := extends_of_configure h
    exact ⟨memoryCanonical_configure hcanon h, zeroRegister_configure hzero h,
      extends_keeps_station hext hfree fun _ _ _ => rfl, engineCoherent_of_extends hext hcoh,
      extends_keeps_station hext hlat fun _ hd => hd, extends_keeps_station hext hcount (fun _ _ hb => nomatch hb),
      inFlightLogged_of_extends hext hlog, tagsLive_of_extends hext htags hcoh⟩
  next => exact ⟨hcanon, hzero, hfree, hcoh, hlat, hcount, hlog, htags⟩

end Sys2Proof.Proofs.Configuration

/-! SUPPORT. An instruction alone in the engine: the states that a run passes through from its issue to its completion
(40_pipeline.md R137). -/

namespace Sys2Proof.Proofs.LoneRuns

open Machine Phases WholeMachine CycleParts ExecuteParts IssueParts LocalInvariants

/-! ## Several steps -/

theorem andThen_next_right (o : Result State Fault Refusal) : andThen o .next = o := by
  cases o <;> rfl

theorem andThen_assoc (o : Result State Fault Refusal) (f g : State → Result State Fault Refusal) :
    andThen (andThen o f) g = andThen o fun s => andThen (f s) g := by
  cases o <;> rfl

/-- A run of one step more, with that step at its end. -/
theorem stepN_succ_last (n : Nat) (s : State) : stepN (n + 1) s = andThen (stepN n s) step := by
  induction n generalizing s with
  | zero => exact andThen_next_right (step s)
  | succ n ih =>
    rw [stepN, stepN, andThen_assoc]
    exact congrArg (andThen (step s)) (funext ih)

/-! ## One busy station -/

/-- `u` with `T` in station `k`, in cycle `c`. -/
def withLone (u : State) (k : Nat) (T : Station) (c : Nat) : State :=
  { u with cycle := c, stations := u.stations.set k T }

/-- Every station of `u` but station `k` is free, and Issue stalls behind the instruction in station `k`. -/
structure Alone (u : State) (k : Nat) : Prop where
  lt : k < u.stations.length
  others : ∀ j T, j ≠ k → u.holds j T → T.busy = false
  started : u.started = true
  turn : u.turn = .issue
  unfaulted : u.fault = none
  branch : u.branchPending = false ∨ u.pendingBranch = some k
  stalls : u.jumpPending = true ∨ inBounds u.pc = true ∧ u.mem.get u.pc.toNat = 0

/-- `T` holds `i` with both operands ready. -/
structure InFlight (i : Instr) (T : Station) : Prop where
  busy : T.busy = true
  op : T.op = some i.opcode
  instr : T.instr = some i
  qj : T.qj = none
  qk : T.qk = none

section Alone

variable {u : State} {k : Nat} (h : Alone u k)

include h

theorem withLone_holds (T : Station) (c : Nat) : (withLone u k T c).holds k T := by
  simp [State.holds, withLone, h.lt]

/-- The one station that can be busy is station `k`. -/
theorem holds_of_busy_withLone {T X : Station} {c j : Nat} (hX : (withLone u k T c).holds j X) (hb : X.busy = true) :
    j = k ∧ X = T := by
  by_cases hj : j = k
  · subst hj
    exact ⟨rfl, holds_unique hX (withLone_holds h T c)⟩
  · rw [State.holds, withLone, List.getElem?_set_ne (Ne.symm hj)] at hX
    rw [h.others j X hj hX] at hb
    cases hb

theorem begin_withLone (T : Station) (c : Nat) :
    beginCycle (withLone u k T c) = withLone u k T.advanced (c + 1) := by
  have hmap : (u.stations.set k T).map Station.advanced = u.stations.set k T.advanced := by
    refine List.ext_getElem? fun j => ?_
    rw [List.getElem?_map]
    by_cases hj : j = k
    · subst hj
      simp [h.lt]
    · rw [List.getElem?_set_ne (Ne.symm hj), List.getElem?_set_ne (Ne.symm hj)]
      cases hX : u.stations[j]? with
      | none => rfl
      | some X => exact congrArg some (advanced_of_free (h.others j X hj hX))
  simp only [beginCycle, cycleAdvance, withLone, hmap, h.started, h.turn]

/-- A step of a lone instruction is its Execute phase and Writeback. -/
theorem step_withLone (T : Station) (c : Nat) :
    step (withLone u k T c) = finishCycle (withLone u k T.advanced (c + 1)) := by
  rw [← begin_withLone h]
  refine step_of_stall h.unfaulted ?_
  obtain hjump | ⟨hpc, hword⟩ := h.stalls
  · exact issuePhase_of_jumpPending hjump
  · exact issuePhase_of_empty hpc hword

/-- A visit puts the turn back to Issue, where it was. -/
theorem withTurn_withLone (T : Station) (c : Nat) (x : Turn) :
    ((withLone u k T c).withTurn x).withTurn .issue = withLone u k T c := by
  simp only [State.withTurn, withLone, ← h.turn]

theorem blocked_withLone (T : Station) (c : Nat) : blocked (withLone u k T c) k T = false := by
  unfold blocked speculative
  obtain hb | hb := h.branch
  · rw [show (withLone u k T c).branchPending = false from hb]
    split <;> rfl
  · have hT := withLone_holds h T c
    rw [State.holds] at hT
    rw [show (withLone u k T c).pendingBranch = some k from hb]
    split
    · simp [hT]
    · simp

end Alone

/-- The scan of the stations finds station `k` alone. -/
theorem busyFrom_set {l : List Station} {k : Nat} {T : Station} (hk : k < l.length)
    (h : ∀ j X, j ≠ k → l[j]? = some X → X.busy = false) (hb : T.busy = true) (n : Nat) :
    busyFrom n (l.set k T) = [(T.seq, n + k)] := by
  induction l generalizing k n with
  | nil => cases hk
  | cons Y rest ih =>
    cases k with
    | zero =>
      have hrest : ∀ X ∈ rest, X.busy = false := fun X hX =>
        have ⟨j, hj⟩ := List.mem_iff_getElem?.1 hX
        h (j + 1) X (by omega) hj
      rw [List.set_cons_zero, busyFrom, if_pos hb, busyFrom_of_free hrest, Nat.add_zero]
    | succ k =>
      have hY : Y.busy = false := h 0 Y (by omega) rfl
      rw [List.set_cons_succ, busyFrom, if_neg (by simp [hY]),
        ih (by simpa using hk) (fun j X hj hX => h (j + 1) X (by omega) hX), show n + 1 + k = n + (k + 1) by omega]

theorem finishCycle_withLone {u : State} {k : Nat} (h : Alone u k) {i : Instr} {T : Station} (hT : InFlight i T)
    (c : Nat) : finishCycle (withLone u k T c) =
      andThen (exec i ((withLone u k T c).withTurn (.execute k))) fun v => .next (writeback (v.withTurn .issue)) := by
  have horder : visitOrder (withLone u k T c) = [(T.seq, k)] := by
    rw [visitOrder, withLone, busyFrom_set h.lt h.others hT.busy, Nat.zero_add]
    rfl
  have hvisit := stepRunsTheDecodedInstruction.2 (withLone u k T c) k T i (withLone_holds h T c) hT.busy hT.instr hT.op
    hT.qj hT.qk (blocked_withLone h T c)
  rw [finishCycle, executePhase, horder, visitAll, show visitAll [] = Host.Outcome.next from funext fun _ => rfl,
    andThen_next_right, hvisit, andThen_assoc]
  rfl

/-- The bus carries nothing for a lone station that has no result past its threshold (R132). -/
theorem writeback_withLone {u : State} {k : Nat} (h : Alone u k) {T : Station} {c : Nat}
    (hT : T.result = none ∨ T.cyclesPassed ≤ T.desc.cyclesNeeded) :
    writeback (withLone u k T c) = withLone u k T c := by
  obtain hw | ⟨b, hb, -⟩ := writeback_cases (withLone u k T c)
  · exact hw
  · obtain ⟨-, -, S, hS, hbusy, -, hlt, hr⟩ := cdb_some hb
    obtain ⟨-, rfl⟩ := holds_of_busy_withLone h hS hbusy
    obtain hnone | hle := hT
    · rw [hnone] at hr
      cases hr
    · omega

/-! ## Counting up to the threshold (R112, R128, R150) -/

/-- A station after a visit that is not due: a LOAD or STORE has run its address phase, if that was due. -/
def visited (i : Instr) (T : Station) : Station :=
  if i.opcode = .load ∨ i.opcode = .store then (addressPhase T).getD T else T

theorem visited_of_access {i : Instr} (hop : i.opcode = .load ∨ i.opcode = .store) {T : Station} {base : Word}
    (hbase : T.vj = some base) : visited i T = addressed T base := by
  rw [visited, if_pos hop, addressPhase_eq hbase]
  rfl

theorem visited_of_not_access {i : Instr} (hop : ¬ (i.opcode = .load ∨ i.opcode = .store)) (T : Station) :
    visited i T = T := if_neg hop

/-- A visit that is not due changes `A` and `addrReady` only. -/
theorem visited_fields (i : Instr) (T : Station) : InFlight i T → InFlight i (visited i T) ∧
    (visited i T).desc = T.desc ∧ (visited i T).seq = T.seq ∧ (visited i T).result = T.result ∧
      (visited i T).cyclesPassed = T.cyclesPassed ∧ (visited i T).vj = T.vj ∧ (visited i T).vk = T.vk := by
  intro hT
  unfold visited
  split
  next =>
    cases hA : addressPhase T with
    | none => exact ⟨hT, rfl, rfl, rfl, rfl, rfl, rfl⟩
    | some A =>
      obtain ⟨hdesc, hbusy, hop, hinstr, hseq, hresult, hcycles, hvj, hvk, hqj, hqk⟩ := addressPhase_fields hA
      exact ⟨⟨hbusy.trans hT.busy, hop.trans hT.op, hinstr.trans hT.instr, hqj.trans hT.qj, hqk.trans hT.qk⟩, hdesc,
        hseq, hresult, hcycles, hvj, hvk⟩
  next => exact ⟨hT, rfl, rfl, rfl, rfl, rfl, rfl⟩

theorem addressed_vj {T : Station} {base : Word} (hv : T.vj = some base) : (addressed T base).vj = some base := by
  obtain ⟨-, -, -, -, -, -, -, hvj, -⟩ := addressPhase_fields (addressPhase_eq hv)
  exact hvj.trans hv

theorem addressed_of_due {T : Station} (hT : T.addrReady = false) (h : addrThreshold T ≤ T.cyclesPassed) (base : Word) :
    addressed T base = { T with a := effectiveAddress base T.a, addrReady := true } := by
  rw [addressed, addressDue, hT, decide_eq_true h]
  rfl

theorem addressed_of_waiting {T : Station} (h : ¬ addrThreshold T ≤ T.cyclesPassed) (base : Word) :
    addressed T base = T := by
  rw [addressed, addressDue, decide_eq_false h, Bool.and_false]
  rfl

theorem addressed_of_addrReady {T : Station} (hT : T.addrReady = true) (base : Word) : addressed T base = T := by
  rw [addressed, addressDue, hT]
  rfl

/-- The address phase once due is the same whether it ran a cycle ago or runs now (R150). -/
theorem addressed_succ {T : Station} (hT : T.addrReady = false) (base : Word) (m : Nat) :
    addressed { addressed { T with cyclesPassed := m } base with cyclesPassed := m + 1 } base =
      addressed { T with cyclesPassed := m + 1 } base := by
  by_cases hm : addrThreshold T ≤ m
  · rw [addressed_of_due (T := { T with cyclesPassed := m }) hT hm,
      addressed_of_due (T := { T with cyclesPassed := m + 1 }) hT (hm.trans (Nat.le_succ m))]
    exact addressed_of_addrReady rfl base
  · rw [addressed_of_waiting (T := { T with cyclesPassed := m }) hm]

theorem visited_succ {i : Instr} {T : Station} (hT : T.addrReady = false)
    (hbase : i.opcode = .load ∨ i.opcode = .store → ∃ base, T.vj = some base) (m : Nat) :
    visited i { visited i { T with cyclesPassed := m } with cyclesPassed := m + 1 } =
      visited i { T with cyclesPassed := m + 1 } := by
  by_cases hop : i.opcode = .load ∨ i.opcode = .store
  · obtain ⟨base, hv⟩ := hbase hop
    have hv' := addressed_vj (T := { T with cyclesPassed := m }) hv
    rw [visited_of_access (T := { T with cyclesPassed := m }) hop hv,
      visited_of_access (T := { addressed { T with cyclesPassed := m } base with cyclesPassed := m + 1 }) hop hv',
      visited_of_access (T := { T with cyclesPassed := m + 1 }) hop hv]
    exact addressed_succ hT base m
  · simp only [visited_of_not_access hop]

section Waits

variable {u : State} {k : Nat} (h : Alone u k) {i : Instr} {T : Station}
  (hbase : i.opcode = .load ∨ i.opcode = .store → ∃ base, T.vj = some base)

include h hbase

/-- A visit that is not due leaves the lone station visited. -/
theorem exec_waits (hdue : T.cyclesPassed ≠ T.desc.cyclesNeeded) (c : Nat) :
    exec i ((withLone u k T c).withTurn (.execute k)) = .next ((withLone u k (visited i T) c).withTurn (.execute k)) := by
  obtain ⟨hstays, -, hphase, -⟩ := executeWaitsUntilDue i ((withLone u k T c).withTurn (.execute k)) k T rfl (withLone_holds h T c)
  by_cases hop : i.opcode = .load ∨ i.opcode = .store
  · obtain ⟨base, hv⟩ := hbase hop
    rw [hphase base hv hop hdue, visited_of_access hop hv]
    simp only [State.setStation, State.withTurn, withLone, List.set_set]
  · rw [hstays (fun hl => hop (.inl hl)) (fun hs => hop (.inr hs)) hdue, visited_of_not_access hop]

theorem finishCycle_waits (hT : InFlight i T) (hdue : T.cyclesPassed ≠ T.desc.cyclesNeeded)
    (hresult : T.result = none) (c : Nat) :
    finishCycle (withLone u k T c) = .next (withLone u k (visited i T) c) := by
  obtain ⟨-, -, -, hresult', -⟩ := visited_fields i T hT
  rw [finishCycle_withLone h hT, exec_waits h hbase hdue, andThen_next, withTurn_withLone h,
    writeback_withLone h (.inl (hresult'.trans hresult))]

end Waits

/-- A ready station below its threshold, or with a result, counts (R112). -/
theorem advanced_of_inFlight {i : Instr} {T : Station} (hT : InFlight i T)
    (hc : T.cyclesPassed < T.desc.cyclesNeeded ∨ T.result ≠ none) :
    T.advanced = { T with cyclesPassed := T.cyclesPassed + 1 } := by
  rw [Pipeline.advanced_eq, if_pos ((Pipeline.counts_iff T).2 ⟨hT.busy, hT.qj, hT.qk, hc⟩)]

section Counting

variable {u : State} {k : Nat} (h : Alone u k) {i : Instr} {N : Station} (hN : InFlight i N)

include h hN

/-- A step from below the threshold counts one cycle; what is then due is left to Execute. -/
theorem step_counts {m : Nat} (hm : m < N.desc.cyclesNeeded) (c : Nat) :
    step (withLone u k (visited i { N with cyclesPassed := m }) c) =
      finishCycle (withLone u k { visited i { N with cyclesPassed := m } with cyclesPassed := m + 1 } (c + 1)) := by
  obtain ⟨hfly, hdesc, -, -, hcycles, -⟩ := visited_fields i { N with cyclesPassed := m }
    ⟨hN.busy, hN.op, hN.instr, hN.qj, hN.qk⟩
  rw [step_withLone h, advanced_of_inFlight hfly (.inl (by rw [hcycles, hdesc]; exact hm)), hcycles]

/-- Below the threshold, `m` steps count `m` cycles. -/
theorem stepN_counts (hbase : i.opcode = .load ∨ i.opcode = .store → ∃ base, N.vj = some base)
    (haddr : N.addrReady = false) (hresult : N.result = none) {m : Nat} (hm : m < N.desc.cyclesNeeded) (c : Nat) :
    stepN m (withLone u k (visited i { N with cyclesPassed := 0 }) c) =
      .next (withLone u k (visited i { N with cyclesPassed := m }) (c + m)) := by
  induction m with
  | zero => rfl
  | succ m ih =>
    obtain ⟨hfly, hdesc, -, hres, -, hvj, -⟩ := visited_fields i { N with cyclesPassed := m }
      ⟨hN.busy, hN.op, hN.instr, hN.qj, hN.qk⟩
    rw [stepN_succ_last, ih (by omega), andThen_next, step_counts h hN (by omega),
      finishCycle_waits h (T := { visited i { N with cyclesPassed := m } with cyclesPassed := m + 1 })
        (fun hop => by rw [hvj]; exact hbase hop) ⟨hfly.busy, hfly.op, hfly.instr, hfly.qj, hfly.qk⟩
        (by rw [hdesc]; exact hm.ne) (hres.trans hresult), visited_succ haddr hbase]
    rfl

end Counting

/-! ## From the issue to the threshold -/

/-- The engine at the start of its next cycle, when no station is busy. -/
def cycleStart (s : State) : State := { s with started := true, cycle := s.cycle + 1, turn := .issue }

/-- The engine after the issue of `i` into station `k`, and the station. -/
def issuedState (s : State) (i : Instr) (k : Nat) (S : Station) : State := issuedInto i k S (cycleStart s)

def issuedStation (s : State) (i : Instr) (S : Station) : Station :=
  issueFill i (cycleStart s) (S.occupied (cycleStart s) i)

/-- The station when its completion is due: `cyclesNeeded` cycles counted, and visited in each but the last. -/
def dueStation (s : State) (i : Instr) (S : Station) : Station :=
  { visited i { issuedStation s i S with cyclesPassed := S.desc.cyclesNeeded - 1 } with
    cyclesPassed := S.desc.cyclesNeeded }

theorem quiescent_iff (s : State) : quiescent s = true ↔
    (∀ S ∈ s.stations, S.busy = false) ∧ s.branchPending = false ∧ s.jumpPending = false := by
  simp [quiescent, and_assoc]

/-- Every latency that R241 accepts is at least one cycle. -/
theorem latencies_of_wf {d : StationDesc} (h : d.wf = true) :
    1 ≤ d.cyclesNeeded ∧ ∀ n, d.addrCycles = some n → 1 ≤ n ∧ n ≤ d.cyclesNeeded := by
  simp only [StationDesc.wf, Bool.and_eq_true, decide_eq_true_eq] at h
  obtain ⟨⟨⟨-, hneed⟩, -⟩, haddr⟩ := h
  refine ⟨hneed, fun n hn => ?_⟩
  rw [hn] at haddr
  simpa using haddr

section AboutToRun

variable {s : State} {i : Instr} {k : Nat} {S : Station} (h : AboutToRun s i k S)

include h

theorem inFlight_issuedStation : InFlight i (issuedStation s i S) := by
  obtain ⟨-, hbusy, hop, hinstr, -⟩ := issueFill_fields i S (cycleStart s)
  have hcap : ∀ r, (capture (cycleStart s) r).2 = none := fun r =>
    congrArg Prod.snd (capture_of_committed (h.committed r))
  refine ⟨hbusy, hop, hinstr, ?_, ?_⟩
  · cases i with
    | call | ret => rfl
    | load | store | beq | add | sub | nor | mul => exact hcap _
  · cases i with
    | load | call | ret => rfl
    | store | beq | add | sub | nor | mul => exact hcap _

/-- A LOAD or STORE that issues with every register committed has its base. -/
theorem base_issuedStation (hop : i.opcode = .load ∨ i.opcode = .store) :
    ∃ base, (issuedStation s i S).vj = some base := by
  have hcap : ∀ r, (capture (cycleStart s) r).1 = some (s.readReg r) := fun r =>
    congrArg Prod.fst (capture_of_committed (h.committed r))
  cases i with
  | load | store => exact ⟨_, hcap _⟩
  | beq | call | ret | add | sub | nor | mul => obtain hop | hop := hop <;> cases hop

theorem alone_issuedState (hstall : isJump i.opcode = true ∨ EmptyNext s) : Alone (issuedState s i k S) k := by
  obtain ⟨hfree, hbranch, -⟩ := (quiescent_iff s).1 h.quiet
  obtain ⟨hS, -⟩ := firstFree_some h.free
  refine ⟨?lt, fun j T hj hT => ?others, ?started, ?turn, ?fault, ?branch, ?stalls⟩
  case lt => rw [issuedState, issuedInto_stations, List.length_set]; exact holds_lt hS
  case others =>
    rw [State.holds, issuedState, issuedInto_stations, List.getElem?_set_ne hj.symm] at hT
    exact hfree T (List.mem_of_getElem? hT)
  case started => rw [issuedState, issuedInto_started]; rfl
  case turn => rw [issuedState, issuedInto_turn]; rfl
  case fault => rw [issuedState, issuedInto_fault]; exact h.unfaulted
  case branch =>
    rw [issuedState, issuedInto_branchPending, issuedInto_pendingBranch]
    by_cases hbeq : i.opcode = .beq
    · exact .inr (if_pos hbeq)
    · exact .inl (by rw [decide_eq_false hbeq, Bool.false_or]; exact hbranch)
  case stalls =>
    rw [issuedState, issuedInto_jumpPending, issuedInto_pc, issuedInto_mem]
    exact hstall.imp (fun hj => by rw [hj]; rfl) id

/-- The first step issues the instruction and visits it. -/
theorem step_issues : step s =
    finishCycle (withLone (issuedState s i k S) k (issuedStation s i S) (s.cycle + 1)) := by
  obtain ⟨hfree, hbranch, hjump⟩ := (quiescent_iff s).1 h.quiet
  have hissue : issuePhase (cycleStart s) = .next (issuedState s i k S) :=
    (issuePhase_of_fetch_instr (s := cycleStart s) hjump h.fetched).trans
      (exec_issue_eq rfl ⟨fun _ => hbranch, fun _ => .inr (h.committed 1)⟩ h.free)
  have hstate : withLone (issuedState s i k S) k (issuedStation s i S) (s.cycle + 1) = issuedState s i k S := by
    have hset : (issuedState s i k S).stations.set k (issuedStation s i S) = (issuedState s i k S).stations := by
      rw [issuedState, issuedInto_stations, issuedStation, List.set_set]
    have hcycle : s.cycle + 1 = (issuedState s i k S).cycle := by rw [issuedState, issuedInto_cycle]; rfl
    rw [withLone, hset, hcycle]
  rw [step_of_unfaulted h.unfaulted, runCycle, beginCycle_of_free hfree,
    show issuePhase { s with started := true, cycle := s.cycle + 1, turn := .issue } = _ from hissue, andThen_next,
    hstate]

/-- At its issue nothing is due: every latency is at least one cycle. -/
theorem visited_issuedStation :
    visited i { issuedStation s i S with cyclesPassed := 0 } = issuedStation s i S := by
  obtain ⟨hdesc, -, -, -, -, -, hcycles⟩ := issueFill_fields i S (cycleStart s)
  have hself : { issuedStation s i S with cyclesPassed := 0 } = issuedStation s i S := by
    rw [← show (issuedStation s i S).cyclesPassed = 0 from hcycles]
  rw [hself]
  by_cases hop : i.opcode = .load ∨ i.opcode = .store
  · obtain ⟨base, hv⟩ := base_issuedStation h hop
    obtain ⟨hneed, haddr⟩ := latencies_of_wf h.desc
    have hpos : 0 < addrThreshold (issuedStation s i S) := by
      rw [addrThreshold, show (issuedStation s i S).desc = S.desc from hdesc]
      cases hA : S.desc.addrCycles with
      | none => exact hneed
      | some n => exact (haddr n hA).1
    rw [visited_of_access hop hv, addressed_of_waiting]
    rw [show (issuedStation s i S).cyclesPassed = 0 from hcycles]
    omega
  · exact visited_of_not_access hop _

/-- After `cyclesNeeded` steps more than the issue's cycle, the completion is due. -/
theorem stepN_until_due (hstall : isJump i.opcode = true ∨ EmptyNext s) :
    stepN (S.desc.cyclesNeeded + 1) s =
      finishCycle (withLone (issuedState s i k S) k (dueStation s i S) (s.cycle + S.desc.cyclesNeeded + 1)) := by
  have halone := alone_issuedState h hstall
  have hfly := inFlight_issuedStation h
  obtain ⟨hdesc, -, -, -, -, hresult, hcycles⟩ := issueFill_fields i S (cycleStart s)
  obtain ⟨-, haddr⟩ := Pipeline.issueFill_originalPC_addrReady i (cycleStart s) S
  obtain ⟨hneed, -⟩ := latencies_of_wf h.desc
  have hL : (issuedStation s i S).desc.cyclesNeeded = S.desc.cyclesNeeded := congrArg _ hdesc
  have hfirst : step s =
      .next (withLone (issuedState s i k S) k (visited i { issuedStation s i S with cyclesPassed := 0 }) (s.cycle + 1)) := by
    have hself := visited_issuedStation h
    have hdue : (issuedStation s i S).cyclesPassed ≠ (issuedStation s i S).desc.cyclesNeeded := by
      rw [hL, show (issuedStation s i S).cyclesPassed = 0 from hcycles]
      omega
    rw [step_issues h, finishCycle_waits halone (base_issuedStation h) hfly hdue hresult]
    rw [← show (issuedStation s i S).cyclesPassed = 0 from hcycles]
  obtain ⟨m, hm⟩ : ∃ m, S.desc.cyclesNeeded = m + 1 := ⟨S.desc.cyclesNeeded - 1, by omega⟩
  rw [stepN_succ_last, hm, stepN, hfirst, andThen_next,
    stepN_counts halone hfly (base_issuedStation h) haddr hresult (by omega), andThen_next,
    step_counts halone hfly (by omega), dueStation, hm]
  rw [show s.cycle + 1 + m + 1 = s.cycle + (m + 1) + 1 by omega]
  rfl

/-- The station whose completion is due. -/
theorem dueStation_fields : InFlight i (dueStation s i S) ∧ (dueStation s i S).desc = S.desc ∧
    (dueStation s i S).seq = s.nextSeq ∧ (dueStation s i S).result = none ∧
    (dueStation s i S).vj = (issuedStation s i S).vj ∧ (dueStation s i S).vk = (issuedStation s i S).vk ∧
    (dueStation s i S).cyclesPassed = (dueStation s i S).desc.cyclesNeeded := by
  obtain ⟨hdesc, -, -, -, hseq, hresult, -⟩ := issueFill_fields i S (cycleStart s)
  have hfly := inFlight_issuedStation h
  obtain ⟨hfly', hdesc', hseq', hresult', -, hvj, hvk⟩ := visited_fields i
    { issuedStation s i S with cyclesPassed := S.desc.cyclesNeeded - 1 } ⟨hfly.busy, hfly.op, hfly.instr, hfly.qj, hfly.qk⟩
  exact ⟨⟨hfly'.busy, hfly'.op, hfly'.instr, hfly'.qj, hfly'.qk⟩, hdesc'.trans hdesc, hseq'.trans hseq,
    hresult'.trans hresult, hvj, hvk, (congrArg StationDesc.cyclesNeeded (hdesc'.trans hdesc)).symm⟩

end AboutToRun

end Sys2Proof.Proofs.LoneRuns

/-! SUPPORT. What an instruction alone in the engine leaves, instruction by instruction (40_pipeline.md R137). -/

namespace Sys2Proof.Proofs.LoneInstructions

open Machine Phases WholeMachine CycleParts ExecuteParts IssueParts Frames LoneRuns

/-! ## The state in which the completion is due -/

/-- The state that Execute reads when the completion of the lone instruction is due. -/
def dueState (s : State) (i : Instr) (k : Nat) (S : Station) : State :=
  (withLone (issuedState s i k S) k (dueStation s i S) (s.cycle + S.desc.cyclesNeeded + 1)).withTurn (.execute k)

section DueState

variable (s : State) (i : Instr) (k : Nat) (S : Station)

@[simp] theorem dueState_stations : (dueState s i k S).stations =
    (issuedState s i k S).stations.set k (dueStation s i S) := rfl
@[simp] theorem dueState_mem : (dueState s i k S).mem = s.mem := issuedInto_mem i k S (cycleStart s)
@[simp] theorem dueState_reg : (dueState s i k S).reg = s.reg := issuedInto_reg i k S (cycleStart s)
@[simp] theorem dueState_regStat : (dueState s i k S).regStat = renamed (destOf i) k s.regStat :=
  issuedInto_regStat i k S (cycleStart s)
@[simp] theorem dueState_pc : (dueState s i k S).pc = s.pc + 1 := issuedInto_pc i k S (cycleStart s)
@[simp] theorem dueState_executed : (dueState s i k S).executed = s.executed := issuedInto_executed i k S (cycleStart s)
@[simp] theorem dueState_writtenBack : (dueState s i k S).writtenBack = s.writtenBack :=
  issuedInto_writtenBack i k S (cycleStart s)
@[simp] theorem dueState_mispredictions : (dueState s i k S).mispredictions = s.mispredictions :=
  issuedInto_mispredictions i k S (cycleStart s)
@[simp] theorem dueState_branchesIssued : (dueState s i k S).branchesIssued =
    if i.opcode = .beq then s.branchesIssued + 1 else s.branchesIssued := issuedInto_branchesIssued i k S (cycleStart s)
@[simp] theorem dueState_checkpoint : (dueState s i k S).checkpoint =
    if i.opcode = .beq then some s.regStat else s.checkpoint := issuedInto_checkpoint i k S (cycleStart s)
@[simp] theorem dueState_branchPending : (dueState s i k S).branchPending = (decide (i.opcode = .beq) || s.branchPending) :=
  issuedInto_branchPending i k S (cycleStart s)
@[simp] theorem dueState_jumpPending : (dueState s i k S).jumpPending = (isJump i.opcode || s.jumpPending) :=
  issuedInto_jumpPending i k S (cycleStart s)
@[simp] theorem dueState_readReg (r : RegIdx) : (dueState s i k S).readReg r = s.readReg r := by
  rw [State.readReg, dueState_reg, State.readReg]
@[simp] theorem dueState_status (r : RegIdx) :
    (dueState s i k S).status r = if destOf i = some r ∧ r ≠ 0 then some k else s.status r :=
  Pipeline.issuedInto_status i k S (cycleStart s) r

end DueState

/-- Without an address phase, `A` stays what Issue put there. -/
theorem dueStation_target (s : State) (i : Instr) (S : Station) (hop : ¬ (i.opcode = .load ∨ i.opcode = .store)) :
    (dueStation s i S).a = (issuedStation s i S).a ∧ (dueStation s i S).originalPC = s.pc := by
  obtain ⟨hpc, -⟩ := Pipeline.issueFill_originalPC_addrReady i (cycleStart s) S
  rw [dueStation, visited_of_not_access hop]
  exact ⟨rfl, hpc⟩

/-- The address phase has run by the threshold (R150). -/
theorem addressed_dueStation {s : State} {i : Instr} {k : Nat} {S : Station} (h : AboutToRun s i k S)
    (hop : i.opcode = .load ∨ i.opcode = .store) {base : Word}
    (hbase : (issuedStation s i S).vj = some base) :
    addressed (dueStation s i S) base = { issuedStation s i S with
      cyclesPassed := S.desc.cyclesNeeded
      a := effectiveAddress base (issuedStation s i S).a
      addrReady := true } := by
  obtain ⟨hdesc, -⟩ := issueFill_fields i S (cycleStart s)
  have haddr : (issuedStation s i S).addrReady = false :=
    (Pipeline.issueFill_originalPC_addrReady i (cycleStart s) S).2
  obtain ⟨hneed, hphase⟩ := latencies_of_wf h.desc
  obtain ⟨m, hm⟩ : ∃ m, S.desc.cyclesNeeded = m + 1 := ⟨S.desc.cyclesNeeded - 1, by omega⟩
  have hdue : addrThreshold (issuedStation s i S) ≤ m + 1 := by
    rw [addrThreshold, show (issuedStation s i S).desc = S.desc from hdesc, ← hm]
    cases hA : S.desc.addrCycles with
    | none => exact le_rfl
    | some n => exact (hphase n hA).2
  rw [dueStation, hm, Nat.add_sub_cancel, visited_of_access (T := { issuedStation s i S with cyclesPassed := m }) hop hbase,
    addressed_succ (T := issuedStation s i S) haddr,
    addressed_of_due (T := { issuedStation s i S with cyclesPassed := m + 1 }) haddr hdue]

/-- A captured operand of a committed register is its value (R120). -/
theorem capture_cycleStart {s : State} {i : Instr} {k : Nat} {S : Station} (h : AboutToRun s i k S) (r : RegIdx) :
    (capture (cycleStart s) r).1 = some (s.readReg r) := congrArg Prod.fst (capture_of_committed (h.committed r))

theorem status_dueState {s : State} {i : Instr} {k : Nat} {S : Station} (h : AboutToRun s i k S)
    (hdest : destOf i = none) (r : RegIdx) : (dueState s i k S).status r = none := by
  rw [dueState_status, hdest, if_neg (by simp)]
  exact h.committed r

/-- The entry of the completion in a log (R39). -/
theorem append_dueEntry {s : State} {i : Instr} {k : Nat} {S : Station} (h : AboutToRun s i k S) {l l' : List Entry}
    (hl : l = l') :
    l ++ [{ seq := (dueStation s i S).seq, instr := i, cycle := (dueState s i k S).cycle, station := k }] =
      l' ++ [s.loneEntry i k (s.cycle + S.desc.cyclesNeeded + 1)] := by
  obtain ⟨-, -, hseq, -⟩ := dueStation_fields h
  rw [hseq, hl]
  rfl

section AboutToRun

variable {s : State} {i : Instr} {k : Nat} {S : Station} (h : AboutToRun s i k S)
  (hstall : isJump i.opcode = true ∨ EmptyNext s)

include h hstall

theorem dueState_holds : (dueState s i k S).holds k (dueStation s i S) :=
  withLone_holds (alone_issuedState h hstall) _ s.cycle

/-- The completion's Execute part and the Writeback after it end the run to the threshold. -/
theorem stepN_of_completion {v : State} (hexec : exec i (dueState s i k S) = .next v) :
    stepN (S.desc.cyclesNeeded + 1) s = .next (writeback (v.withTurn .issue)) := by
  obtain ⟨hfly, -⟩ := dueStation_fields h
  rw [stepN_until_due h hstall, finishCycle_withLone (alone_issuedState h hstall) hfly,
    show exec i ((withLone _ _ _ _).withTurn (.execute k)) = _ from hexec]
  rfl

/-- A completion that releases its station leaves nothing for the bus. -/
theorem stepN_of_release {v : State} (hexec : exec i (dueState s i k S) = .next v)
    (hfree : ∀ X ∈ v.stations, X.busy = false) :
    stepN (S.desc.cyclesNeeded + 1) s = .next (v.withTurn .issue) := by
  rw [stepN_of_completion h hstall hexec, writeback_of_free (s := v.withTurn .issue) hfree]

/-- Every station but station `k` is free. -/
theorem free_of_ne {j : Nat} {X : Station} (hj : j ≠ k) (hX : (dueState s i k S).holds j X) : X.busy = false :=
  Bool.eq_false_iff.2 fun hb => hj (holds_of_busy_withLone (alone_issuedState h hstall) (c := s.cycle) hX hb).1

theorem free_of_release (d : StationDesc) :
    ∀ X ∈ (dueState s i k S).stations.set k (Station.released d), X.busy = false := by
  intro X hX
  obtain ⟨j, hj⟩ := List.mem_iff_getElem?.1 hX
  by_cases hk : j = k
  · subst hk
    rw [List.getElem?_set_self (holds_lt (dueState_holds h hstall))] at hj
    obtain rfl := Option.some.inj hj
    rfl
  · rw [List.getElem?_set_ne (Ne.symm hk)] at hj
    exact free_of_ne h hstall hk hj

/-- No access is older than the lone one (R151). -/
theorem not_olderConflict_dueState (A : Station) (kinds : List OpCode) :
    ¬ OlderConflict ((dueState s i k S).setStation k A) A kinds := by
  rintro ⟨T, hT, hbusy, -, hlt, -⟩
  obtain ⟨j, hj⟩ := List.mem_iff_getElem?.1 hT
  rw [State.setStation, dueState_stations, List.set_set] at hj
  obtain ⟨-, rfl⟩ := holds_of_busy_withLone (alone_issuedState h hstall) (c := 0) hj hbusy
  exact lt_irrefl _ hlt

end AboutToRun

theorem readReg_congr {s t : State} (h : t.reg = s.reg) (r : RegIdx) : t.readReg r = s.readReg r := by
  rw [State.readReg, h, State.readReg]

theorem status_congr {s t : State} (h : t.regStat = s.regStat) (r : RegIdx) : t.status r = s.status r := by
  rw [State.status, h, State.status]

/-! ## STORE -/

theorem wordAt_of_get {s t : State} {b : Int} {v : Word} (hb : inBounds b = true)
    (hm : ∀ a : Nat, t.mem.get a = if (a : Int) = b then v else s.mem.get a) (a : Int) :
    t.wordAt a = if a = b then v else s.wordAt a := by
  rw [State.wordAt, State.wordAt, hm]
  by_cases ha : inBounds a = true
  · rw [if_pos ha, if_pos ha, Int.toNat_of_nonneg (inBounds_iff.1 ha).1]
  · rw [if_neg ha, if_neg ha, if_neg]
    rintro rfl
    exact ha hb

/-- Settles O54: the completion of `storeWritesItsEffectiveAddress` at the threshold. -/
theorem storeRunsToMemory : Obligations.StoreRunsToMemory := by
  intro s rA rB o k S h hnext hcanon hin
  obtain ⟨-, hbranch, hjump⟩ := (quiescent_iff s).1 h.quiet
  obtain ⟨-, -, hseq, -, hvj, hvk, hdue⟩ := dueStation_fields h
  have hbase : (issuedStation s (.store rA rB o) S).vj = some (s.readReg rB) := capture_cycleStart h rB
  have haddress : accessAddress (dueStation s (.store rA rB o) S) (s.readReg rB) = ((s.readReg rB).toNat : Int) + o := by
    rw [← addressed_a, addressed_dueStation h (.inr rfl) hbase]
    rfl
  obtain ⟨m, hexec, -, hm⟩ := storeWritesItsEffectiveAddress rA rB o (dueState s (.store rA rB o) k S) k _ _ _
    (by rw [MemoryCanonical, dueState_mem]; exact hcanon) rfl (dueState_holds h (.inr hnext)) (hvj.trans hbase)
    (hvk.trans (capture_cycleStart h rA)) hdue (not_olderConflict_dueState h (.inr hnext) _ _) (haddress ▸ hin)
  refine ⟨_, stepN_of_release h (.inr hnext) hexec (free_of_release h (.inr hnext) _), ?mem, ?reg, ?status, ?pc, ?quiet,
    ?executed, ?writtenBack⟩
  case mem => exact wordAt_of_get hin fun a => by rw [← haddress, ← dueState_mem s (.store rA rB o) k S]; exact hm a
  case reg => exact readReg_congr (dueState_reg s _ k S)
  case status => exact fun r => (status_congr rfl r).trans (status_dueState h rfl r)
  case pc => exact dueState_pc s _ k S
  case quiet =>
    exact (quiescent_iff _).2 ⟨free_of_release h (.inr hnext) _, (dueState_branchPending s _ k S).trans hbranch,
      (dueState_jumpPending s _ k S).trans hjump⟩
  case executed => exact append_dueEntry h (dueState_executed s _ k S)
  case writtenBack => exact append_dueEntry h (dueState_writtenBack s _ k S)

/-! ## BEQ -/

/-- Settles O55: a taken and a not taken completion. Nothing is renamed, so every squash policy leaves the table as it was. -/
theorem beqRunsToItsTarget : Obligations.BeqRunsToItsTarget := by
  intro s rA rB o k S h hnext
  obtain ⟨-, hbranch, hjump⟩ := (quiescent_iff s).1 h.quiet
  obtain ⟨-, -, hseq, -, hvj, hvk, hdue⟩ := dueStation_fields h
  have hholds := dueState_holds h (.inr hnext)
  have hx := hvj.trans (capture_cycleStart h rA)
  have hy := hvk.trans (capture_cycleStart h rB)
  obtain ⟨ha, horig⟩ := dueStation_target s (.beq rA rB o) S nofun
  by_cases heq : s.readReg rA = s.readReg rB
  · rw [← heq] at hy
    obtain ⟨t, hexec, hpc, hb, -, -, hj, hmiss, -, hissued, -, -, hstat, hself, hothers, hlen, hreg, -, hexecuted,
      hwritten⟩ := takenBeqRedirectsAndSquashes rA rB o _ k _ _ s.regStat rfl hholds hdue hx hy (dueState_checkpoint s _ k S)
        fun _ r p T hr => by rw [status_dueState h rfl] at hr; cases hr
    have hfree : ∀ X ∈ t.stations, X.busy = false := by
      intro X hX
      obtain ⟨j, hj⟩ := List.mem_iff_getElem?.1 hX
      by_cases hk : j = k
      · subst hk
        rw [holds_unique hj hself]
        rfl
      · obtain ⟨T, hT⟩ : ∃ T, (dueState s (.beq rA rB o) k S).holds j T :=
          ⟨_, List.getElem?_eq_getElem (hlen ▸ holds_lt hj)⟩
        have hTfree := free_of_ne h (.inr hnext) hk hT
        rw [holds_unique hj (hothers j T hk hT), if_neg (by simp [hTfree]), hTfree]
    have hregStat : t.regStat = s.regStat := by
      rw [hstat, dueState_regStat]
      exact ite_self _
    have hmem : t.mem = (dueState s (.beq rA rB o) k S).mem := by
      obtain ⟨B, -, hex⟩ := exec_execute_cases rfl hexec
      exact (mem_of_executes hex).resolve_right fun hstore => nomatch hstore.1
    refine ⟨_, stepN_of_release h (.inr hnext) hexec hfree, ?pc, ?misses, ?issues, ?reg, ?status, ?mem, ?quiet, ?executed,
      ?writtenBack⟩
    case pc =>
      have ho : (issuedStation s (.beq rA rB o) S).a = o := rfl
      rw [ha, horig, ho] at hpc
      rw [if_pos heq]
      exact hpc.trans (by omega)
    case misses => rw [if_pos heq]; exact hmiss
    case issues => exact hissued
    case reg => exact fun r => (hreg r).trans (dueState_readReg s _ k S r)
    case status => exact fun r => (status_congr hregStat r).trans (h.committed r)
    case mem => exact hmem.trans (dueState_mem s _ k S)
    case quiet => exact (quiescent_iff _).2 ⟨hfree, hb, hj⟩
    case executed => exact hexecuted.trans (append_dueEntry h (dueState_executed s _ k S))
    case writtenBack => exact hwritten.trans (append_dueEntry h (dueState_writtenBack s _ k S))
  · refine ⟨_, stepN_of_release h (.inr hnext) (notTakenBeqClosesTheBranch rA rB o _ k _ _ _ rfl hholds hdue hx hy heq)
      (free_of_release h (.inr hnext) _), ?pc, ?misses, ?issues, ?reg, ?status, ?mem, ?quiet, ?executed, ?writtenBack⟩
    case pc =>
      have hpc : ∀ c : Prop, [Decidable c] → (if c then (dueStation s (.beq rA rB o) S).originalPC + 1 else
          (dueState s (.beq rA rB o) k S).pc) = s.pc + 1 := fun c _ => by rw [horig, dueState_pc, ite_self]
      rw [if_neg heq]
      exact hpc _
    case misses => rw [if_neg heq]; exact dueState_mispredictions s _ k S
    case issues => exact dueState_branchesIssued s _ k S
    case reg => exact readReg_congr (dueState_reg s _ k S)
    case status => exact fun r => (status_congr rfl r).trans (status_dueState h rfl r)
    case mem => exact dueState_mem s _ k S
    case quiet =>
      exact (quiescent_iff _).2 ⟨free_of_release h (.inr hnext) _, rfl, (dueState_jumpPending s _ k S).trans hjump⟩
    case executed => exact append_dueEntry h (dueState_executed s _ k S)
    case writtenBack => exact append_dueEntry h (dueState_writtenBack s _ k S)

/-! ## CALL and RET -/

/-- The completion of a lone CALL or RET: the register file changes for a CALL only, and in R1 only. -/
theorem jump_completes {s : State} {i : Instr} {k : Nat} {S : Station} (h : AboutToRun s i k S)
    (hjump : isJump i.opcode = true) : ∃ regs : Bank Word,
      exec i (dueState s i k S) = .next { dueState s i k S with
        reg := regs, pc := (dueStation s i S).a, jumpPending := false
        stations := (dueState s i k S).stations.set k (Station.released (dueStation s i S).desc)
        executed := (dueState s i k S).executed ++
          [{ seq := (dueStation s i S).seq, instr := i, cycle := (dueState s i k S).cycle, station := k }]
        writtenBack := (dueState s i k S).writtenBack ++
          [{ seq := (dueStation s i S).seq, instr := i, cycle := (dueState s i k S).cycle, station := k }] } ∧
      (∀ r, r ≠ 1 → regs.get r = s.reg.get r) ∧
      (∀ l, i = .call l → ((regs.get 1).toNat : Int) = (s.pc + 1) % 65536) ∧ (i = .ret → regs = s.reg) := by
  obtain ⟨-, -, -, -, -, -, hdue⟩ := dueStation_fields h
  have hholds := dueState_holds h (.inl hjump)
  cases i with
  | call l =>
    obtain ⟨regs, hexec, hlink, hregs⟩ := callLinksAndJumps l _ k _ rfl hholds hdue
    exact ⟨regs, hexec, fun r hr => (hregs r hr).trans (congrArg (Bank.get · r) (dueState_reg s _ k S)),
      fun _ _ => hlink, nofun⟩
  | ret =>
    exact ⟨_, retJumpsToItsTarget _ k _ rfl hholds hdue, fun r _ => congrArg (Bank.get · r) (dueState_reg s _ k S), nofun,
      fun _ => dueState_reg s _ k S⟩
  | load | store | beq | add | sub | nor | mul => cases hjump

/-- Settles O56: `jump_completes` at the threshold. -/
theorem jumpRunsToItsTarget : Obligations.JumpRunsToItsTarget := by
  intro s i k S h hjump
  obtain ⟨-, hbranch, -⟩ := (quiescent_iff s).1 h.quiet
  obtain ⟨regs, hexec, hregs, hlink, hfile⟩ := jump_completes h hjump
  have hkind : i.opcode ≠ .beq ∧ destOf i = none ∧ ¬ (i.opcode = .load ∨ i.opcode = .store) := by
    cases i with
    | call | ret => exact ⟨nofun, rfl, nofun⟩
    | load | store | beq | add | sub | nor | mul => cases hjump
  obtain ⟨hbeq, hdest, haccess⟩ := hkind
  obtain ⟨ha, -⟩ := dueStation_target s i S haccess
  have hreg : ∀ r, r ≠ 1 → (if r = 0 then 0 else regs.get r) = s.readReg r := fun r hr => by rw [hregs r hr]; rfl
  refine ⟨_, stepN_of_release h (.inl hjump) hexec (free_of_release h (.inl hjump) _), ?ofCall, ?ofRet, hreg, ?status, ?mem,
    ?quiet, ?executed, ?writtenBack⟩
  case ofCall =>
    rintro l rfl
    exact ⟨ha.trans (callTarget_eq (cycleStart s) l), hlink l rfl⟩
  case ofRet =>
    rintro rfl
    exact ⟨ha, congrArg (Bank.get · 1) (hfile rfl)⟩
  case status => exact fun r => (status_congr rfl r).trans (status_dueState h hdest r)
  case mem => exact dueState_mem s i k S
  case quiet =>
    refine (quiescent_iff _).2 ⟨free_of_release h (.inl hjump) _, (dueState_branchPending s i k S).trans ?_, rfl⟩
    rw [decide_eq_false hbeq, hbranch]
    rfl
  case executed => exact append_dueEntry h (dueState_executed s i k S)
  case writtenBack => exact append_dueEntry h (dueState_writtenBack s i k S)

end Sys2Proof.Proofs.LoneInstructions

/-! SUPPORT. A lone ADD, SUB, NOR, MUL or LOAD: the completion leaves its result in the station, and the next step
broadcasts it (40_pipeline.md R130 to R137). -/

namespace Sys2Proof.Proofs.LoneProducers

open Machine Phases WholeMachine CycleParts ExecuteParts IssueParts Frames LoneRuns LoneInstructions

/-! ## From the completion to the broadcast -/

/-- The engine with the completion of `i` logged. -/
def loggedState (s : State) (i : Instr) (k : Nat) (S : Station) : State :=
  { issuedState s i k S with
    executed := s.executed ++ [s.loneEntry i k (s.cycle + S.desc.cyclesNeeded + 1)] }

theorem alone_loggedState {s : State} {i : Instr} {k : Nat} {S : Station} (h : Alone (issuedState s i k S) k) :
    Alone (loggedState s i k S) k := ⟨h.lt, h.others, h.started, h.turn, h.unfaulted, h.branch, h.stalls⟩

/-- `T` holds the result `v` of `i`, which issued into `S`, and has counted `n` cycles. -/
structure Produced (s : State) (i : Instr) (S : Station) (v : Word) (n : Nat) (T : Station) : Prop where
  flight : InFlight i T
  desc : T.desc = S.desc
  seq : T.seq = s.nextSeq
  result : T.result = some v
  cycles : T.cyclesPassed = n

/-- A station with a result goes on counting (R112). -/
theorem Produced.advanced {s : State} {i : Instr} {S : Station} {v : Word} {n : Nat} {T : Station}
    (h : Produced s i S v n T) : T.advanced = { T with cyclesPassed := n + 1 } ∧ Produced s i S v (n + 1) T.advanced := by
  obtain ⟨hfly, hdesc, hseq, hresult, hcycles⟩ := h
  have heq : T.advanced = { T with cyclesPassed := n + 1 } := by
    rw [advanced_of_inFlight hfly (.inr (by rw [hresult]; exact nofun)), hcycles]
  rw [heq]
  exact ⟨rfl, ⟨hfly.busy, hfly.op, hfly.instr, hfly.qj, hfly.qk⟩, hdesc, hseq, hresult, rfl⟩

section Broadcast

variable {s : State} {i : Instr} {k : Nat} {S T : Station} {v : Word} (h : AboutToRun s i k S) (hnext : EmptyNext s)

include h hnext

/-- The bus carries the result in the cycle after the completion (R132): every other entry is older than the lone
instruction, and no station holds its number. -/
theorem cdb_produced (hT : Produced s i S v (S.desc.cyclesNeeded + 1) T) (hbeq : i.opcode ≠ .beq) (c : Nat) :
    cdb (withLone (loggedState s i k S) k T c) = some ⟨s.loneEntry i k (s.cycle + 1), v⟩ := by
  have halone := alone_loggedState (alone_issuedState h (.inr hnext))
  refine (oldestReadyResultWinsTheBus _).2.1 _ |>.2 ⟨?pending, s.issued, [], ?log, ?ready, ?older⟩
  case pending =>
    obtain ⟨-, hpend, -⟩ := (quiescent_iff s).1 h.quiet
    refine (issuedInto_branchPending i k S (cycleStart s)).trans ?_
    rw [decide_eq_false hbeq, Bool.false_or]
    exact hpend
  case log => exact issuedInto_issued i k S (cycleStart s)
  case ready =>
    exact ⟨T, withLone_holds halone T c, hT.flight.busy, hT.seq, hT.result,
      by rw [hT.desc, hT.cycles]; exact Nat.lt_succ_self _⟩
  case older =>
    rintro e he w ⟨X, hX, hbusy, hseq, -⟩
    obtain ⟨-, rfl⟩ := holds_of_busy_withLone halone hX hbusy
    exact absurd (hseq.symm.trans hT.seq) (h.logged e he).ne

/-- The engine after the completion, whose result is not past the threshold yet. -/
theorem stepN_produced (hT : Produced s i S v S.desc.cyclesNeeded T)
    (hexec : exec i (dueState s i k S) = .next { dueState s i k S with
      stations := (dueState s i k S).stations.set k T
      executed := (dueState s i k S).executed ++
        [{ seq := (dueStation s i S).seq, instr := i, cycle := (dueState s i k S).cycle, station := k }] }) :
    stepN (S.desc.cyclesNeeded + 1) s =
      .next (withLone (loggedState s i k S) k T (s.cycle + S.desc.cyclesNeeded + 1)) := by
  have halone := alone_issuedState h (.inr hnext)
  rw [append_dueEntry h (dueState_executed s i k S), dueState_stations, List.set_set] at hexec
  replace hexec : exec i (dueState s i k S) =
      .next ((withLone (loggedState s i k S) k T (s.cycle + S.desc.cyclesNeeded + 1)).withTurn (.execute k)) := hexec
  rw [stepN_of_completion h (.inr hnext) hexec, withTurn_withLone (alone_loggedState halone),
    writeback_withLone (alone_loggedState halone) (.inr (by rw [hT.cycles, hT.desc]))]

/-- The step after the completion counts once more and broadcasts. -/
theorem step_produced (hT : Produced s i S v S.desc.cyclesNeeded T) (hbeq : i.opcode ≠ .beq)
    (hidle : ∀ u : State, u.turn = .execute k → u.holds k T.advanced → exec i u = .next u) (c : Nat) :
    step (withLone (loggedState s i k S) k T c) =
      .next ((withLone (loggedState s i k S) k T.advanced (c + 1)).broadcast ⟨s.loneEntry i k (s.cycle + 1), v⟩) := by
  have halone := alone_loggedState (alone_issuedState h (.inr hnext))
  obtain ⟨-, hadv⟩ := hT.advanced
  rw [step_withLone halone, finishCycle_withLone halone hadv.flight, 
    hidle ((withLone (loggedState s i k S) k T.advanced (c + 1)).withTurn (.execute k)) rfl
      (withLone_holds halone _ (c + 1)),
    andThen_next, withTurn_withLone halone, writeback_of_cdb_some (cdb_produced h hnext hadv hbeq (c + 1))]

end Broadcast

/-- The engine after the broadcast of `v`. -/
def doneState (s : State) (i : Instr) (k : Nat) (S T : Station) (v : Word) : State :=
  (withLone (loggedState s i k S) k T.advanced (s.cycle + S.desc.cyclesNeeded + 2)).broadcast
    ⟨s.loneEntry i k (s.cycle + 1), v⟩

section Done

variable {s : State} {i : Instr} {k : Nat} {S T : Station} {v : Word} {rA : RegIdx} (h : AboutToRun s i k S)

include h

/-- After the broadcast no station is busy. -/
theorem free_doneState (hnext : EmptyNext s) : ∀ X ∈ (doneState s i k S T v).stations, X.busy = false := by
  intro X hX
  obtain ⟨j, hj⟩ := List.mem_iff_getElem?.1 hX
  obtain hfree | ⟨hne, Y, hY, rfl⟩ := broadcast_holds hj
  · exact hfree
  · obtain ⟨-, hbusy, -⟩ := woken_fields k v Y
    refine hbusy.trans (Bool.eq_false_iff.2 fun hb => ?_)
    exact hne (holds_of_busy_withLone (alone_loggedState (alone_issuedState h (.inr hnext))) hY hb).1

/-- Before the broadcast, the destination names the lone station, and no other register does. -/
theorem status_loggedState (hdest : destOf i = some rA) (r : RegIdx) (c : Nat) :
    (withLone (loggedState s i k S) k T c).status r = if r = rA ∧ r ≠ 0 then some k else none := by
  have hr : (cycleStart s).status r = none := h.committed r
  have hset := Pipeline.issuedInto_status i k S (cycleStart s) r
  rw [hdest, hr] at hset
  refine (status_congr (s := issuedInto i k S (cycleStart s)) rfl r).trans (hset.trans ?_)
  exact if_congr (and_congr_left' (Option.some_inj.trans eq_comm)) rfl rfl

theorem readReg_doneState (hdest : destOf i = some rA) (r : RegIdx) :
    (doneState s i k S T v).readReg r = if r = rA ∧ r ≠ 0 then v else s.readReg r := by
  rw [doneState, readReg_broadcast, status_loggedState h hdest,
    readReg_congr (s := s) (t := withLone (loggedState s i k S) k T.advanced _) (issuedInto_reg i k S (cycleStart s))]
  by_cases hr : r = rA ∧ r ≠ 0
  · rw [if_pos hr, if_pos hr]
    exact if_pos ⟨rfl, hr.2⟩
  · rw [if_neg hr, if_neg hr]
    exact if_neg nofun

theorem status_doneState (hdest : destOf i = some rA) (r : RegIdx) : (doneState s i k S T v).status r = none := by
  rw [doneState, broadcast_status, status_loggedState h hdest]
  by_cases hr : r = rA ∧ r ≠ 0
  · rw [if_pos hr]
    exact if_pos rfl
  · rw [if_neg hr]
    exact if_neg nofun

end Done

/-- A lone producer whose completion leaves `v` in its station, and which does nothing while it holds a result, has
after L + 2 steps written `v` to its destination. -/
theorem producer_runs {s : State} {i : Instr} {k : Nat} {S T : Station} {v : Word} {rA : RegIdx}
    (h : AboutToRun s i k S) (hnext : EmptyNext s) (hdest : destOf i = some rA)
    (hT : Produced s i S v S.desc.cyclesNeeded T)
    (hexec : exec i (dueState s i k S) = .next { dueState s i k S with
      stations := (dueState s i k S).stations.set k T
      executed := (dueState s i k S).executed ++
        [{ seq := (dueStation s i S).seq, instr := i, cycle := (dueState s i k S).cycle, station := k }] })
    (hidle : ∀ u : State, u.turn = .execute k → u.holds k T.advanced → exec i u = .next u) :
    ∃ t, stepN (S.desc.cyclesNeeded + 2) s = .next t ∧
      (∀ r, t.readReg r = if r = rA ∧ r ≠ 0 then v else s.readReg r) ∧
      (∀ r, t.status r = none) ∧ t.mem = s.mem ∧ t.pc = s.pc + 1 ∧ halted t = true ∧
      t.executed = s.executed ++ [s.loneEntry i k (s.cycle + S.desc.cyclesNeeded + 1)] ∧
      t.writtenBack = s.writtenBack ++ [s.loneEntry i k (s.cycle + S.desc.cyclesNeeded + 2)] := by
  obtain ⟨-, hbranch, hjump⟩ := (quiescent_iff s).1 h.quiet
  have hkind : i.opcode ≠ .beq ∧ isJump i.opcode = false := by
    cases i with
    | load | add | sub | nor | mul => exact ⟨nofun, rfl⟩
    | store | beq | call | ret => cases hdest
  obtain ⟨hbeq, hnojump⟩ := hkind
  have hmem : (doneState s i k S T v).mem = s.mem := issuedInto_mem i k S (cycleStart s)
  have hpc : (doneState s i k S T v).pc = s.pc + 1 := issuedInto_pc i k S (cycleStart s)
  have hrun : stepN (S.desc.cyclesNeeded + 2) s = .next (doneState s i k S T v) := by
    rw [stepN_succ_last, stepN_produced h hnext hT hexec, andThen_next, step_produced h hnext hT hbeq hidle]
    rfl
  refine ⟨_, hrun, readReg_doneState h hdest, status_doneState h hdest, hmem, hpc, ?halted, rfl, ?writtenBack⟩
  case halted =>
    have hb : (doneState s i k S T v).branchPending = false := by
      refine (issuedInto_branchPending i k S (cycleStart s)).trans ?_
      rw [decide_eq_false hbeq]
      exact hbranch
    have hj : (doneState s i k S T v).jumpPending = false := by
      refine (issuedInto_jumpPending i k S (cycleStart s)).trans ?_
      rw [hnojump]
      exact hjump
    refine (halted_iff _).2 ⟨⟨free_doneState h hnext, hb, hj⟩, ?_⟩
    rw [hmem, hpc]
    exact hnext
  case writtenBack => exact congrArg (· ++ _) (issuedInto_writtenBack i k S (cycleStart s))

/-! ## ADD, SUB, NOR and MUL -/

/-- Settles O52: `producer_runs` with the completion of `aluCompletesWithItsResult`. -/
theorem aluInstructionRunsToItsRegister : Obligations.AluInstructionRunsToItsRegister := by
  intro s i k S rA rB rC h hnext hfields
  have halu : (aluFields i).isSome = true := by rw [hfields]; rfl
  obtain ⟨hfly, hdesc, hseq, hresult, hvj, hvk, hdue⟩ := dueStation_fields h
  have hops : destOf i = some rA ∧ (issuedStation s i S).vj = some (s.readReg rB) ∧
      (issuedStation s i S).vk = some (s.readReg rC) := by
    cases i with
    | add a b c | sub a b c | nor a b c | mul a b c =>
      cases hfields
      exact ⟨rfl, capture_cycleStart h rB, capture_cycleStart h rC⟩
    | load | store | beq | call | ret => cases hfields
  obtain ⟨hdest, hx, hy⟩ := hops
  exact producer_runs h hnext hdest
    (T := { dueStation s i S with result := some (aluResult i (s.readReg rB) (s.readReg rC)) })
    ⟨⟨hfly.busy, hfly.op, hfly.instr, hfly.qj, hfly.qk⟩, hdesc, hseq, rfl, hdue.trans (congrArg _ hdesc)⟩
    (aluCompletesWithItsResult i _ k _ _ _ halu rfl (dueState_holds h (.inr hnext)) hresult hdue (hvj.trans hx)
      (hvk.trans hy))
    fun u hturn hholds => by
      obtain ⟨-, hidle, -⟩ := executeWaitsUntilDue i u k _ hturn hholds
      exact hidle halu (by rw [Pipeline.advanced_eq]; exact nofun)

/-! ## LOAD -/

theorem setStation_of_holds {s : State} {k : Nat} {T : Station} (h : s.holds k T) : s.setStation k T = s := by
  obtain ⟨hlt, rfl⟩ := List.getElem?_eq_some_iff.1 h
  rw [State.setStation, List.set_getElem_self]

/-- A LOAD with its address and its result has nothing left to do (R128). -/
theorem exec_load_of_result {rA rB : RegIdx} {o : Int} {s : State} {k : Nat} {T : Station} {base : Word}
    (hturn : s.turn = .execute k) (hT : s.holds k T) (hbase : T.vj = some base) (haddr : T.addrReady = true)
    (hresult : T.result ≠ none) : exec (.load rA rB o) s = .next s := by
  obtain ⟨-, -, -, hidle⟩ := executeWaitsUntilDue (.load rA rB o) s k T hturn hT
  rw [hidle base hbase rfl hresult, addressed_of_addrReady haddr, setStation_of_holds hT]

/-- Settles O53: `producer_runs` with the completion of `loadReadsItsEffectiveAddress`. -/
theorem loadRunsToItsRegister : Obligations.LoadRunsToItsRegister := by
  intro s rA rB o k S h hnext hin
  obtain ⟨hfly, hdesc, hseq, hresult, hvj, hvk, hdue⟩ := dueStation_fields h
  have hbase : (issuedStation s (.load rA rB o) S).vj = some (s.readReg rB) := capture_cycleStart h rB
  have haddressed := addressed_dueStation h (.inl rfl) hbase
  have haddress : accessAddress (dueStation s (.load rA rB o) S) (s.readReg rB) = ((s.readReg rB).toNat : Int) + o := by
    rw [← addressed_a, haddressed]
    rfl
  have hexec := loadReadsItsEffectiveAddress rA rB o (dueState s (.load rA rB o) k S) k _ _ rfl
    (dueState_holds h (.inr hnext)) (hvj.trans hbase) hresult hdue (not_olderConflict_dueState h (.inr hnext) _ _)
    (haddress ▸ hin)
  rw [haddress] at hexec
  have hread : s.wordAt (((s.readReg rB).toNat : Int) + o) =
      (dueState s (.load rA rB o) k S).mem.get (((s.readReg rB).toNat : Int) + o).toNat := by
    rw [State.wordAt, if_pos hin, dueState_mem]
  rw [hread]
  have hfields := visited_fields (.load rA rB o) _ hfly
  rw [visited_of_access (.inl rfl) (hvj.trans hbase)] at hfields
  obtain ⟨⟨hbusy, hop, hinstr, hqj, hqk⟩, hdesc', hseq', -, hcycles, hvj', -⟩ := hfields
  refine producer_runs h hnext rfl
    (T := { addressed (dueStation s (.load rA rB o) S) (s.readReg rB) with
      result := some ((dueState s (.load rA rB o) k S).mem.get (((s.readReg rB).toNat : Int) + o).toNat) })
    ⟨⟨hbusy, hop, hinstr, hqj, hqk⟩, hdesc'.trans hdesc, hseq'.trans hseq, rfl,
      hcycles.trans (hdue.trans (congrArg _ hdesc))⟩ hexec fun u hturn hholds => ?_
  rw [Pipeline.advanced_eq] at hholds
  exact exec_load_of_result hturn hholds (hvj'.trans (hvj.trans hbase)) (congrArg Station.addrReady haddressed) nofun

end Sys2Proof.Proofs.LoneProducers
